-- ==== Sys2Proof/Word.lean ====
section
/-! DEFINITION. The widths of the CAE's values (00_scope.md R8, R9): one name per width, nothing else. -/

namespace Sys2Proof

/-- A register, a command word or the data of a host access: 32 bits (00_scope.md R8, HOST_DATA_WIDTH). -/
abbrev Word := BitVec 32

/-- One byte of a buffer (10_state.md R32). -/
abbrev Byte := BitVec 8

/-- One symbol of the alphabet's domain, 5 bits (00_scope.md R8, SYMBOL_WIDTH; R14). -/
abbrev Symbol := BitVec 5

/-- A PolyMod accumulator or value, 40 bits (00_scope.md R8, PM_WIDTH; 41_polymod.md R153). -/
abbrev Acc := BitVec 40

/-- A host address, 12 bits: the 4 KiB window (00_scope.md R8, HOST_ADDR_WIDTH; 20_memory.md R60). -/
abbrev HostAddr := BitVec 12

/-- A length register's LEN field, 16 bits (10_state.md R29). -/
abbrev Len := BitVec 16

end Sys2Proof
end

