-- ==== Sys2Proof/Syntax.lean ====
section
/-! DEFINITION. The eleven commands of CAE-1 (30_encoding.md R96), one constructor per row of
spec/opcode_table.json. -/

namespace Sys2Proof

/-- A command with the operand fields of its word (30_encoding.md R91 to R95, R98). A field is a natural number as the
pseudocode has it (00_scope.md R9); `Instr.WellFormed` bounds it by its field's width. -/
inductive Instr where
  /-- NOP, 40_command.md R127. -/
  | nop
  /-- PM_INIT, 41_polymod.md R154. -/
  | pmInit
  /-- PM_STEP with SYM = w[12:8], 41_polymod.md R155. -/
  | pmStep (sym : Nat)
  /-- PM_RUN, 41_polymod.md R156. -/
  | pmRun
  /-- CB_RUN with FROM = w[11:8], TO = w[15:12], PAD = w[16], 42_repacker.md R184. -/
  | cbRun (fromBits toBits : Nat) (pad : Bool)
  /-- B32_MAP, 45_base32.md R253. -/
  | b32Map
  /-- B32_UNMAP, 45_base32.md R254. -/
  | b32Unmap
  /-- PACK with TYPE = w[15:8], 43_packer.md R214. -/
  | pack (ty : Nat)
  /-- CHECKSUM, 44_checksum.md R233. -/
  | checksum
  /-- ENCODE with TYPE = w[15:8], 46_codec.md R272. -/
  | encode (ty : Nat)
  /-- DECODE, 46_codec.md R277. -/
  | decode
  deriving DecidableEq, Repr

end Sys2Proof
end

