-- ==== Sys2Proof/WellFormed.lean ====
section
/-! DEFINITION. Which command terms have a word: each operand fits its field (30_encoding.md R93 to R95, R98). -/

namespace Sys2Proof

/-- Each operand fits the bits its format gives it (30_encoding.md R93 for SYM, R94 for FROM and TO, R95 for TYPE). -/
def Instr.wellFormed : Instr → Bool
  | .nop => true
  | .pmInit => true
  | .pmStep sym => decide (sym < 32)
  | .pmRun => true
  | .cbRun f t _ => decide (f < 16) && decide (t < 16)
  | .b32Map => true
  | .b32Unmap => true
  | .pack ty => decide (ty < 256)
  | .checksum => true
  | .encode ty => decide (ty < 256)
  | .decode => true

/-- `Instr.wellFormed` as a proposition. -/
abbrev Instr.WellFormed (i : Instr) : Prop := i.wellFormed = true

end Sys2Proof
end

