-- ==== Sys2Proof/Decode.lean ====
section
/-! DEFINITION. Command words and commands: the opcode table, the decoder, the encoder (30_encoding.md R90 to R99). -/

namespace Sys2Proof

/-- Why a word is no command of CAE-1 (30_encoding.md R97: an OP that is not one of the eleven values, or a reserved bit
of its format set). Either way the word completes with ILLEGAL_CMD. -/
inductive DecodeError where
  /-- OP is not one of the eleven values of 30_encoding.md R96. -/
  | undefinedOpcode (op : Byte)
  /-- OP is defined and a reserved bit of its format is 1. -/
  | reservedBits (op : Byte)
  deriving DecidableEq, Repr

/-- OP = w[7:0] (30_encoding.md R91). -/
def fieldOp (w : Word) : Byte := w.extractLsb' 0 8

/-- SYM = w[12:8], format S (30_encoding.md R93, R98). -/
def fieldSym (w : Word) : Nat := (w.extractLsb' 8 5).toNat

/-- FROM = w[11:8], format C (30_encoding.md R94, R98). -/
def fieldFrom (w : Word) : Nat := (w.extractLsb' 8 4).toNat

/-- TO = w[15:12], format C (30_encoding.md R94, R98). -/
def fieldTo (w : Word) : Nat := (w.extractLsb' 12 4).toNat

/-- PAD = w[16], format C (30_encoding.md R94, R98). -/
def fieldPad (w : Word) : Bool := w.getLsbD 16

/-- TYPE = w[15:8], format T (30_encoding.md R95, R98). -/
def fieldType (w : Word) : Nat := (w.extractLsb' 8 8).toNat

/-- One row of the opcode map (30_encoding.md R96): the fixed bits, their mask, and the command with the operands of a
word that the row selects. -/
structure OpcodeRow where
  /-- The mnemonic as spec/opcode_table.json spells it. -/
  mnemonic : String
  /-- The word's fixed bits. -/
  fixed : Word
  /-- Which bits are fixed. -/
  mask : Word
  /-- The command of a word the row selects (30_encoding.md R98). -/
  command : Word → Instr

/-- The row selects w: (w & mask) = match (30_encoding.md R96). -/
def rowSelects (r : OpcodeRow) (w : Word) : Bool := w &&& r.mask == r.fixed

/-- The opcode map, row by row (30_encoding.md R96). -/
def opcodeTable : List OpcodeRow :=
  [ ⟨"NOP", 0x00000000, 0xFFFFFFFF, fun _ => .nop⟩,
    ⟨"PM_INIT", 0x00000001, 0xFFFFFFFF, fun _ => .pmInit⟩,
    ⟨"PM_STEP", 0x00000002, 0xFFFFE0FF, fun w => .pmStep (fieldSym w)⟩,
    ⟨"PM_RUN", 0x00000003, 0xFFFFFFFF, fun _ => .pmRun⟩,
    ⟨"CB_RUN", 0x00000010, 0xFFFE00FF, fun w => .cbRun (fieldFrom w) (fieldTo w) (fieldPad w)⟩,
    ⟨"B32_MAP", 0x00000020, 0xFFFFFFFF, fun _ => .b32Map⟩,
    ⟨"B32_UNMAP", 0x00000021, 0xFFFFFFFF, fun _ => .b32Unmap⟩,
    ⟨"PACK", 0x00000030, 0xFFFF00FF, fun w => .pack (fieldType w)⟩,
    ⟨"CHECKSUM", 0x00000031, 0xFFFFFFFF, fun _ => .checksum⟩,
    ⟨"ENCODE", 0x00000040, 0xFFFF00FF, fun w => .encode (fieldType w)⟩,
    ⟨"DECODE", 0x00000041, 0xFFFFFFFF, fun _ => .decode⟩ ]

/-- The eleven OP values (30_encoding.md R96). -/
def definedOpcodes : List Byte := [0x00, 0x01, 0x02, 0x03, 0x10, 0x20, 0x21, 0x30, 0x31, 0x40, 0x41]

/-- The command a word stands for, or why it is illegal (30_encoding.md R96, R97, R99). Total on every word. -/
def decodeWord (w : Word) : Except DecodeError Instr :=
  match opcodeTable.find? (fun r => rowSelects r w) with
  | some r => .ok (r.command w)
  | none =>
    if definedOpcodes.contains (fieldOp w) then .error (.reservedBits (fieldOp w))
    else .error (.undefinedOpcode (fieldOp w))

/-- A word is legal when a row selects it (30_encoding.md R97). -/
def legalWord (w : Word) : Bool :=
  match decodeWord w with
  | .ok _ => true
  | .error _ => false

/-- A natural number placed in a word's bits from bit `lo` up (30_encoding.md R98: unscaled and unshifted). -/
def placeField (v lo : Nat) : Word := BitVec.ofNat 32 v <<< lo

/-- The word of a well-formed command (30_encoding.md R92 to R96, R100). -/
def encode (i : Instr) : Word :=
  match i with
  | .nop => 0x00000000
  | .pmInit => 0x00000001
  | .pmStep sym => 0x00000002 ||| placeField sym 8
  | .pmRun => 0x00000003
  | .cbRun f t pad => 0x00000010 ||| placeField f 8 ||| placeField t 12 ||| placeField pad.toNat 16
  | .b32Map => 0x00000020
  | .b32Unmap => 0x00000021
  | .pack ty => 0x00000030 ||| placeField ty 8
  | .checksum => 0x00000031
  | .encode ty => 0x00000040 ||| placeField ty 8
  | .decode => 0x00000041

/-- The command the decoder reads from the low `nbits` bits of `w`, every bit above them 0. Every command is one 32-bit
word (30_encoding.md R90), so a value that does not fit 32 bits is no command (log 23). -/
def decodeTableWord (nbits w : Nat) : Option Instr :=
  if w % 2 ^ nbits < 2 ^ 32 then
    match decodeWord (BitVec.ofNat 32 (w % 2 ^ nbits)) with
    | .ok i => some i
    | .error _ => none
  else none

end Sys2Proof
end

