-- ==== Sys2Proof/Config.lean ====
section
/-! DEFINITION. The implementation parameters of 00_scope.md R8 that have a fixed value, and the type and
default of SIZE_TABLE (43_packer.md R210). LATENCY is the schedule in State (log 1); CAE_BASE is read by no rule
(log 25). -/

namespace Sys2Proof.Config

/-- PREFIX_CAP, the bytes of the PREFIX buffer (00_scope.md R8, 10_state.md R32). -/
abbrev prefixCap : Nat := 64

/-- IN_CAP, the bytes of the IN buffer (00_scope.md R8, 10_state.md R32). -/
abbrev inCap : Nat := 256

/-- OUT_CAP, the bytes of the OUT buffer (00_scope.md R8, 10_state.md R32). -/
abbrev outCap : Nat := 256

/-- SIZE_TABLE's shape: for each size class 0 to 7 its payload byte length, or none where the class is undefined
(43_packer.md R210: a partial map from the eight size classes). -/
abbrev SizeTable := Vector (Option Nat) 8

/-- The spec's default of the parameter SIZE_TABLE (43_packer.md R210, 92_eei_decisions.md D21; the spec marks it as
general knowledge, I-GK1; log 5). -/
def defaultSizeTable : SizeTable :=
  #v[some 20, some 24, some 28, some 32, some 40, some 48, some 56, some 64]

end Sys2Proof.Config

namespace Sys2Proof

/-- What 43_packer.md R210 asks of a SIZE_TABLE: injective on the classes it defines, every length 0 to 256. -/
abbrev SizeTableValid (st : Config.SizeTable) : Prop :=
  (∀ i j : Fin 8, st[i] ≠ none → st[i] = st[j] → i = j) ∧
  (∀ i : Fin 8, ∀ n ∈ st[i], n ≤ 256)

end Sys2Proof
end

