-- ==== Sys2Proof/Machine/State.lean ====
section
/-! DEFINITION. The CAE's state as plain data (10_state.md), the state after reset (10_state.md R43), and the reasons a
step or an access can stop. -/

namespace Sys2Proof.Machine

/-- The error codes of STATUS.ERR (60_exceptions.md R310). Codes 11 to 15 are never produced, so they have no
constructor (log 17). -/
inductive ErrCode where
  /-- 0, the command succeeded. -/
  | ok
  /-- 1, a character outside the alphabet or the prefix charset. -/
  | invalidCharacter
  /-- 2, too few symbols, a repack that fails, or a payload length unlike its size class. -/
  | invalidLength
  /-- 3, PolyMod of the address is not 0. -/
  | checksumMismatch
  /-- 4, a payload length that is not in SIZE_TABLE. -/
  | unsupportedSize
  /-- 5, a type tag above 7. -/
  | invalidType
  /-- 6, leftover bits that are no canonical padding. -/
  | padding
  /-- 7, an input byte that does not fit its unit. -/
  | symbolRange
  /-- 8, a length or a width out of range. -/
  | badParam
  /-- 9, a result longer than OUT. -/
  | overflow
  /-- 10, a word that is no command. -/
  | illegalCmd
  deriving DecidableEq, Repr

/-- CTRL (10_state.md R24). SRST has no storage: it reads 0 at all times (70_reset_and_hazards.md R341). -/
structure Ctrl where
  /-- Bit 0, the interrupt enable. -/
  ie : Bool
  /-- Bit 1, the uppercase fold. -/
  ucf : Bool
  deriving DecidableEq, Repr

/-- STATUS (10_state.md R25). Its reserved bits read 0 and have no storage. -/
structure Status where
  /-- Bit 0, a command is in flight. -/
  busy : Bool
  /-- Bit 1, a command completed. -/
  done : Bool
  /-- Bit 2, the busy filter refused an access. -/
  bviol : Bool
  /-- Bits 11 to 8, the code of the last completed command. -/
  err : ErrCode
  /-- Bits 23 to 16, bits 7 to 0 of the word last accepted. -/
  op : Byte
  deriving DecidableEq, Repr

/-- The three buffers as (window address, byte) pairs in one canonical form: addresses strictly rising, no byte equal to
what an unlisted address reads as (20_memory.md R61, 10_state.md R32; log 9). -/
abbrev Memory := List Host.Cell

/-- One access of the host at the port (20_memory.md R60): n bytes at address a. -/
inductive HostAccess where
  /-- A read of n bytes. -/
  | read (a : HostAddr) (n : Nat)
  /-- A write of n bytes, v's low 8 * n bits the data (20_memory.md R62). -/
  | write (a : HostAddr) (n : Nat) (v : Word)
  deriving DecidableEq, Repr

/-- What can happen next at the CAE (00_scope.md R15): an access of the host, a turn of the engine, an edge of the
reset input. -/
inductive Event where
  /-- The host performs an access. -/
  | host (h : HostAccess)
  /-- The engine has its turn: it completes the command in flight, if there is one (40_command.md R122). -/
  | engine
  /-- rst becomes asserted (70_reset_and_hazards.md R340). -/
  | resetAssert
  /-- rst is released (70_reset_and_hazards.md R340). -/
  | resetRelease
  deriving DecidableEq, Repr

/-- The response that ends a host access (20_memory.md R60, R66). -/
inductive Response where
  /-- OK with read data. -/
  | data (v : Word)
  /-- OK for a write. -/
  | done
  /-- ERROR, which carries no data (20_memory.md R66). -/
  | busError
  deriving DecidableEq, Repr

/-- The CAE's state: every register, buffer and hidden bit of 10_state.md R43, the reset input's level, the build
parameter SIZE_TABLE, and two fields of the model's own (`pending`, `resp`). -/
structure State where
  /-- CTRL (10_state.md R24). -/
  ctrl : Ctrl
  /-- STATUS (10_state.md R25). BUSY with CMD is the command in flight (10_state.md R40). -/
  status : Status
  /-- CMD, the word last accepted (10_state.md R26). -/
  cmd : Word
  /-- PREFIX_LEN.LEN (10_state.md R29). -/
  prefixLen : Len
  /-- IN_LEN.LEN (10_state.md R29). -/
  inLen : Len
  /-- OUT_LEN.LEN (10_state.md R29). -/
  outLen : Len
  /-- RESULT (10_state.md R30). -/
  result : Word
  /-- PM_ACC, seen by the host as PM_ACC_LO and PM_ACC_HI (10_state.md R27). -/
  pmAcc : Acc
  /-- MOD, seen by the host as MOD_LO and MOD_HI (10_state.md R31). -/
  mod : Acc
  /-- The buffers PREFIX, IN and OUT (10_state.md R32), by window address. -/
  mem : Memory
  /-- ucf_snap, CTRL.UCF latched at acceptance (10_state.md R41). -/
  ucfSnap : Bool
  /-- The level of the reset input rst (70_reset_and_hazards.md R340; log 7). -/
  rst : Bool
  /-- SIZE_TABLE, fixed when the CAE is built (43_packer.md R210; log 5). No step changes it. -/
  sizeTable : Config.SizeTable
  /-- The model's own: what happens next, in order (20_memory.md R75; log 1). -/
  pending : List Event
  /-- The model's own: the response of the last host access (20_memory.md R60; log 8). -/
  resp : Option Response
  deriving DecidableEq, Repr

/-- Why a host access stops. Closed. -/
inductive Fault where
  /-- `raise BusError(a)` of 20_memory.md R62: raised by `memRead` and `memWrite` of Machine/Ops.lean for an unmapped,
  misaligned, wrongly sized or narrow register access (R66). The port turns it into the ERROR response and the CAE goes
  on with its state unchanged, so no step and no command ends in it. Safe (log 3). -/
  | busError (a : HostAddr)
  deriving DecidableEq, Repr

/-- Why a command has no meaning. Closed. -/
inductive Refusal where
  /-- The command has no meaning yet: raised by `exec`'s arm for it. No arm raises it in this model. Safe. -/
  | notModelled (mnemonic : String)
  deriving DecidableEq, Repr

/-- What a step or the meaning of a command answers. -/
abbrev Result := Host.Outcome State Fault Refusal

/-- The state after a hard or a soft reset (10_state.md R43, 70_reset_and_hazards.md R340): every value is the spec's.
The model's own fields hold nothing, and SIZE_TABLE is the spec's default (log 5). -/
def State.reset : State where
  ctrl := ⟨false, false⟩
  status := ⟨false, false, false, .ok, 0x00⟩
  cmd := 0x00000000
  prefixLen := 0
  inLen := 0
  outLen := 0
  result := 0x00000000
  pmAcc := 0x0000000001
  mod := 0x0000000000
  mem := []
  ucfSnap := false
  rst := false
  sizeTable := Config.defaultSizeTable
  pending := []
  resp := none

end Sys2Proof.Machine
end

