-- ==== Sys2Proof/Machine/Flags.lean ====
section
/-! DEFINITION. STATUS, CTRL and RESULT as words, the interrupt line, and the two writes of STATUS in a command's life:
acceptance and completion (10_state.md R24, R25, R30, R42; 40_command.md R120, R122; 60_exceptions.md R310, R313). -/

namespace Sys2Proof.Machine

/-- The 4-bit value of an error code (60_exceptions.md R310). -/
def errBits : ErrCode → BitVec 4
  | .ok => 0
  | .invalidCharacter => 1
  | .invalidLength => 2
  | .checksumMismatch => 3
  | .unsupportedSize => 4
  | .invalidType => 5
  | .padding => 6
  | .symbolRange => 7
  | .badParam => 8
  | .overflow => 9
  | .illegalCmd => 10

/-- One bit of a register word at place `i`. -/
def bitAt (b : Bool) (i : Nat) : Word := (BitVec.ofBool b).setWidth 32 <<< i

/-- CTRL as the host reads it: IE in bit 0, UCF in bit 1, SRST and the reserved bits 0 (10_state.md R24). -/
def ctrlWord (c : Ctrl) : Word := bitAt c.ie 0 ||| bitAt c.ucf 1

/-- STATUS as the host reads it: BUSY 0, DONE 1, BVIOL 2, ERR 11 to 8, OP 23 to 16, the rest 0 (10_state.md R25). -/
def statusWord (st : Status) : Word :=
  bitAt st.busy 0 ||| bitAt st.done 1 ||| bitAt st.bviol 2 |||
  (errBits st.err).setWidth 32 <<< 8 ||| st.op.setWidth 32 <<< 16

/-- RESULT for a version byte: VB in bits 7 to 0, TYPE = VB[5:3] in bits 10 to 8, SC = VB[2:0] in bits 14 to 12
(10_state.md R30, 40_command.md R125). -/
def resultWord (vb : Byte) : Word :=
  vb.setWidth 32 ||| (vb.extractLsb' 3 3).setWidth 32 <<< 8 ||| (vb.extractLsb' 0 3).setWidth 32 <<< 12

/-- The interrupt output: irq = STATUS.DONE & CTRL.IE (60_exceptions.md R313; log 20). -/
def State.irq (s : State) : Bool := s.status.done && s.ctrl.ie

/-- A host write of w to STATUS: it clears DONE where w[1] is 1 and BVIOL where w[2] is 1, nothing else
(10_state.md R25). -/
def clearStatus (st : Status) (w : Word) : Status :=
  { st with done := st.done && !w.getLsbD 1, bviol := st.bviol && !w.getLsbD 2 }

/-- `Accept(w)`: the word becomes the command in flight and ucf_snap latches CTRL.UCF (40_command.md R120,
10_state.md R41). -/
def accept (s : State) (w : Word) : State :=
  { s with
    cmd := w
    status := { s.status with busy := true, done := false, err := .ok, op := w.extractLsb' 0 8 }
    ucfSnap := s.ctrl.ucf }

/-- What completion writes in STATUS: ERR <- code, BUSY <- 0, DONE <- 1 (40_command.md R122). -/
def completeWith (s : State) (code : ErrCode) : State :=
  { s with status := { s.status with err := code, busy := false, done := true } }

/-- The busy filter's mark on a refused access: BVIOL <- 1 (20_memory.md R67). -/
def markViolation (s : State) : State := { s with status := { s.status with bviol := true } }

end Sys2Proof.Machine
end

