-- ==== Sys2Proof/Machine/Map.lean ====
section
/-! DEFINITION. Where things stand in the host window: the regions (20_memory.md R61) and the registers' offsets
(10_state.md R22). -/

namespace Sys2Proof.Machine

/-- The first address of the PREFIX buffer (20_memory.md R61). -/
abbrev prefixBase : Nat := 0x100

/-- The first address after the PREFIX buffer: the reserved region starts (20_memory.md R61). -/
abbrev prefixEnd : Nat := 0x140

/-- The first address of the IN buffer (20_memory.md R61). -/
abbrev inBase : Nat := 0x200

/-- The first address of the OUT buffer (20_memory.md R61). -/
abbrev outBase : Nat := 0x300

/-- The first unmapped address (20_memory.md R61). -/
abbrev unmappedBase : Nat := 0x400

/-- ID's constant: "CAE" and version 0x01 (10_state.md R23). -/
def idValue : Word := 0x43414501

/-- The registers of 10_state.md R22. -/
inductive Reg where
  | id | ctrl | status | cmd | prefixLen | inLen | outLen | result
  | pmAccLo | pmAccHi | pmResLo | pmResHi | modLo | modHi
  deriving DecidableEq, Repr

/-- The registers with their offsets (10_state.md R22). -/
def regTable : List (Nat × Reg) :=
  [ (0x000, .id), (0x004, .ctrl), (0x008, .status), (0x00C, .cmd), (0x010, .prefixLen), (0x014, .inLen),
    (0x018, .outLen), (0x01C, .result), (0x020, .pmAccLo), (0x024, .pmAccHi), (0x028, .pmResLo), (0x02C, .pmResHi),
    (0x030, .modLo), (0x034, .modHi) ]

/-- The register at an offset of the register region, none at a reserved offset (10_state.md R22). -/
def regAt (off : Nat) : Option Reg := (regTable.find? (fun x => x.1 == off)).map Prod.snd

end Sys2Proof.Machine
end

