-- ==== Sys2Proof/Machine/Ops.lean ====
section
/-! DEFINITION. The shared operations: the buffers' memory, the host port (20_memory.md R62), reset
(70_reset_and_hazards.md R340, R341), and what a completing command writes in OUT, RESULT and MOD
(40_command.md R124 to R126). The CAE has no exception entry and no return from one (60_exceptions.md R315, R317): a
failing command is `completeWith` with its code, a failing access is `Fault.busError`. -/

namespace Sys2Proof.Machine

/-! ### The buffers' memory -/

/-- What an unlisted address of the memory reads as: the buffers' reset value 0x00 (10_state.md R32, R43; log 9). -/
def unlistedByte : Byte := 0x00

/-- The canonical form: addresses strictly rising, no listed byte equal to an unlisted one. -/
abbrev Memory.wf (m : Memory) : Prop :=
  m.Pairwise (fun x y => x.1 < y.1) ∧ ∀ c ∈ m, c.2 ≠ unlistedByte

/-- An address inside one of the three buffers (20_memory.md R61). -/
def isBufferAddr (a : Nat) : Bool :=
  (decide (prefixBase ≤ a) && decide (a < prefixEnd)) || (decide (inBase ≤ a) && decide (a < unmappedBase))

/-- The memory lists bytes of the three buffers only (10_state.md R32). -/
abbrev Memory.mapped (m : Memory) : Prop := ∀ c ∈ m, isBufferAddr c.1 = true

/-- One byte of the memory. -/
def Memory.read (m : Memory) (a : Nat) : Byte :=
  match m with
  | [] => unlistedByte
  | (a', b) :: rest => if a' = a then b else Memory.read rest a

/-- The cells that hold `bs` at rising addresses from `base`, the unlisted byte left out. -/
def cellsOf (base : Nat) (bs : List Byte) : Memory :=
  match bs with
  | [] => []
  | b :: rest => if b = unlistedByte then cellsOf (base + 1) rest else (base, b) :: cellsOf (base + 1) rest

/-- The memory with `bs` stored from `base` up, every other byte as it was. -/
def Memory.store (m : Memory) (base : Nat) (bs : List Byte) : Memory :=
  m.filter (fun c => decide (c.1 < base)) ++ cellsOf base bs ++
    m.filter (fun c => decide (base + bs.length ≤ c.1))

/-- The `n` bytes from `base` up. -/
def Memory.load (m : Memory) (base n : Nat) : List Byte :=
  match n with
  | 0 => []
  | n + 1 => m.read base :: Memory.load m (base + 1) n

/-! ### Byte order -/

/-- Bytes read least significant first (20_memory.md R63), as a word. -/
def leWord (bs : List Byte) : Word :=
  match bs with
  | [] => 0
  | b :: rest => b.setWidth 32 ||| leWord rest <<< 8

/-- The low `n` bytes of a word, least significant first: byte k is v[8k+7:8k] (20_memory.md R62, R63). -/
def leBytes (n : Nat) (v : Word) : List Byte :=
  match n with
  | 0 => []
  | n + 1 => v.extractLsb' 0 8 :: leBytes n (v >>> 8)

/-! ### Reset -/

/-- Every item of 10_state.md R43 at its reset value (70_reset_and_hazards.md R340, R341). The level of rst, the build
parameter SIZE_TABLE (92_eei_decisions.md D23) and the model's own fields are not among them. -/
def resetCore (s : State) : State :=
  { State.reset with rst := s.rst, sizeTable := s.sizeTable, pending := s.pending, resp := s.resp }

/-! ### Registers -/

/-- The value of a register as the host reads it, reserved bits 0 (10_state.md R22 to R31). -/
def readReg (s : State) (r : Reg) : Word :=
  match r with
  | .id => idValue
  | .ctrl => ctrlWord s.ctrl
  | .status => statusWord s.status
  | .cmd => s.cmd
  | .prefixLen => s.prefixLen.setWidth 32
  | .inLen => s.inLen.setWidth 32
  | .outLen => s.outLen.setWidth 32
  | .result => s.result
  | .pmAccLo => s.pmAcc.extractLsb' 0 32
  | .pmAccHi => (s.pmAcc.extractLsb' 32 8).setWidth 32
  | .pmResLo => (s.pmAcc ^^^ 1).extractLsb' 0 32
  | .pmResHi => ((s.pmAcc ^^^ 1).extractLsb' 32 8).setWidth 32
  | .modLo => s.mod.extractLsb' 0 32
  | .modHi => (s.mod.extractLsb' 32 8).setWidth 32

/-- A host write to CTRL: IE <- v[0], UCF <- v[1], and a soft reset where v[2] is 1, which loses both
(20_memory.md R62, 10_state.md R24, 70_reset_and_hazards.md R341). -/
def writeCtrl (s : State) (v : Word) : State :=
  if v.getLsbD 2 then resetCore s
  else { s with ctrl := ⟨v.getLsbD 0, v.getLsbD 1⟩ }

/-- A host write to a register (20_memory.md R62 `CsrWrite`): RO registers ignore it (10_state.md R22). -/
def writeReg (s : State) (r : Reg) (v : Word) : State :=
  match r with
  | .ctrl => writeCtrl s v
  | .status => { s with status := clearStatus s.status v }
  | .cmd => accept s v
  | .prefixLen => { s with prefixLen := v.extractLsb' 0 16 }
  | .inLen => { s with inLen := v.extractLsb' 0 16 }
  | .pmAccLo => { s with pmAcc := s.pmAcc.extractLsb' 32 8 ++ v }
  | .pmAccHi => { s with pmAcc := v.extractLsb' 0 8 ++ s.pmAcc.extractLsb' 0 32 }
  | .id | .outLen | .result | .pmResLo | .pmResHi | .modLo | .modHi => s

/-- `CsrRead(a)`: the register at the offset, 0 at a reserved offset (20_memory.md R62, R68). -/
def csrRead (s : State) (off : Nat) : Word :=
  match regAt off with
  | some r => readReg s r
  | none => 0

/-- `CsrWrite(a, v)`: the register at the offset, no effect at a reserved offset (20_memory.md R62, R68). -/
def csrWrite (s : State) (off : Nat) (v : Word) : State :=
  match regAt off with
  | some r => writeReg s r v
  | none => s

/-! ### The host port -/

/-- n is a size the port has (20_memory.md R60). -/
def isAccessSize (n : Nat) : Bool := n == 1 || n == 2 || n == 4

/-- The three BusError checks in the order of 20_memory.md R62: unmapped (R66), size or alignment (R64), narrow register
access (R65). -/
def raisesBusError (a : HostAddr) (n : Nat) : Bool :=
  decide (unmappedBase ≤ a.toNat) || (!isAccessSize n || a.toNat % n != 0) ||
    (decide (a.toNat < prefixBase) && n != 4)

/-- ID, CTRL and STATUS stay open while BUSY = 1 (20_memory.md R67). -/
def openWhileBusy (a : HostAddr) : Bool := a == 0x000 || a == 0x004 || a == 0x008

/-- The busy filter refuses an access (20_memory.md R67). -/
def busyRefuses (s : State) (a : HostAddr) : Bool := s.status.busy && !openWhileBusy a

/-- The data of a read that passed every check, by region (20_memory.md R62). -/
def regionRead (s : State) (a : HostAddr) (n : Nat) : Word :=
  if a.toNat < prefixBase then csrRead s a.toNat
  else if a.toNat < prefixEnd then leWord (s.mem.load a.toNat n)
  else if a.toNat < inBase then 0
  else leWord (s.mem.load a.toNat n)

/-- The effect of a write that passed every check, by region (20_memory.md R62, R68, R69). -/
def regionWrite (s : State) (a : HostAddr) (n : Nat) (v : Word) : State :=
  if a.toNat < prefixBase then csrWrite s a.toNat v
  else if a.toNat < prefixEnd then { s with mem := s.mem.store a.toNat (leBytes n v) }
  else if a.toNat < inBase then s
  else if a.toNat < outBase then { s with mem := s.mem.store a.toNat (leBytes n v) }
  else s

/-- `MemRead(a, n)`: the data and the state after it, or BusError (20_memory.md R62). -/
def memRead (s : State) (a : HostAddr) (n : Nat) : Except Fault (Word × State) :=
  if raisesBusError a n then .error (.busError a)
  else if busyRefuses s a then .ok (0, markViolation s)
  else .ok (regionRead s a n, s)

/-- `MemWrite(a, n, v)`: the state after it, or BusError (20_memory.md R62). -/
def memWrite (s : State) (a : HostAddr) (n : Nat) (v : Word) : Except Fault State :=
  if raisesBusError a n then .error (.busError a)
  else if busyRefuses s a then .ok (markViolation s)
  else .ok (regionWrite s a n v)

/-- The access is performed and its response given (20_memory.md R60): ERROR where it raises BusError, with the CAE's
state as it was (R66; log 3). -/
def performAccess (s : State) (h : HostAccess) : State :=
  match h with
  | .read a n =>
    match memRead s a n with
    | .ok (v, s') => { s' with resp := some (.data v) }
    | .error (.busError _) => { s with resp := some .busError }
  | .write a n v =>
    match memWrite s a n v with
    | .ok s' => { s' with resp := some .done }
    | .error (.busError _) => { s with resp := some .busError }

/-- A host access at the port. While rst is asserted the CAE responds to none: it has no effect and no response
(70_reset_and_hazards.md R340; log 7). -/
def portAccess (s : State) (h : HostAccess) : State :=
  if s.rst then { s with resp := none } else performAccess s h

/-- rst becomes asserted: the state is the reset state from then on (70_reset_and_hazards.md R340, R342; log 7). -/
def assertReset (s : State) : State := { resetCore s with rst := true }

/-- rst is released: the state is that of 10_state.md R43 (70_reset_and_hazards.md R340). -/
def releaseReset (s : State) : State := { resetCore s with rst := false }

/-! ### What a completing command writes -/

/-- The OVERFLOW check of `WriteOut`, made on a result that is otherwise complete (40_command.md R124, R130). -/
def settleOut (r : Except ErrCode (List Byte)) : Except ErrCode (List Byte) :=
  match r with
  | .ok bs => if Config.outCap < bs.length then .error .overflow else .ok bs
  | .error e => .error e

/-- The error code of a result, OK for a success (40_command.md R122). -/
def codeOf {α : Type} (r : Except ErrCode α) : ErrCode :=
  match r with
  | .ok _ => .ok
  | .error e => e

/-- The bytes a settled result leaves in OUT: its own, or none (40_command.md R124). -/
def outBytesOf (r : Except ErrCode (List Byte)) : List Byte :=
  match r with
  | .ok bs => bs
  | .error _ => []

/-- `WriteOut(r)` for a settled result: OUT holds its bytes and then 0x00 to the end, OUT_LEN their number; a failure
leaves OUT all zero and OUT_LEN 0 (40_command.md R124). -/
def writeOut (s : State) (r : Except ErrCode (List Byte)) : State :=
  { s with
    mem := s.mem.store outBase
      (outBytesOf r ++ List.replicate (Config.outCap - (outBytesOf r).length) 0x00)
    outLen := BitVec.ofNat 16 (outBytesOf r).length }

/-- The RESULT rule: the version byte's fields where the command succeeds, else 0 (40_command.md R125). -/
def writeResult (s : State) (code : ErrCode) (vb : Byte) : State :=
  { s with result := if code = .ok then resultWord vb else 0 }

/-- The MOD rule: the PolyMod value the command computed, or 0 if it computed none (40_command.md R126). -/
def writeMod (s : State) (m : Option Acc) : State := { s with mod := m.getD 0 }

/-- An illegal word completes with ILLEGAL_CMD and no other effect (30_encoding.md R97, 40_command.md R122, R128). -/
def completeIllegal (s : State) : State := completeWith s .illegalCmd

end Sys2Proof.Machine
end

