-- ==== Sys2Proof/Machine/Operands.lean ====
section
/-! DEFINITION. The operands a command takes from the state: the buffers up to their lengths (10_state.md R33), the
length checks (40_command.md R123), and bytes read as symbols (20_memory.md R70). -/

namespace Sys2Proof.Machine

/-- IN[0..IN_LEN) (10_state.md R33). -/
def inBytes (s : State) : List Byte := s.mem.load inBase s.inLen.toNat

/-- PREFIX[0..PREFIX_LEN) (10_state.md R33). -/
def prefixBytes (s : State) : List Byte := s.mem.load prefixBase s.prefixLen.toNat

/-- IN_LEN > 256, which fails BAD_PARAM (40_command.md R123). -/
def inLenBad (s : State) : Bool := decide (Config.inCap < s.inLen.toNat)

/-- PREFIX_LEN > 64, which fails BAD_PARAM (40_command.md R123). -/
def prefixLenBad (s : State) : Bool := decide (Config.prefixCap < s.prefixLen.toNat)

/-- Bytes read as symbols: SYMBOL_RANGE where one is 32 or more (20_memory.md R70). -/
def readSymbols (bs : List Byte) : Except ErrCode (List Symbol) :=
  if bs.all (fun b => decide (b.toNat < 32)) then .ok (bs.map (fun b => b.setWidth 5))
  else .error .symbolRange

/-- A symbol stored in a byte: bits 4 to 0, bits 7 to 5 zero (20_memory.md R70). -/
def symbolByte (d : Symbol) : Byte := d.setWidth 8

end Sys2Proof.Machine
end

