-- ==== Sys2Proof/Machine/Base32.lean ====
section
/-! DEFINITION. The base32 alphabet: Map and Unmap (45_base32.md R250 to R252) and the commands B32_MAP and B32_UNMAP
(R253, R254). -/

namespace Sys2Proof.Machine

/-- ALPHABET, the ASCII codes of "qpzry9x8gf2tvdw0s3jn54khce6mua7l" (45_base32.md R250). -/
def alphabet : List Byte :=
  [ 0x71, 0x70, 0x7a, 0x72, 0x79, 0x39, 0x78, 0x38,
    0x67, 0x66, 0x32, 0x74, 0x76, 0x64, 0x77, 0x30,
    0x73, 0x33, 0x6a, 0x6e, 0x35, 0x34, 0x6b, 0x68,
    0x63, 0x65, 0x36, 0x6d, 0x75, 0x61, 0x37, 0x6c ]

/-- Map(k) = ALPHABET[k] (45_base32.md R251). -/
def mapSymbol (k : Symbol) : Byte := alphabet.getD k.toNat 0x00

/-- The place of a byte in a list counted from `k`, none where it does not stand there. -/
def placeOf (b : Byte) (k : Nat) (bs : List Byte) : Option Nat :=
  match bs with
  | [] => none
  | x :: rest => if x = b then some k else placeOf b (k + 1) rest

/-- The k with b = ALPHABET[k] (45_base32.md R252). -/
def alphabetPlace (b : Byte) : Option Symbol := (placeOf b 0 alphabet).map (BitVec.ofNat 5)

/-- An ASCII uppercase letter, 'A' to 'Z' (45_base32.md R252). -/
def isUpper (b : Byte) : Bool := decide (0x41 ≤ b.toNat) && decide (b.toNat ≤ 0x5A)

/-- Unmap(b, u) (45_base32.md R252). -/
def unmapByte (u : Bool) (b : Byte) : Option Symbol :=
  match alphabetPlace b with
  | some k => some k
  | none => if u && isUpper b then alphabetPlace (b ||| 0x20) else none

/-- Unmap of every byte, none where one is not in the alphabet (45_base32.md R254, 46_codec.md R273 step 3). -/
def unmapAll (u : Bool) (bs : List Byte) : Option (List Symbol) :=
  match bs with
  | [] => some []
  | b :: rest =>
    match unmapByte u b, unmapAll u rest with
    | some k, some ks => some (k :: ks)
    | _, _ => none

/-- B32_MAP's result r (45_base32.md R253). -/
def b32MapValue (s : State) : Except ErrCode (List Byte) :=
  if inLenBad s then .error .badParam
  else (readSymbols (inBytes s)).map (fun ds => ds.map mapSymbol)

/-- B32_MAP: OUT gets the characters of IN's symbols (45_base32.md R253). -/
def execB32Map (s : State) : Result :=
  let r := settleOut (b32MapValue s)
  .next (completeWith (writeOut s r) (codeOf r))

/-- B32_UNMAP's result r, with the fold bit ucf_snap (45_base32.md R254). -/
def b32UnmapValue (s : State) : Except ErrCode (List Byte) :=
  if inLenBad s then .error .badParam
  else
    match unmapAll s.ucfSnap (inBytes s) with
    | none => .error .invalidCharacter
    | some ds => .ok (ds.map symbolByte)

/-- B32_UNMAP: OUT gets the symbols of IN's characters (45_base32.md R254). -/
def execB32Unmap (s : State) : Result :=
  let r := settleOut (b32UnmapValue s)
  .next (completeWith (writeOut s r) (codeOf r))

end Sys2Proof.Machine
end

