-- ==== Sys2Proof/Machine/PolyMod.lean ====
section
/-! DEFINITION. The PolyMod checksum engine: the functions PolyStep and PolyMod (41_polymod.md R150 to R153) and the
commands PM_INIT, PM_STEP and PM_RUN (R154 to R156). -/

namespace Sys2Proof.Machine

/-- The generator table GEN, GEN[0] first (41_polymod.md R150). -/
def genTable : List Acc := [0x98f2bc8e61, 0x79b76d99e2, 0xf33e5fb3c4, 0xae2eabe2a8, 0x1e4f43e470]

/-- For each bit of c0 from bit i up, XOR c with that bit's generator where the bit is 1 (41_polymod.md R151). -/
def applyGenerators (c0 : Acc) (i : Nat) (gens : List Acc) (c : Acc) : Acc :=
  match gens with
  | [] => c
  | g :: rest => applyGenerators c0 (i + 1) rest (if c0.getLsbD i then c ^^^ g else c)

/-- PolyStep(c, d), one step of the accumulator (41_polymod.md R151). -/
def polyStep (c : Acc) (d : Symbol) : Acc :=
  applyGenerators (c >>> 35) 0 genTable (((c &&& 0x07ffffffff) <<< 5) ^^^ d.setWidth 40)

/-- The accumulator stepped over symbols in order (41_polymod.md R152, R156). -/
def polyFold (c : Acc) (ds : List Symbol) : Acc := ds.foldl polyStep c

/-- PolyMod(s) (41_polymod.md R152). -/
def polyMod (ds : List Symbol) : Acc := polyFold 1 ds ^^^ 1

/-- PM_INIT: PM_ACC <- 1 (41_polymod.md R154). -/
def execPmInit (s : State) : Result := .next (completeWith { s with pmAcc := 1 } .ok)

/-- PM_STEP: PM_ACC <- PolyStep(PM_ACC, SYM) (41_polymod.md R155). -/
def execPmStep (sym : Nat) (s : State) : Result :=
  .next (completeWith { s with pmAcc := polyStep s.pmAcc (BitVec.ofNat 5 sym) } .ok)

/-- The accumulator PM_RUN computes, or the check of the input that fails (41_polymod.md R156). -/
def pmRunValue (s : State) : Except ErrCode Acc :=
  if inLenBad s then .error .badParam
  else
    match readSymbols (inBytes s) with
    | .error e => .error e
    | .ok ds => .ok (polyFold s.pmAcc ds)

/-- PM_ACC written on success only (41_polymod.md R156, 40_command.md R128). -/
def writePmAcc (s : State) (r : Except ErrCode Acc) : State :=
  match r with
  | .ok c => { s with pmAcc := c }
  | .error _ => s

/-- PM_RUN: PM_ACC steps over IN, all or nothing (41_polymod.md R156). -/
def execPmRun (s : State) : Result :=
  .next (completeWith (writePmAcc s (pmRunValue s)) (codeOf (pmRunValue s)))

end Sys2Proof.Machine
end

