-- ==== Sys2Proof/Machine/Checksum.lean ====
section
/-! DEFINITION. The checksum assembler: Expand and ChecksumDigits (44_checksum.md R230, R231) and the command CHECKSUM
(R233). -/

namespace Sys2Proof.Machine

/-- Expand(q): each byte's low 5 bits, then one zero symbol (44_checksum.md R230). -/
def expandPrefix (q : List Byte) : List Symbol := q.map (fun b => b.setWidth 5) ++ [0]

/-- The PolyMod value m of ChecksumDigits: over Expand(q), s and eight zeros (44_checksum.md R231). -/
def checksumValue (q : List Byte) (ds : List Symbol) : Acc :=
  polyMod (expandPrefix q ++ ds ++ List.replicate 8 0)

/-- The eight digits of m, most significant first: digit i is (m >> 5(7 - i)) & 0x1f (44_checksum.md R231). -/
def digitsOf (m : Acc) : List Symbol := (List.range 8).map (fun i => m.extractLsb' (5 * (7 - i)) 5)

/-- CHECKSUM's value m, or its error (44_checksum.md R233). -/
def checksumCommand (s : State) : Except ErrCode Acc :=
  if inLenBad s || prefixLenBad s then .error .badParam
  else (readSymbols (inBytes s)).map (fun ds => checksumValue (prefixBytes s) ds)

/-- The value a result carries, for MOD (40_command.md R126). -/
def valueOf (r : Except ErrCode Acc) : Option Acc :=
  match r with
  | .ok m => some m
  | .error _ => none

/-- CHECKSUM: OUT gets the eight digits of m, MOD gets m, or 0 on failure (44_checksum.md R233). -/
def execChecksum (s : State) : Result :=
  let c := checksumCommand s
  let r := settleOut (c.map (fun m => (digitsOf m).map symbolByte))
  .next (completeWith (writeOut (writeMod s (valueOf c)) r) (codeOf r))

end Sys2Proof.Machine
end

