-- ==== Sys2Proof/Machine/Repacker.lean ====
section
/-! DEFINITION. The bit repacker: the function ConvertBits (42_repacker.md R180 to R183, with the no-pad rule of
90_conflicts.md C1) and the command CB_RUN (R184). -/

namespace Sys2Proof.Machine

/-- The emission loop of ConvertBits: while bits >= t, emit the group below the top of the accumulator and take t off
bits (42_repacker.md R180). It answers the groups and the bits left; `fuel` bounds the rounds. -/
def emitGroups (t acc fuel bits : Nat) : List Nat × Nat :=
  match fuel with
  | 0 => ([], bits)
  | fuel + 1 =>
    if t ≤ bits then
      (((acc >>> (bits - t)) &&& ((1 <<< t) - 1)) :: (emitGroups t acc fuel (bits - t)).1,
        (emitGroups t acc fuel (bits - t)).2)
    else ([], bits)

/-- The accumulator after a unit enters it: ((acc << f) | x) & maxacc (42_repacker.md R180). -/
def pushUnit (f t acc x : Nat) : Nat := ((acc <<< f) ||| x) &&& ((1 <<< (f + t - 1)) - 1)

/-- The loop of ConvertBits over the units: the groups emitted, then acc and bits at its end (42_repacker.md R180).
A unit adds f bits, so f rounds of emission and what was left over are never more than bits rounds. -/
def convertLoop (f t : Nat) (u : List Nat) (acc bits : Nat) : List Nat × Nat × Nat :=
  match u with
  | [] => ([], acc, bits)
  | x :: rest =>
    let acc' := pushUnit f t acc x
    let e := emitGroups t acc' (bits + f) (bits + f)
    let r := convertLoop f t rest acc' e.2
    (e.1 ++ r.1, r.2)

/-- What follows the loop: the pad group, or the canonical-padding check (42_repacker.md R180, R182). -/
def finishConvert (f t : Nat) (pad : Bool) (out : List Nat) (acc bits : Nat) : Except ErrCode (List Nat) :=
  if pad then
    if bits ≠ 0 then .ok (out ++ [(acc <<< (t - bits)) &&& ((1 <<< t) - 1)]) else .ok out
  else
    if f ≤ bits ∨ (acc <<< (t - bits)) &&& ((1 <<< t) - 1) ≠ 0 then .error .padding else .ok out

/-- ConvertBits(f, t, pad, u) for widths 1 to 8 (42_repacker.md R180, R183; log 21 for other widths, which no command
passes). -/
def convertBits (f t : Nat) (pad : Bool) (u : List Nat) : Except ErrCode (List Nat) :=
  if u.any (fun x => x >>> f != 0) then .error .symbolRange
  else
    let r := convertLoop f t u 0 0
    finishConvert f t pad r.1 r.2.1 r.2.2

/-- A width CB_RUN accepts: 1 to 8 (00_scope.md R8, CB_WIDTH_RANGE; 30_encoding.md R98). -/
def isCbWidth (w : Nat) : Bool := decide (1 ≤ w) && decide (w ≤ 8)

/-- A list of units, each in a byte of its own (20_memory.md R70). -/
def unitBytes (us : List Nat) : List Byte := us.map (BitVec.ofNat 8)

/-- CB_RUN's result r (42_repacker.md R184). -/
def cbRunValue (f t : Nat) (pad : Bool) (s : State) : Except ErrCode (List Byte) :=
  if inLenBad s then .error .badParam
  else if !isCbWidth f || !isCbWidth t then .error .badParam
  else (convertBits f t pad ((inBytes s).map BitVec.toNat)).map unitBytes

/-- CB_RUN: OUT gets the converted units of IN (42_repacker.md R184). -/
def execCbRun (f t : Nat) (pad : Bool) (s : State) : Result :=
  let r := settleOut (cbRunValue f t pad s)
  .next (completeWith (writeOut s r) (codeOf r))

end Sys2Proof.Machine
end

