-- ==== Sys2Proof/Machine/Packer.lean ====
section
/-! DEFINITION. The payload packer: SizeClass, VersionByte and Pack (43_packer.md R210 to R212) and the command PACK
(R214). -/

namespace Sys2Proof.Machine

/-- SizeClass(L): the class c with SIZE_TABLE[c] = L, or none (43_packer.md R210). A valid table has at most one such
class; the search answers the least (log 6). -/
def sizeClass (st : Config.SizeTable) (len : Nat) : Option (Fin 8) :=
  (List.finRange 8).find? (fun c => st[c] == some len)

/-- VersionByte(type, c) = (type << 3) | c (43_packer.md R211). -/
def versionByte (ty : Nat) (c : Fin 8) : Byte := BitVec.ofNat 8 ((ty <<< 3) ||| c.val)

/-- Units of 5 bits as symbols. -/
def unitSymbols (us : List Nat) : List Symbol := us.map (BitVec.ofNat 5)

/-- Pack(p, type): the packed symbols and the version byte (43_packer.md R212). -/
def packPayload (st : Config.SizeTable) (p : List Byte) (ty : Nat) : Except ErrCode (List Symbol × Byte) :=
  if 7 < ty then .error .invalidType
  else
    match sizeClass st p.length with
    | none => .error .unsupportedSize
    | some c =>
      match convertBits 8 5 true ((versionByte ty c :: p).map BitVec.toNat) with
      | .error e => .error e
      | .ok us => .ok (unitSymbols us, versionByte ty c)

/-- The version byte a result carries, 0 for a failure, which RESULT does not use (40_command.md R125). -/
def versionOf {α : Type} (r : Except ErrCode (α × Byte)) : Byte :=
  match r with
  | .ok (_, vb) => vb
  | .error _ => 0

/-- PACK's symbols and version byte, or its error (43_packer.md R214). -/
def packValue (ty : Nat) (s : State) : Except ErrCode (List Symbol × Byte) :=
  if inLenBad s then .error .badParam else packPayload s.sizeTable (inBytes s) ty

/-- PACK: OUT gets the packed symbols, RESULT the version byte's fields (43_packer.md R214). -/
def execPack (ty : Nat) (s : State) : Result :=
  let p := packValue ty s
  let r := settleOut (p.map (fun x => x.1.map symbolByte))
  .next (completeWith (writeResult (writeOut s r) (codeOf r) (versionOf p)) (codeOf r))

end Sys2Proof.Machine
end

