-- ==== Sys2Proof/Machine/Codec.lean ====
section
/-! DEFINITION. The address codec: Encode (46_codec.md R270), Decode (R273 to R276) and the commands ENCODE and DECODE
(R272, R277). -/

namespace Sys2Proof.Machine

/-- What Encode or Decode answers: bytes with the version byte, or an error; and the PolyMod value where the function
reached it (46_codec.md R270, R273; 40_command.md R126). -/
structure CodecOutcome where
  /-- The bytes and the version byte, or the error. -/
  value : Except ErrCode (List Byte × Byte)
  /-- The m the function computed, if it did. -/
  polyValue : Option Acc
  deriving Repr

/-- ':' (46_codec.md R270). -/
def colon : Byte := 0x3A

/-- Encode(q, p, type) (46_codec.md R270). -/
def encodeAddress (st : Config.SizeTable) (q p : List Byte) (ty : Nat) : CodecOutcome :=
  match packPayload st p ty with
  | .error e => ⟨.error e, none⟩
  | .ok (ds, vb) =>
    let m := checksumValue q ds
    ⟨.ok (q ++ [colon] ++ (ds ++ digitsOf m).map mapSymbol, vb), some m⟩

/-- The bytes before and after the last ':' (46_codec.md R273 step 1, R274). -/
def splitLastColon (a : List Byte) : Option (List Byte × List Byte) :=
  match a with
  | [] => none
  | b :: rest =>
    match splitLastColon rest with
    | some (q, t) => some (b :: q, t)
    | none => if b = colon then some ([], rest) else none

/-- Step 1: the prefix and the data part, with the default prefix where the address has no ':' (46_codec.md R273,
R274). -/
def resolvePrefix (a dq : List Byte) : Except ErrCode (List Byte × List Byte) :=
  match splitLastColon a with
  | some (q, t) => .ok (q, t)
  | none => if 0 < dq.length then .ok (dq, a) else .error .invalidCharacter

/-- An ASCII letter or digit (46_codec.md R273 step 2). -/
def isAlnum (b : Byte) : Bool :=
  (decide (0x30 ≤ b.toNat) && decide (b.toNat ≤ 0x39)) ||
  (decide (0x41 ≤ b.toNat) && decide (b.toNat ≤ 0x5A)) ||
  (decide (0x61 ≤ b.toNat) && decide (b.toNat ≤ 0x7A))

/-- b | 0x20 for an uppercase letter, b for any other byte (46_codec.md R273 step 2). -/
def lowerByte (b : Byte) : Byte := if isUpper b then b ||| 0x20 else b

/-- Step 2: the prefix is not empty and alphanumeric, and is lowercased (46_codec.md R273, R274). -/
def checkPrefix (q : List Byte) : Except ErrCode (List Byte) :=
  if q.length = 0 then .error .invalidCharacter
  else if q.all isAlnum then .ok (q.map lowerByte)
  else .error .invalidCharacter

/-- Step 7: the version byte and the payload (46_codec.md R273, R276). The empty sequence, which step 6 never gives,
counts as a length that fits no class (log 12). -/
def splitVersion (st : Config.SizeTable) (bytes : List Byte) : Except ErrCode (List Byte × Byte) :=
  match bytes with
  | [] => .error .invalidLength
  | vb :: payload =>
    if vb.extractLsb' 6 2 ≠ 0 then .error .invalidType
    else if st[(vb.extractLsb' 0 3).toFin] = some payload.length then .ok (payload, vb)
    else .error .invalidLength

/-- Steps 6 and 7: the symbols less the eight checksum digits, repacked and split (46_codec.md R273). -/
def unpackSymbols (st : Config.SizeTable) (ds : List Symbol) : Except ErrCode (List Byte × Byte) :=
  match convertBits 5 8 false ((ds.take (ds.length - 8)).map BitVec.toNat) with
  | .error _ => .error .invalidLength
  | .ok us => splitVersion st (unitBytes us)

/-- Steps 4 to 7, from the lowercased prefix and the data symbols (46_codec.md R273). -/
def decodeSymbols (st : Config.SizeTable) (q : List Byte) (ds : List Symbol) : CodecOutcome :=
  if ds.length < 9 then ⟨.error .invalidLength, none⟩
  else
    let m := polyMod (expandPrefix q ++ ds)
    if m ≠ 0 then ⟨.error .checksumMismatch, some m⟩
    else ⟨unpackSymbols st ds, some m⟩

/-- Decode(a, dq, u) (46_codec.md R273). -/
def decodeAddress (st : Config.SizeTable) (a dq : List Byte) (u : Bool) : CodecOutcome :=
  match resolvePrefix a dq with
  | .error e => ⟨.error e, none⟩
  | .ok (q, t) =>
    match checkPrefix q with
    | .error e => ⟨.error e, none⟩
    | .ok q' =>
      match unmapAll u t with
      | none => ⟨.error .invalidCharacter, none⟩
      | some ds => decodeSymbols st q' ds

/-- ENCODE's outcome (46_codec.md R272). -/
def encodeCommand (ty : Nat) (s : State) : CodecOutcome :=
  if inLenBad s || prefixLenBad s then ⟨.error .badParam, none⟩
  else encodeAddress s.sizeTable (prefixBytes s) (inBytes s) ty

/-- ENCODE: OUT gets the address string, RESULT the version byte's fields, MOD the PolyMod value (46_codec.md R272). -/
def execEncode (ty : Nat) (s : State) : Result :=
  let c := encodeCommand ty s
  let r := settleOut (c.value.map Prod.fst)
  .next (completeWith (writeResult (writeOut (writeMod s c.polyValue) r) (codeOf r) (versionOf c.value)) (codeOf r))

/-- DECODE's outcome, with the fold bit ucf_snap (46_codec.md R277). -/
def decodeCommand (s : State) : CodecOutcome :=
  if inLenBad s || prefixLenBad s then ⟨.error .badParam, none⟩
  else decodeAddress s.sizeTable (inBytes s) (prefixBytes s) s.ucfSnap

/-- DECODE: OUT gets the payload, RESULT the version byte's fields, MOD the PolyMod value (46_codec.md R277). -/
def execDecode (s : State) : Result :=
  let c := decodeCommand s
  let r := settleOut (c.value.map Prod.fst)
  .next (completeWith (writeResult (writeOut (writeMod s c.polyValue) r) (codeOf r) (versionOf c.value)) (codeOf r))

end Sys2Proof.Machine
end

