-- ==== Sys2Proof/Machine/Nop.lean ====
section
/-! DEFINITION. NOP (40_command.md R127). -/

namespace Sys2Proof.Machine

/-- NOP completes with ERR = 0 and no effect (40_command.md R127). -/
def execNop (s : State) : Result := .next (completeWith s .ok)

end Sys2Proof.Machine
end

