-- ==== Sys2Proof/Machine/Dispatch.lean ====
section
/-! DEFINITION. Which meaning a command has: one arm per constructor of Instr (40_command.md R122 Exec). -/

namespace Sys2Proof.Machine

/-- The completion of a command at a state: its effect and what completion writes in STATUS (40_command.md R122). -/
def exec (i : Instr) (s : State) : Host.Outcome State Fault Refusal :=
  match i with
  | .nop => Sys2Proof.Machine.execNop s
  | .pmInit => Sys2Proof.Machine.execPmInit s
  | .pmStep sym => Sys2Proof.Machine.execPmStep sym s
  | .pmRun => Sys2Proof.Machine.execPmRun s
  | .cbRun f t pad => Sys2Proof.Machine.execCbRun f t pad s
  | .b32Map => Sys2Proof.Machine.execB32Map s
  | .b32Unmap => Sys2Proof.Machine.execB32Unmap s
  | .pack ty => Sys2Proof.Machine.execPack ty s
  | .checksum => Sys2Proof.Machine.execChecksum s
  | .encode ty => Sys2Proof.Machine.execEncode ty s
  | .decode => Sys2Proof.Machine.execDecode s

end Sys2Proof.Machine
end

