-- ==== Sys2Proof/Machine/Engine.lean ====
section
/-! DEFINITION. The engine agent's turn: the completion of the command in flight (00_scope.md R15, 40_command.md
R122). -/

namespace Sys2Proof.Machine

/-- `Complete()`: the command in CMD completes, an illegal word with ILLEGAL_CMD (40_command.md R122). -/
def completeCommand (s : State) : Host.Outcome State Fault Refusal :=
  match decodeWord s.cmd with
  | .ok i => exec i s
  | .error _ => .next (completeIllegal s)

/-- The engine's turn: its one step is enabled while BUSY = 1 and rst is not asserted; else nothing happens
(40_command.md R122, 70_reset_and_hazards.md R340; log 11). -/
def engineTurn (s : State) : Host.Outcome State Fault Refusal :=
  if s.status.busy && !s.rst then completeCommand s else .next s

end Sys2Proof.Machine
end

