-- ==== Sys2Proof/Machine/Step.lean ====
section
/-! DEFINITION. One step of the CAE: the next event of the schedule, or the engine's turn where nothing is scheduled
(00_scope.md R15, 20_memory.md R75, 40_command.md R122; log 1, log 2). -/

namespace Sys2Proof.Machine

/-- One step: the next event of `pending` happens; with none pending the engine has its turn (log 2). -/
def step (s : State) : Host.Outcome State Fault Refusal :=
  match s.pending with
  | [] => engineTurn s
  | .host h :: rest => .next (portAccess { s with pending := rest } h)
  | .engine :: rest => engineTurn { s with pending := rest }
  | .resetAssert :: rest => .next (assertReset { s with pending := rest })
  | .resetRelease :: rest => .next (releaseReset { s with pending := rest })

/-- `s` with the command word `w` accepted and nothing else scheduled, so that the next step completes it: the state a
host's CMD write of that word leaves (40_command.md R120; log 4). -/
def State.withFetchWord (s : State) (nbits w : Nat) : State :=
  accept { s with pending := [], rst := false } (BitVec.ofNat 32 (w % 2 ^ nbits))

end Sys2Proof.Machine
end

