-- ==== Sys2Proof/Machine/Assembler.lean ====
section
/-! DEFINITION. The assembler's statements and their text (30_encoding.md R100). Text is a list of characters. No step
of the machine uses this file. -/

namespace Sys2Proof.Machine

/-- One statement of the assembler (30_encoding.md R100). -/
inductive AsmStatement where
  /-- A command statement. -/
  | command (i : Instr)
  /-- `.word <value>`: any 32-bit value, legal or not. -/
  | word (w : Word)
  deriving DecidableEq, Repr

/-- The word of a statement, none where an operand is out of its range (30_encoding.md R100). -/
def assemble (st : AsmStatement) : Option Word :=
  match st with
  | .command i => if i.wellFormed then some (encode i) else none
  | .word w => some w

/-- The statement of a word: an illegal word prints as `.word` (30_encoding.md R100). -/
def disassemble (w : Word) : AsmStatement :=
  match decodeWord w with
  | .ok i => .command i
  | .error _ => .word w

/-- A decimal or hexadecimal digit's value. -/
def digitValue (c : Char) : Option Nat :=
  let n := c.toNat
  if 0x30 ≤ n ∧ n ≤ 0x39 then some (n - 0x30)
  else if 0x61 ≤ n ∧ n ≤ 0x66 then some (n - 0x61 + 10)
  else if 0x41 ≤ n ∧ n ≤ 0x46 then some (n - 0x41 + 10)
  else none

/-- Digits of a base, most significant first, after the value `acc`. -/
def readDigits (base acc : Nat) (cs : List Char) : Option Nat :=
  match cs with
  | [] => some acc
  | c :: rest =>
    match digitValue c with
    | some d => if d < base then readDigits base (acc * base + d) rest else none
    | none => none

/-- A number in decimal or `0x` hexadecimal (30_encoding.md R100). -/
def readNumber (cs : List Char) : Option Nat :=
  match cs with
  | [] => none
  | ['0', 'x'] => none
  | '0' :: 'x' :: rest => readDigits 16 0 rest
  | cs => readDigits 10 0 cs

/-- PM.STEP's operand: a number, or a quoted alphabet character meaning its index (30_encoding.md R100). -/
def readSymbolOperand (cs : List Char) : Option Nat :=
  match cs with
  | ['\'', c, '\''] => if c.toNat < 256 then (alphabetPlace (BitVec.ofNat 8 c.toNat)).map BitVec.toNat else none
  | cs => readNumber cs

/-- CB.RUN's last operand: `pad` or `nopad` (30_encoding.md R100). -/
def readPad (cs : List Char) : Option Bool :=
  if cs = ['p', 'a', 'd'] then some true
  else if cs = ['n', 'o', 'p', 'a', 'd'] then some false
  else none

/-- The tokens of a statement: runs of characters between blanks and commas, each comma a token of its own. `acc` holds
the token begun, reversed. -/
def tokenize (cs acc : List Char) : List (List Char) :=
  match cs with
  | [] => if acc = [] then [] else [acc.reverse]
  | c :: rest =>
    if c = ' ' ∨ c = '\t' then (if acc = [] then [] else [acc.reverse]) ++ tokenize rest []
    else if c = ',' then (if acc = [] then [] else [acc.reverse]) ++ [','] :: tokenize rest []
    else tokenize rest (c :: acc)

/-- A mnemonic without operand, in capitals (30_encoding.md R100). -/
def plainMnemonic (m : List Char) : Option Instr :=
  if m = ['N', 'O', 'P'] then some .nop
  else if m = ['P', 'M', '.', 'I', 'N', 'I', 'T'] then some .pmInit
  else if m = ['P', 'M', '.', 'R', 'U', 'N'] then some .pmRun
  else if m = ['B', '3', '2', '.', 'M', 'A', 'P'] then some .b32Map
  else if m = ['B', '3', '2', '.', 'U', 'N', 'M', 'A', 'P'] then some .b32Unmap
  else if m = ['C', 'H', 'E', 'C', 'K', 'S', 'U', 'M'] then some .checksum
  else if m = ['D', 'E', 'C', 'O', 'D', 'E'] then some .decode
  else none

/-- A mnemonic with one operand, in capitals (30_encoding.md R100). -/
def operandStatement (m x : List Char) : Option AsmStatement :=
  if m = ['P', 'M', '.', 'S', 'T', 'E', 'P'] then (readSymbolOperand x).map (fun n => .command (.pmStep n))
  else if m = ['P', 'A', 'C', 'K'] then (readNumber x).map (fun n => .command (.pack n))
  else if m = ['E', 'N', 'C', 'O', 'D', 'E'] then (readNumber x).map (fun n => .command (.encode n))
  else if m = ['.', 'W', 'O', 'R', 'D'] then
    match readNumber x with
    | some n => if n < 2 ^ 32 then some (.word (BitVec.ofNat 32 n)) else none
    | none => none
  else none

/-- The statement of a line's tokens (30_encoding.md R100); mnemonics are case-insensitive. -/
def statementOf (ts : List (List Char)) : Option AsmStatement :=
  match ts with
  | [m] => (plainMnemonic (m.map Char.toUpper)).map .command
  | [m, x] => operandStatement (m.map Char.toUpper) x
  | [m, f, [','], t, [','], p] =>
    if m.map Char.toUpper = ['C', 'B', '.', 'R', 'U', 'N'] then
      match readNumber f, readNumber t, readPad p with
      | some f, some t, some p => some (.command (.cbRun f t p))
      | _, _, _ => none
    else none
  | _ => none

/-- The word of a line of text, none where the line is no statement or an operand is out of range
(30_encoding.md R100). -/
def assembleLine (cs : List Char) : Option Word := (statementOf (tokenize cs [])).bind assemble

/-- One hexadecimal digit in lower case. -/
def hexDigit (d : Nat) : Char := if d < 10 then Char.ofNat (0x30 + d) else Char.ofNat (0x61 + (d - 10))

/-- A word as eight hexadecimal digits, most significant first. -/
def hexWord (w : Word) : List Char := (List.range 8).map (fun i => hexDigit (w.extractLsb' (4 * (7 - i)) 4).toNat)

/-- A number of at most three digits in decimal. -/
def decimal (n : Nat) : List Char :=
  if n < 10 then [hexDigit n]
  else if n < 100 then [hexDigit (n / 10), hexDigit (n % 10)]
  else [hexDigit (n / 100), hexDigit (n / 10 % 10), hexDigit (n % 10)]

/-- A statement's text as a disassembler prints it. 30_encoding.md R100 fixes the mnemonics, the commas and the illegal
form `.word 0x........`. DESIGN CHOICE (log 27): of the spellings R100 accepts for a legal word, this prints mnemonics in
capitals, every operand in decimal (never hexadecimal, and a symbol never as a quoted character), one blank before the
operands and after each comma, and the digits of `.word` in lower case. Safe: no step uses it. -/
def renderStatement (st : AsmStatement) : List Char :=
  match st with
  | .command .nop => ['N', 'O', 'P']
  | .command .pmInit => ['P', 'M', '.', 'I', 'N', 'I', 'T']
  | .command (.pmStep sym) => ['P', 'M', '.', 'S', 'T', 'E', 'P', ' '] ++ decimal sym
  | .command .pmRun => ['P', 'M', '.', 'R', 'U', 'N']
  | .command (.cbRun f t pad) =>
    ['C', 'B', '.', 'R', 'U', 'N', ' '] ++ decimal f ++ [',', ' '] ++ decimal t ++ [',', ' '] ++
      (if pad then ['p', 'a', 'd'] else ['n', 'o', 'p', 'a', 'd'])
  | .command .b32Map => ['B', '3', '2', '.', 'M', 'A', 'P']
  | .command .b32Unmap => ['B', '3', '2', '.', 'U', 'N', 'M', 'A', 'P']
  | .command (.pack ty) => ['P', 'A', 'C', 'K', ' '] ++ decimal ty
  | .command .checksum => ['C', 'H', 'E', 'C', 'K', 'S', 'U', 'M']
  | .command (.encode ty) => ['E', 'N', 'C', 'O', 'D', 'E', ' '] ++ decimal ty
  | .command .decode => ['D', 'E', 'C', 'O', 'D', 'E']
  | .word w => ['.', 'w', 'o', 'r', 'd', ' ', '0', 'x'] ++ hexWord w

end Sys2Proof.Machine
end

