-- ==== Sys2Proof/Safety.lean ====
section
/-! DEFINITION. The terms the claims use: the invariant of the CAE, what a completed command shows, what it leaves
unchanged, and the spec's own readings of PolyMod, of the alphabet and of bit order that the model is held against. -/

namespace Sys2Proof.Machine

/-! ### The invariant -/

/-- What every reachable state satisfies: the memory's canonical form inside the three buffers, the OUT rule's tail
(40_command.md R124, 10_state.md R29, R33), RESULT's shape (10_state.md R30), OP a copy of the accepted word's opcode
(10_state.md R25), no DONE and no ERR while a command is in flight (40_command.md R120), and the reset state while rst is
asserted (70_reset_and_hazards.md R340; log 7). -/
structure Inv (s : State) : Prop where
  /-- The memory is in canonical form. -/
  memWf : s.mem.wf
  /-- It lists bytes of the buffers only. -/
  memMapped : s.mem.mapped
  /-- OUT_LEN never exceeds 256. -/
  outLenBound : s.outLen.toNat ≤ 256
  /-- OUT is zero from OUT_LEN on. -/
  outTail : ∀ i, s.outLen.toNat ≤ i → i < 256 → s.mem.read (outBase + i) = 0
  /-- RESULT holds the fields of one version byte whose bits 7 and 6 are 0. -/
  resultShape : ∃ vb : Byte, vb.extractLsb' 6 2 = 0 ∧ s.result = resultWord vb
  /-- STATUS.OP is bits 7 to 0 of the word last accepted. -/
  opIsCmd : s.status.op = s.cmd.extractLsb' 0 8
  /-- While a command is in flight DONE and ERR are 0. -/
  busyFresh : s.status.busy = true → s.status.done = false ∧ s.status.err = .ok
  /-- While rst is asserted the state is the reset state. -/
  heldInReset : s.rst = true → s = resetCore s

/-! ### What a command shows and what it leaves -/

/-- The command completed with a code: ERR, BUSY = 0, DONE = 1 (40_command.md R122). -/
structure CompletedWith (t : State) (code : ErrCode) : Prop where
  /-- ERR is the code. -/
  err : t.status.err = code
  /-- BUSY is 0. -/
  idle : t.status.busy = false
  /-- DONE is 1. -/
  done : t.status.done = true

/-- What no command writes (40_command.md R128): PREFIX, IN and their lengths, CTRL, CMD, ucf_snap, STATUS.BVIOL and
STATUS.OP, every byte outside OUT, the reset input, SIZE_TABLE and the model's own fields. -/
structure NeverWritten (s t : State) : Prop where
  /-- Every byte outside OUT reads as before. -/
  bytes : ∀ a, (a < outBase ∨ outBase + 256 ≤ a) → t.mem.read a = s.mem.read a
  /-- PREFIX_LEN. -/
  prefixLen : t.prefixLen = s.prefixLen
  /-- IN_LEN. -/
  inLen : t.inLen = s.inLen
  /-- CTRL. -/
  ctrl : t.ctrl = s.ctrl
  /-- CMD. -/
  cmd : t.cmd = s.cmd
  /-- ucf_snap. -/
  ucfSnap : t.ucfSnap = s.ucfSnap
  /-- STATUS.BVIOL. -/
  bviol : t.status.bviol = s.status.bviol
  /-- STATUS.OP. -/
  op : t.status.op = s.status.op
  /-- The reset input. -/
  rst : t.rst = s.rst
  /-- SIZE_TABLE. -/
  sizeTable : t.sizeTable = s.sizeTable
  /-- The schedule. -/
  pending : t.pending = s.pending
  /-- The last response. -/
  resp : t.resp = s.resp

/-- OUT and OUT_LEN are as before. -/
structure OutUnchanged (s t : State) : Prop where
  /-- Every byte of OUT, and every other byte, reads as before. -/
  bytes : ∀ a, t.mem.read a = s.mem.read a
  /-- OUT_LEN. -/
  outLen : t.outLen = s.outLen

/-- The result in OUT: its bytes, then zeros to the end, and OUT_LEN their number (40_command.md R124). -/
structure OutHolds (t : State) (bs : List Byte) : Prop where
  /-- OUT_LEN is the number of bytes. -/
  outLen : t.outLen.toNat = bs.length
  /-- OUT[i] is byte i of the result. -/
  bytes : ∀ i < bs.length, t.mem.read (outBase + i) = bs.getD i 0
  /-- OUT is zero beyond the result. -/
  tail : ∀ i, bs.length ≤ i → i < 256 → t.mem.read (outBase + i) = 0

/-- Byte i of PREFIX (10_state.md R32). -/
def State.prefixByte (s : State) (i : Nat) : Byte := s.mem.read (0x100 + i)

/-- Byte i of IN (10_state.md R32). -/
def State.inByte (s : State) (i : Nat) : Byte := s.mem.read (0x200 + i)

/-- Byte i of OUT (10_state.md R32). -/
def State.outByte (s : State) (i : Nat) : Byte := s.mem.read (0x300 + i)

/-- IN[0..IN_LEN) (10_state.md R33). -/
def State.inOperand (s : State) : List Byte := (List.range s.inLen.toNat).map s.inByte

/-- PREFIX[0..PREFIX_LEN) (10_state.md R33). -/
def State.prefixOperand (s : State) : List Byte := (List.range s.prefixLen.toNat).map s.prefixByte

/-- OUT[0..OUT_LEN) (10_state.md R33). -/
def State.outResult (s : State) : List Byte := (List.range s.outLen.toNat).map s.outByte

/-- Every item of 10_state.md R43 at its reset value; ID is a constant and irq follows. -/
structure IsResetState (t : State) : Prop where
  /-- CTRL = 0. -/
  ctrl : t.ctrl = ⟨false, false⟩
  /-- STATUS = 0. -/
  status : t.status = ⟨false, false, false, .ok, 0⟩
  /-- CMD = 0. -/
  cmd : t.cmd = 0
  /-- PREFIX_LEN = 0. -/
  prefixLen : t.prefixLen = 0
  /-- IN_LEN = 0. -/
  inLen : t.inLen = 0
  /-- OUT_LEN = 0. -/
  outLen : t.outLen = 0
  /-- RESULT = 0. -/
  result : t.result = 0
  /-- PM_ACC = 1. -/
  pmAcc : t.pmAcc = 1
  /-- MOD = 0. -/
  mod : t.mod = 0
  /-- Every byte of PREFIX, IN and OUT is 0x00. -/
  bytes : ∀ a, t.mem.read a = 0
  /-- ucf_snap = 0. -/
  ucfSnap : t.ucfSnap = false

/-- A sequence of commands completes one after another, each from the state the one before left. -/
def execAll (cs : List Instr) (s : State) : Result :=
  match cs with
  | [] => .next s
  | i :: rest =>
    match exec i s with
    | .next t => execAll rest t
    | .fault f => .fault f
    | .refused r => .refused r

/-! ### The frame table -/

/-- The PM_ACC column of the frame table (40_command.md R128). -/
def writesPmAcc (i : Instr) : Bool :=
  match i with
  | .pmInit | .pmStep _ | .pmRun => true
  | .nop | .cbRun _ _ _ | .b32Map | .b32Unmap | .pack _ | .checksum | .encode _ | .decode => false

/-- The OUT column of the frame table (40_command.md R128). -/
def writesOut (i : Instr) : Bool :=
  match i with
  | .cbRun _ _ _ | .b32Map | .b32Unmap | .pack _ | .checksum | .encode _ | .decode => true
  | .nop | .pmInit | .pmStep _ | .pmRun => false

/-- The RESULT column of the frame table (40_command.md R128). -/
def writesResult (i : Instr) : Bool :=
  match i with
  | .pack _ | .encode _ | .decode => true
  | .nop | .pmInit | .pmStep _ | .pmRun | .cbRun _ _ _ | .b32Map | .b32Unmap | .checksum => false

/-- The MOD column of the frame table (40_command.md R128). -/
def writesMod (i : Instr) : Bool :=
  match i with
  | .checksum | .encode _ | .decode => true
  | .nop | .pmInit | .pmStep _ | .pmRun | .cbRun _ _ _ | .b32Map | .b32Unmap | .pack _ => false

/-- The commands that read IN (40_command.md R123). -/
def readsIn (i : Instr) : Bool :=
  match i with
  | .pmRun | .cbRun _ _ _ | .b32Map | .b32Unmap | .pack _ | .checksum | .encode _ | .decode => true
  | .nop | .pmInit | .pmStep _ => false

/-- The commands that read PREFIX (40_command.md R123). -/
def readsPrefix (i : Instr) : Bool :=
  match i with
  | .checksum | .encode _ | .decode => true
  | .nop | .pmInit | .pmStep _ | .pmRun | .cbRun _ _ _ | .b32Map | .b32Unmap | .pack _ => false

/-- An ASCII digit or letter, a valid byte of a prefix (46_codec.md R273 step 2, R274). -/
def AsciiAlnum (b : Byte) : Prop :=
  (0x30 ≤ b.toNat ∧ b.toNat ≤ 0x39) ∨ (0x41 ≤ b.toNat ∧ b.toNat ≤ 0x5A) ∨ (0x61 ≤ b.toNat ∧ b.toNat ≤ 0x7A)

/-- The checksum digits of a 40-bit value, by division (44_checksum.md R231): digit i is (m >> 5(7 - i)) & 0x1f. -/
def digitsNat (m : Nat) : List Nat := (List.range 8).map (fun i => m / 2 ^ (5 * (7 - i)) % 32)

/-! ### The spec's readings, written apart from the model's functions -/

/-- GEN as natural numbers (41_polymod.md R150). -/
def genNat (i : Nat) : Nat :=
  match i with
  | 0 => 0x98f2bc8e61
  | 1 => 0x79b76d99e2
  | 2 => 0xf33e5fb3c4
  | 3 => 0xae2eabe2a8
  | _ => 0x1e4f43e470

/-- PolyStep on unbounded naturals, as the source's 64-bit accumulator computes it (41_polymod.md R151, R153). -/
def polyStepNat (c d : Nat) : Nat :=
  (List.range 5).foldl (fun c' i => if (c >>> 35).testBit i then c' ^^^ genNat i else c')
    (((c &&& 0x07ffffffff) <<< 5) ^^^ d)

/-- PolyMod on unbounded naturals (41_polymod.md R152). -/
def polyModNat (ds : List Nat) : Nat := ds.foldl polyStepNat 1 ^^^ 1

/-- ALPHABET, the ASCII column of 45_base32.md R250, symbol 0 first. -/
def alphabetCodes : List Nat :=
  [ 0x71, 0x70, 0x7a, 0x72, 0x79, 0x39, 0x78, 0x38, 0x67, 0x66, 0x32, 0x74, 0x76, 0x64, 0x77, 0x30,
    0x73, 0x33, 0x6a, 0x6e, 0x35, 0x34, 0x6b, 0x68, 0x63, 0x65, 0x36, 0x6d, 0x75, 0x61, 0x37, 0x6c ]

/-- The low `w` bits of a number, most significant first (20_memory.md R81). -/
def bitsMsb (w x : Nat) : List Bool := (List.range w).map (fun i => x.testBit (w - 1 - i))

/-- The bit stream of a sequence of units of `w` bits each (20_memory.md R81). -/
def bitStream (w : Nat) (us : List Nat) : List Bool := us.flatMap (bitsMsb w)

/-- The match and mask columns of the opcode map (30_encoding.md R96), written out. -/
def opcodeMap : List (Word × Word) :=
  [ (0x00000000, 0xFFFFFFFF), (0x00000001, 0xFFFFFFFF), (0x00000002, 0xFFFFE0FF), (0x00000003, 0xFFFFFFFF),
    (0x00000010, 0xFFFE00FF), (0x00000020, 0xFFFFFFFF), (0x00000021, 0xFFFFFFFF), (0x00000030, 0xFFFF00FF),
    (0x00000031, 0xFFFFFFFF), (0x00000040, 0xFFFF00FF), (0x00000041, 0xFFFFFFFF) ]

/-- The error codes a command can complete with, less ILLEGAL_CMD, which only an illegal word gets
(60_exceptions.md R312). -/
def possibleCodes (i : Instr) : List ErrCode :=
  match i with
  | .nop | .pmInit | .pmStep _ => [.ok]
  | .pmRun => [.ok, .symbolRange, .badParam]
  | .cbRun _ _ _ => [.ok, .padding, .symbolRange, .badParam, .overflow]
  | .b32Map => [.ok, .symbolRange, .badParam]
  | .b32Unmap => [.ok, .invalidCharacter, .badParam]
  | .pack _ => [.ok, .unsupportedSize, .invalidType, .badParam, .overflow]
  | .checksum => [.ok, .symbolRange, .badParam]
  | .encode _ => [.ok, .unsupportedSize, .invalidType, .badParam, .overflow]
  | .decode => [.ok, .invalidCharacter, .invalidLength, .checksumMismatch, .invalidType, .badParam]

/-- The BusError conditions of 20_memory.md R66: unmapped, a size the port has not, misaligned, a narrow register
access. -/
def BadAccess (a : HostAddr) (n : Nat) : Prop :=
  0x400 ≤ a.toNat ∨ (n ≠ 1 ∧ n ≠ 2 ∧ n ≠ 4) ∨ a.toNat % n ≠ 0 ∨ (a.toNat < 0x100 ∧ n ≠ 4)

/-- A host access that performs a soft reset where it passes the port (70_reset_and_hazards.md R341). -/
def isSoftReset (h : HostAccess) : Bool :=
  match h with
  | .read _ _ => false
  | .write a n v => a == 0x004 && n == 4 && v.getLsbD 2

end Sys2Proof.Machine
end

