-- ==== Sys2Proof/Certificates/Slice0/Obligations.lean ====
section
/-! DEFINITION. The statements for the provers. Each docstring names the rule of spec/ it formalises, or says that it is
the model's choice and names the log entry. -/

open Sys2Proof Sys2Proof.Machine

/-! ## Encoding -/

/-- Every command with every operand its fields admit is what the decoder reads from its word (30_encoding.md R96,
R98). -/
def Obligations.EncodedCommandDecodesBack : Prop :=
  ∀ i : Instr, i.WellFormed → decodeWord (encode i) = .ok i

/-- A word the decoder accepts is the word of the command it reads: no bit is dropped (30_encoding.md R96 to R98). -/
def Obligations.DecodedWordEncodesBack : Prop :=
  ∀ (w : Word) (i : Instr), decodeWord w = .ok i → i.WellFormed ∧ encode i = w

/-- A word is legal exactly when one row of the opcode map selects it (30_encoding.md R96, R97). -/
def Obligations.LegalWordsAreTheOpcodeMaps : Prop :=
  ∀ w : Word, legalWord w = true ↔ (opcodeMap.filter (fun r => w &&& r.2 == r.1)).length = 1

/-- For each of the eleven commands a word written out from the spec's encodings decodes to it; one illegal word of either
kind is refused (30_encoding.md R96, R97, R100). -/
def Obligations.SpecWordsDecode : Prop :=
  decodeWord 0x00000000 = .ok .nop ∧
  decodeWord 0x00000001 = .ok .pmInit ∧
  decodeWord 0x00001f02 = .ok (.pmStep 31) ∧
  decodeWord 0x00000003 = .ok .pmRun ∧
  decodeWord 0x00015810 = .ok (.cbRun 8 5 true) ∧
  decodeWord 0x00008510 = .ok (.cbRun 5 8 false) ∧
  decodeWord 0x00000020 = .ok .b32Map ∧
  decodeWord 0x00000021 = .ok .b32Unmap ∧
  decodeWord 0x0000ff30 = .ok (.pack 255) ∧
  decodeWord 0x00000031 = .ok .checksum ∧
  decodeWord 0x00000140 = .ok (.encode 1) ∧
  decodeWord 0x00000041 = .ok .decode ∧
  decodeWord 0x00002002 = .error (.reservedBits 0x02) ∧
  decodeWord 0x00000004 = .error (.undefinedOpcode 0x04)

/-- A disassembled word assembles to itself; a legal word disassembles to the statement of the command it decodes to, an
illegal word to `.word` (30_encoding.md R97, R100). -/
def Obligations.DisassembledWordAssembles : Prop :=
  ∀ w : Word, assemble (disassemble w) = some w ∧
    (legalWord w = true → ∃ i, decodeWord w = .ok i ∧ disassemble w = .command i) ∧
    (legalWord w = false → disassemble w = .word w)

/-! ## The step, acceptance and completion -/

/-- With a command in flight and rst released, the engine's turn is the meaning of the decoded command (40_command.md
R122); that the engine has its turn when its event is next or nothing is pending is the model's schedule (log 1, log 2). -/
def Obligations.StepRunsDecodedCommand : Prop :=
  ∀ (s : State) (i : Instr), s.rst = false → s.status.busy = true → decodeWord s.cmd = .ok i →
    (s.pending = [] → step s = exec i s) ∧
    (∀ rest, s.pending = .engine :: rest → step s = exec i { s with pending := rest })

/-- An illegal word completes with ILLEGAL_CMD and no other effect (30_encoding.md R97, 40_command.md R128). -/
def Obligations.IllegalWordCompletesWithoutEffect : Prop :=
  ∀ s : State, s.rst = false → s.status.busy = true → s.pending = [] → legalWord s.cmd = false →
    ∃ t, step s = .next t ∧ CompletedWith t .illegalCmd ∧ NeverWritten s t ∧ OutUnchanged s t ∧
      t.result = s.result ∧ t.mod = s.mod ∧ t.pmAcc = s.pmAcc

/-- A host write of any word to CMD while BUSY = 0 accepts it and writes nothing else; while BUSY = 1 it is refused
(40_command.md R120). -/
def Obligations.CmdWriteAcceptsEveryWord : Prop :=
  ∀ (s : State) (w : Word) (rest : List Event), s.rst = false → s.pending = .host (.write 0x00C 4 w) :: rest →
    (s.status.busy = false →
      step s = .next { s with
        pending := rest
        resp := some .done
        cmd := w
        status := ⟨true, false, s.status.bviol, .ok, w.extractLsb' 0 8⟩
        ucfSnap := s.ctrl.ucf }) ∧
    (s.status.busy = true →
      step s = .next { s with
        pending := rest, resp := some .done, status := { s.status with bviol := true } })

/-- No step ends in a fault or a refusal (60_exceptions.md R315: no trap; 20_memory.md R66: an ERROR response changes no
state; log 3). -/
def Obligations.EveryStepAnswersNext : Prop :=
  ∀ s : State, ∃ t, step s = .next t

/-- Every accepted command completes unless a reset aborts it (70_reset_and_hazards.md R350): once the schedule is used
up and the engine has had one more turn, no command is in flight. That the engine has the turn when nothing is pending is
the model's choice (log 2). -/
def Obligations.EveryScheduleEndsIdle : Prop :=
  ∀ s : State, (s.rst = true → s.status.busy = false) →
    ∃ t, Host.Core.run Sys2Proof.core (s.pending.length + 1) s = .next t ∧ t.status.busy = false ∧ t.pending = []

/-! ## The host port -/

/-- An access that is unmapped, of a wrong size, misaligned or a narrow register access gets the ERROR response and
changes nothing, busy or not; every other access gets an OK response (20_memory.md R62, R64 to R66). -/
def Obligations.BusErrorExactlyForBadAccesses : Prop :=
  ∀ (s : State) (h : HostAccess) (a : HostAddr) (n : Nat) (rest : List Event), s.rst = false →
    (h = .read a n ∨ ∃ v, h = .write a n v) → s.pending = .host h :: rest →
    (BadAccess a n → step s = .next { s with pending := rest, resp := some .busError }) ∧
    (¬ BadAccess a n → ∃ t, step s = .next t ∧ t.resp ≠ some .busError ∧ t.resp ≠ none)

/-- While BUSY = 1 an access other than at ID, CTRL and STATUS that passes the BusError checks is refused: BVIOL is set
and nothing else, a read returns 0, both with OK; accesses at ID, CTRL and STATUS are performed normally (20_memory.md
R67). -/
def Obligations.BusyFilterRefusesAccesses : Prop :=
  ∀ (s : State) (rest : List Event), s.rst = false → s.status.busy = true →
    (∀ (a : HostAddr) (n : Nat), ¬ BadAccess a n → a ≠ 0x000 → a ≠ 0x004 → a ≠ 0x008 →
      (s.pending = .host (.read a n) :: rest →
        step s = .next { s with
          pending := rest, resp := some (.data 0), status := { s.status with bviol := true } }) ∧
      (∀ v, s.pending = .host (.write a n v) :: rest →
        step s = .next { s with
          pending := rest, resp := some .done, status := { s.status with bviol := true } })) ∧
    (s.pending = .host (.read 0x000 4) :: rest →
      step s = .next { s with pending := rest, resp := some (.data 0x43414501) }) ∧
    (s.pending = .host (.read 0x004 4) :: rest →
      step s = .next { s with pending := rest, resp := some (.data (ctrlWord s.ctrl)) }) ∧
    (s.pending = .host (.read 0x008 4) :: rest →
      step s = .next { s with pending := rest, resp := some (.data (statusWord s.status)) }) ∧
    (∀ v, s.pending = .host (.write 0x000 4 v) :: rest →
      step s = .next { s with pending := rest, resp := some .done }) ∧
    (∀ v : Word, v.getLsbD 2 = false → s.pending = .host (.write 0x004 4 v) :: rest →
      step s = .next { s with
        pending := rest, resp := some .done, ctrl := ⟨v.getLsbD 0, v.getLsbD 1⟩ }) ∧
    (∀ v : Word, v.getLsbD 2 = true → s.pending = .host (.write 0x004 4 v) :: rest →
      ∃ t, step s = .next t ∧ IsResetState t) ∧
    (∀ v, s.pending = .host (.write 0x008 4 v) :: rest →
      step s = .next { s with
        pending := rest, resp := some .done, status := clearStatus s.status v })

/-- A buffer read is little-endian: byte lane k of the data is the byte at a + k, and the lanes above the access are 0;
the state is unchanged but for the response (20_memory.md R62, R63). -/
def Obligations.BufferReadIsLittleEndian : Prop :=
  ∀ (s : State) (a : HostAddr) (n : Nat) (rest : List Event), s.rst = false → s.status.busy = false →
    ¬ BadAccess a n → ((0x100 ≤ a.toNat ∧ a.toNat < 0x140) ∨ 0x200 ≤ a.toNat) →
    s.pending = .host (.read a n) :: rest →
    ∃ v : Word, step s = .next { s with pending := rest, resp := some (.data v) } ∧
      (∀ k < n, v.extractLsb' (8 * k) 8 = s.mem.read (a.toNat + k)) ∧
      (∀ i, 8 * n ≤ i → v.getLsbD i = false)

/-- A write to PREFIX or IN stores lane k of the data at a + k and changes no other byte and no other field
(20_memory.md R62, R63). -/
def Obligations.BufferWriteStoresItsLanes : Prop :=
  ∀ (s : State) (a : HostAddr) (n : Nat) (v : Word) (rest : List Event), s.rst = false → s.status.busy = false →
    ¬ BadAccess a n →
    ((0x100 ≤ a.toNat ∧ a.toNat < 0x140) ∨ (0x200 ≤ a.toNat ∧ a.toNat < 0x300)) →
    s.pending = .host (.write a n v) :: rest →
    ∃ m : Memory, step s = .next { s with pending := rest, resp := some .done, mem := m } ∧
      (∀ k < n, m.read (a.toNat + k) = v.extractLsb' (8 * k) 8) ∧
      (∀ b, (b < a.toNat ∨ a.toNat + n ≤ b) → m.read b = s.mem.read b)

/-- Writes to OUT, to the reserved region, to reserved register offsets and to read-only registers are ignored with an OK
response, and reserved space reads 0 (10_state.md R22, 20_memory.md R68, R69). -/
def Obligations.IgnoredWritesAndReservedReads : Prop :=
  ∀ (s : State) (a : HostAddr) (n : Nat) (rest : List Event), s.rst = false → s.status.busy = false →
    ¬ BadAccess a n →
    ((0x300 ≤ a.toNat ∨ (0x038 ≤ a.toNat ∧ a.toNat < 0x100) ∨ (0x140 ≤ a.toNat ∧ a.toNat < 0x200) ∨
        a = 0x000 ∨ a = 0x018 ∨ a = 0x01C ∨ a = 0x028 ∨ a = 0x02C ∨ a = 0x030 ∨ a = 0x034) →
      ∀ v, s.pending = .host (.write a n v) :: rest →
        step s = .next { s with pending := rest, resp := some .done }) ∧
    (((0x038 ≤ a.toNat ∧ a.toNat < 0x100) ∨ (0x140 ≤ a.toNat ∧ a.toNat < 0x200)) →
      s.pending = .host (.read a n) :: rest →
        step s = .next { s with pending := rest, resp := some (.data 0) })

/-- The bits of STATUS, CTRL and RESULT as the host reads them, reserved bits 0 (10_state.md R24, R25, R30), and the
values of the error codes (60_exceptions.md R310). -/
def Obligations.RegisterWordLayouts : Prop :=
  (∀ st : Status,
    (statusWord st).getLsbD 0 = st.busy ∧ (statusWord st).getLsbD 1 = st.done ∧ (statusWord st).getLsbD 2 = st.bviol ∧
    (statusWord st).extractLsb' 3 5 = 0 ∧ (statusWord st).extractLsb' 8 4 = errBits st.err ∧
    (statusWord st).extractLsb' 12 4 = 0 ∧ (statusWord st).extractLsb' 16 8 = st.op ∧
    (statusWord st).extractLsb' 24 8 = 0) ∧
  (∀ c : Ctrl, (ctrlWord c).getLsbD 0 = c.ie ∧ (ctrlWord c).getLsbD 1 = c.ucf ∧ (ctrlWord c).extractLsb' 2 30 = 0) ∧
  (∀ vb : Byte, (resultWord vb).extractLsb' 0 8 = vb ∧ (resultWord vb).extractLsb' 8 3 = vb.extractLsb' 3 3 ∧
    (resultWord vb).getLsbD 11 = false ∧ (resultWord vb).extractLsb' 12 3 = vb.extractLsb' 0 3 ∧
    (resultWord vb).extractLsb' 15 17 = 0) ∧
  ([ErrCode.ok, .invalidCharacter, .invalidLength, .checksumMismatch, .unsupportedSize, .invalidType, .padding,
    .symbolRange, .badParam, .overflow, .illegalCmd].map (fun e => (errBits e).toNat)) = List.range 11

/-- What a 32-bit read of each register returns while BUSY = 0, with no effect but the response (10_state.md R22 to
R31). -/
def Obligations.RegisterReadsReturnTheRegisters : Prop :=
  ∀ (s : State) (a : HostAddr) (v : Word) (rest : List Event), s.rst = false → s.status.busy = false →
    s.pending = .host (.read a 4) :: rest →
    (a, v) ∈ ([(0x000, 0x43414501), (0x004, ctrlWord s.ctrl), (0x008, statusWord s.status), (0x00C, s.cmd),
      (0x010, s.prefixLen.setWidth 32), (0x014, s.inLen.setWidth 32), (0x018, s.outLen.setWidth 32),
      (0x01C, s.result), (0x020, s.pmAcc.setWidth 32), (0x024, (s.pmAcc >>> 32).setWidth 32),
      (0x028, (s.pmAcc ^^^ 1).setWidth 32), (0x02C, (s.pmAcc >>> 32).setWidth 32),
      (0x030, s.mod.setWidth 32), (0x034, (s.mod >>> 32).setWidth 32)] : List (HostAddr × Word)) →
    step s = .next { s with pending := rest, resp := some (.data v) }

/-- The length registers keep 16 bits, the accumulator's two words are written apart, and CTRL keeps IE and UCF; each
write changes its register alone (10_state.md R24, R27, R29; 20_memory.md R62). -/
def Obligations.RegisterWritesChangeTheirRegister : Prop :=
  ∀ (s : State) (v : Word) (rest : List Event), s.rst = false → s.status.busy = false →
    (s.pending = .host (.write 0x010 4 v) :: rest →
      ∃ x : Len, step s = .next { s with pending := rest, resp := some .done, prefixLen := x } ∧
        x.toNat = v.toNat % 2 ^ 16) ∧
    (s.pending = .host (.write 0x014 4 v) :: rest →
      ∃ x : Len, step s = .next { s with pending := rest, resp := some .done, inLen := x } ∧
        x.toNat = v.toNat % 2 ^ 16) ∧
    (s.pending = .host (.write 0x020 4 v) :: rest →
      ∃ x : Acc, step s = .next { s with pending := rest, resp := some .done, pmAcc := x } ∧
        x.toNat = s.pmAcc.toNat / 2 ^ 32 * 2 ^ 32 + v.toNat) ∧
    (s.pending = .host (.write 0x024 4 v) :: rest →
      ∃ x : Acc, step s = .next { s with pending := rest, resp := some .done, pmAcc := x } ∧
        x.toNat = v.toNat % 2 ^ 8 * 2 ^ 32 + s.pmAcc.toNat % 2 ^ 32) ∧
    (v.getLsbD 2 = false → s.pending = .host (.write 0x004 4 v) :: rest →
      step s = .next { s with pending := rest, resp := some .done, ctrl := ⟨v.getLsbD 0, v.getLsbD 1⟩ })

/-- A write to STATUS, busy or not, clears DONE where v[1] is 1 and BVIOL where v[2] is 1 and changes nothing else
(10_state.md R25). -/
def Obligations.StatusWriteOnlyClears : Prop :=
  ∀ (s : State) (v : Word) (rest : List Event), s.rst = false → s.pending = .host (.write 0x008 4 v) :: rest →
    step s = .next { s with
      pending := rest
      resp := some .done
      status := ⟨s.status.busy, s.status.done && !v.getLsbD 1, s.status.bviol && !v.getLsbD 2,
        s.status.err, s.status.op⟩ }

/-! ## Reset -/

/-- The reset state holds 10_state.md R43's values; a CTRL write with SRST, busy or not, and the release of rst lead to
them from every state (70_reset_and_hazards.md R340 to R342). -/
def Obligations.ResetsGiveTheResetState : Prop :=
  IsResetState State.reset ∧ State.reset.rst = false ∧ State.reset.irq = false ∧
  readReg State.reset .id = 0x43414501 ∧ readReg State.reset .pmAccLo = 1 ∧ readReg State.reset .pmAccHi = 0 ∧
  readReg State.reset .pmResLo = 0 ∧ readReg State.reset .pmResHi = 0 ∧
  (∀ (s : State) (v : Word) (rest : List Event), s.rst = false → v.getLsbD 2 = true →
    s.pending = .host (.write 0x004 4 v) :: rest →
    ∃ t, step s = .next t ∧ IsResetState t ∧ t.irq = false ∧ t.rst = false ∧ t.sizeTable = s.sizeTable ∧
      t.pending = rest) ∧
  (∀ (s : State) (rest : List Event), s.pending = .resetRelease :: rest →
    ∃ t, step s = .next t ∧ IsResetState t ∧ t.irq = false ∧ t.rst = false ∧ t.sizeTable = s.sizeTable ∧
      t.pending = rest)

/-- While rst is asserted no access gets a response and no engine step happens; the model's reading of the level (log 7)
of 70_reset_and_hazards.md R340. -/
def Obligations.AssertedResetHoldsTheMachine : Prop :=
  (∀ (s : State) (rest : List Event), s.pending = .resetAssert :: rest →
    ∃ t, step s = .next t ∧ t.rst = true ∧ IsResetState t ∧ t.irq = false ∧ t.pending = rest) ∧
  (∀ (s : State) (h : HostAccess) (rest : List Event), s.rst = true → s.pending = .host h :: rest →
    step s = .next { s with pending := rest, resp := none }) ∧
  (∀ (s : State) (rest : List Event), s.rst = true → s.pending = .engine :: rest →
    step s = .next { s with pending := rest }) ∧
  (∀ s : State, s.rst = true → s.pending = [] → step s = .next s)

/-! ## The interrupt, and orders of completion and accesses -/

/-- irq = STATUS.DONE & CTRL.IE (60_exceptions.md R313): a completion, with whatever code, raises it exactly where IE = 1,
IE written 1 raises it exactly where DONE = 1, and a W1C of DONE, IE written 0, an acceptance, a soft reset and an edge of
rst drop it; every other event leaves it as it was. That it is low from the assertion of rst on, and that an access while
rst is asserted leaves it so, is the model's reading of the reset level (log 7). -/
def Obligations.InterruptFollowsDoneAndEnable : Prop :=
  (∀ s : State, s.irq = true ↔ s.status.done = true ∧ s.ctrl.ie = true) ∧
  (∀ s t : State, completeCommand s = .next t → t.irq = s.ctrl.ie) ∧
  (∀ s t : State, s.pending = [] ∨ (∃ rest, s.pending = .engine :: rest) → step s = .next t →
    (s.status.busy = true ∧ s.rst = false → t.irq = s.ctrl.ie) ∧
    (s.status.busy = false ∨ s.rst = true → t.irq = s.irq)) ∧
  (∀ (s t : State) (rest : List Event), s.pending = .resetAssert :: rest ∨ s.pending = .resetRelease :: rest →
    step s = .next t → t.irq = false) ∧
  (∀ (s t : State) (a : HostAddr) (v : Word) (rest : List Event), s.rst = false →
    s.pending = .host (.write a 4 v) :: rest → step s = .next t →
    (a = 0x008 → v.getLsbD 1 = true → t.irq = false) ∧
    (a = 0x008 → v.getLsbD 1 = false → t.irq = s.irq) ∧
    (a = 0x004 → v.getLsbD 0 = false → t.irq = false) ∧
    (a = 0x004 → v.getLsbD 2 = true → t.irq = false) ∧
    (a = 0x004 → v.getLsbD 0 = true → v.getLsbD 2 = false → t.irq = s.status.done) ∧
    (a = 0x00C → s.status.busy = false → t.irq = false) ∧
    (a = 0x00C → s.status.busy = true → t.irq = s.irq)) ∧
  (∀ (s t : State) (h : HostAccess) (rest : List Event), s.pending = .host h :: rest → step s = .next t →
    (s.rst = true ∨ ∀ v, h ≠ .write 0x004 4 v ∧ h ≠ .write 0x008 4 v ∧ h ≠ .write 0x00C 4 v) → t.irq = s.irq)

/-- A W1C write of DONE and a completion in either order: after the completion the write clears the new DONE, before it
the write has no effect on that DONE; ERR and OP are alike (20_memory.md R75). -/
def Obligations.CompletionAndClearInEitherOrder : Prop :=
  ∀ s : State, s.rst = false → s.status.busy = true →
    ∃ t u,
      Host.Core.run Sys2Proof.core 2 { s with pending := [.engine, .host (.write 0x008 4 0x2)] } = .next t ∧
      Host.Core.run Sys2Proof.core 2 { s with pending := [.host (.write 0x008 4 0x2), .engine] } = .next u ∧
      t.status.done = false ∧ u.status.done = true ∧ t.status.busy = false ∧ u.status.busy = false ∧
      t.status.err = u.status.err ∧ t.status.op = u.status.op

/-- Whatever accesses the host makes in the busy window, short of a soft reset, the command in flight completes with the
results it has when it completes at once: the operands are held (70_reset_and_hazards.md R344, 10_state.md R40, R41). -/
def Obligations.BusyWindowAccessesDoNotChangeTheResult : Prop :=
  ∀ (s : State) (hs : List HostAccess), s.rst = false → s.status.busy = true →
    (∀ h ∈ hs, isSoftReset h = false) →
    ∃ t u,
      Host.Core.run Sys2Proof.core (hs.length + 1) { s with pending := hs.map Event.host ++ [.engine] } = .next t ∧
      Host.Core.run Sys2Proof.core 1 { s with pending := [.engine] } = .next u ∧
      t.status.busy = false ∧ t.status.err = u.status.err ∧ t.status.op = u.status.op ∧ t.cmd = u.cmd ∧
      t.mem = u.mem ∧ t.outLen = u.outLen ∧ t.result = u.result ∧ t.mod = u.mod ∧ t.pmAcc = u.pmAcc ∧
      t.prefixLen = u.prefixLen ∧ t.inLen = u.inLen ∧ t.ucfSnap = u.ucfSnap

/-! ## Invariants -/

/-- Every step keeps the invariant, from every state that has it. -/
def Obligations.StepKeepsTheInvariant : Prop :=
  ∀ s t : State, Inv s → step s = .next t → Inv t

/-- The reset state has the invariant. -/
def Obligations.ResetHasTheInvariant : Prop := Inv State.reset

/-- No register write, command or reset changes SIZE_TABLE (43_packer.md R210, 92_eei_decisions.md D23). -/
def Obligations.SizeTableNeverChanges : Prop :=
  ∀ (k : Nat) (s t : State), Host.Core.run Sys2Proof.core k s = .next t → t.sizeTable = s.sizeTable

/-- The frame table: a command writes only its columns, PM_RUN writes PM_ACC on success only, an illegal word writes none
of them, and no command writes PREFIX, IN, their lengths or CTRL (40_command.md R128). -/
def Obligations.CommandsWriteOnlyTheirColumns : Prop :=
  (∀ (i : Instr) (s t : State), exec i s = .next t →
    CompletedWith t t.status.err ∧ NeverWritten s t ∧
    (writesPmAcc i = false → t.pmAcc = s.pmAcc) ∧
    (i = .pmRun → t.status.err ≠ .ok → t.pmAcc = s.pmAcc) ∧
    (writesOut i = false → OutUnchanged s t) ∧
    (writesResult i = false → t.result = s.result) ∧
    (writesMod i = false → t.mod = s.mod)) ∧
  (∀ (s t : State) (e : DecodeError), decodeWord s.cmd = .error e → completeCommand s = .next t →
    CompletedWith t .illegalCmd ∧ NeverWritten s t ∧ OutUnchanged s t ∧ t.pmAcc = s.pmAcc ∧
    t.result = s.result ∧ t.mod = s.mod)

/-- The OUT rule and the RESULT rule for every command that writes them: OUT holds at most 256 bytes of result and zeros
behind them, a failure leaves OUT all zero, OUT_LEN 0 and RESULT 0, and a success leaves RESULT with the fields of a
version byte whose bits 7 and 6 are 0 (40_command.md R124, R125; 10_state.md R30). -/
def Obligations.FailedCommandLeavesNoResult : Prop :=
  ∀ (i : Instr) (s t : State), exec i s = .next t →
    (writesOut i = true →
      ∃ bs, bs.length ≤ 256 ∧ OutHolds t bs ∧ (t.status.err ≠ .ok → bs = [])) ∧
    (writesResult i = true →
      ∃ vb : Byte, vb.extractLsb' 6 2 = 0 ∧ t.result = resultWord vb ∧ (t.status.err ≠ .ok → vb = 0))

/-- The codes each command can complete with (60_exceptions.md R312). -/
def Obligations.CommandsCompleteWithTheirCodes : Prop :=
  (∀ (i : Instr) (s t : State), exec i s = .next t → t.status.err ∈ possibleCodes i) ∧
  (∀ (s t : State) (e : DecodeError), decodeWord s.cmd = .error e → completeCommand s = .next t →
    t.status.err = .illegalCmd)

/-- The length checks: a command that reads IN fails BAD_PARAM where IN_LEN > 256, one that reads PREFIX where
PREFIX_LEN > 64, before every other check; NOP, PM_INIT and PM_STEP never fail so (40_command.md R123). -/
def Obligations.LengthChecksComeFirst : Prop :=
  ∀ (i : Instr) (s : State),
    ((readsIn i = true ∧ 256 < s.inLen.toNat) ∨ (readsPrefix i = true ∧ 64 < s.prefixLen.toNat) →
      ∃ t, exec i s = .next t ∧ CompletedWith t .badParam) ∧
    (readsIn i = false → ∃ t, exec i s = .next t ∧ CompletedWith t .ok)

/-! ## NOP and the PolyMod engine -/

/-- NOP completes with ERR = 0 and no effect; right after reset it leaves STATUS = 0x00000002 (40_command.md R127). -/
def Obligations.NopCompletesWithoutEffect : Prop :=
  (∀ s : State, ∃ t, exec .nop s = .next t ∧ CompletedWith t .ok ∧ NeverWritten s t ∧ OutUnchanged s t ∧
    t.result = s.result ∧ t.mod = s.mod ∧ t.pmAcc = s.pmAcc) ∧
  (∃ t, step (accept State.reset 0x00000000) = .next t ∧ statusWord t.status = 0x00000002)

/-- PM_INIT leaves PM_ACC = 1, so PM_RES reads 0, and changes nothing else but STATUS (41_polymod.md R154). -/
def Obligations.PmInitSetsTheAccumulatorToOne : Prop :=
  ∀ s : State, ∃ t, exec .pmInit s = .next t ∧ CompletedWith t .ok ∧ t.pmAcc = 1 ∧
    readReg t .pmResLo = 0 ∧ readReg t .pmResHi = 0 ∧
    NeverWritten s t ∧ OutUnchanged s t ∧ t.result = s.result ∧ t.mod = s.mod

/-- PM_STEP leaves PM_ACC = PolyStep(PM_ACC, SYM), computed on natural numbers as the spec writes it, for every symbol and
every 40-bit PM_ACC, and changes nothing else but STATUS (41_polymod.md R151, R155). -/
def Obligations.PmStepAppliesPolyStep : Prop :=
  ∀ (sym : Nat) (s : State), sym < 32 →
    ∃ t, exec (.pmStep sym) s = .next t ∧ CompletedWith t .ok ∧
      t.pmAcc.toNat = polyStepNat s.pmAcc.toNat sym ∧ (s.pmAcc = 0 → t.pmAcc.toNat = sym) ∧
      NeverWritten s t ∧ OutUnchanged s t ∧ t.result = s.result ∧ t.mod = s.mod

/-- The 40-bit accumulator and the source's wider one give the same results: PolyStep stays below 2^40, c >> 35 has five
bits, and PolyMod agrees (41_polymod.md R153). -/
def Obligations.FortyBitAccumulatorSuffices : Prop :=
  (∀ c d : Nat, c < 2 ^ 40 → d < 32 →
    polyStepNat c d < 2 ^ 40 ∧ c >>> 35 < 32 ∧
    (polyStep (BitVec.ofNat 40 c) (BitVec.ofNat 5 d)).toNat = polyStepNat c d) ∧
  (∀ ds : List Symbol, (polyMod ds).toNat = polyModNat (ds.map BitVec.toNat) ∧
    polyModNat (ds.map BitVec.toNat) < 2 ^ 40)

/-- PM_INIT and then PM_STEP with the symbols in order leave PM_RES = PolyMod of them (41_polymod.md R155). -/
def Obligations.PmStepsComputePolyMod : Prop :=
  ∀ (ds : List Symbol) (s : State),
    ∃ t, execAll (.pmInit :: ds.map (fun d => .pmStep d.toNat)) s = .next t ∧
      readReg t .pmResLo = (polyMod ds).setWidth 32 ∧
      readReg t .pmResHi = (polyMod ds >>> 32).setWidth 32 ∧
      t.mem = s.mem ∧ t.outLen = s.outLen ∧ t.result = s.result ∧ t.mod = s.mod

/-- PM_RUN steps PM_ACC over IN on success, and leaves it unchanged on BAD_PARAM and SYMBOL_RANGE; nothing else changes
but STATUS (41_polymod.md R156). -/
def Obligations.PmRunStepsOverInAllOrNothing : Prop :=
  ∀ s : State, ∃ t, exec .pmRun s = .next t ∧
    NeverWritten s t ∧ OutUnchanged s t ∧ t.result = s.result ∧ t.mod = s.mod ∧
    (256 < s.inLen.toNat → CompletedWith t .badParam ∧ t.pmAcc = s.pmAcc) ∧
    (s.inLen.toNat ≤ 256 → (∃ b ∈ s.inOperand, 32 ≤ b.toNat) → CompletedWith t .symbolRange ∧ t.pmAcc = s.pmAcc) ∧
    (s.inLen.toNat ≤ 256 → (∀ b ∈ s.inOperand, b.toNat < 32) →
      CompletedWith t .ok ∧
      t.pmAcc.toNat = (s.inOperand.map BitVec.toNat).foldl polyStepNat s.pmAcc.toNat)

/-- Linearity: PolyStep is linear over GF(2) in the accumulator and the symbol together, so PolyMod is affine
(41_polymod.md R157). -/
def Obligations.PolyModIsAffine : Prop :=
  (∀ (c c' : Acc) (d d' : Symbol), polyStep (c ^^^ c') (d ^^^ d') = polyStep c d ^^^ polyStep c' d') ∧
  (∀ ds es : List Symbol, ds.length = es.length →
    polyMod ds ^^^ polyMod es ^^^ polyMod (List.replicate ds.length 0) = polyMod (List.zipWith (· ^^^ ·) ds es))

/-- Changing one symbol of an input of any length changes PolyMod (46_codec.md R279, its second case). -/
def Obligations.OneChangedSymbolChangesPolyMod : Prop :=
  ∀ (before after : List Symbol) (d e : Symbol), d ≠ e →
    polyMod (before ++ d :: after) ≠ polyMod (before ++ e :: after)

/-! ## The repacker -/

/-- ConvertBits repacks the bit stream, most significant bit first: with pad its output is the input's stream and then
fewer than t zero bits; without pad it answers exactly the full groups where what is left over is fewer than f and t zero
bits, and fails PADDING otherwise; a unit wider than f bits fails SYMBOL_RANGE (42_repacker.md R180, R182, R183;
20_memory.md R81). -/
def Obligations.ConvertBitsRepacksTheBitStream : Prop :=
  ∀ (f t : Nat) (u : List Nat), 1 ≤ f → f ≤ 8 → 1 ≤ t → t ≤ 8 →
    ((∃ x ∈ u, 2 ^ f ≤ x) → ∀ pad, convertBits f t pad u = .error .symbolRange) ∧
    ((∀ x ∈ u, x < 2 ^ f) →
      (∃ v p, convertBits f t true u = .ok v ∧ (∀ y ∈ v, y < 2 ^ t) ∧ p < t ∧
        bitStream t v = bitStream f u ++ List.replicate p false) ∧
      (∀ v, convertBits f t false u = .ok v ↔
        (∀ y ∈ v, y < 2 ^ t) ∧ ∃ p, p < t ∧ p < f ∧ bitStream f u = bitStream t v ++ List.replicate p false) ∧
      ((∃ v, convertBits f t false u = .ok v) ∨ convertBits f t false u = .error .padding))

/-- The output length: ceil(n f / t) with pad, floor(n f / t) without; for (8, 5, pad) it is ceil((L + 1) 8 / 5)
(42_repacker.md R181). -/
def Obligations.ConvertBitsOutputLength : Prop :=
  ∀ (f t : Nat) (u v : List Nat), 1 ≤ f → f ≤ 8 → 1 ≤ t → t ≤ 8 →
    (convertBits f t true u = .ok v → v.length = (u.length * f + (t - 1)) / t) ∧
    (convertBits f t false u = .ok v → v.length = u.length * f / t)

/-- The round trip: converting padded and back without padding gives the input, then one zero unit for each f whole bits
of padding; so the input itself comes back exactly where the padding is shorter than f bits, and always for t ≤ f.
42_repacker.md R185 claims the input itself for every f and t, which its own R180 and R181 do not give where f < t and
the padding holds f bits or more (log 28). -/
def Obligations.RepackRoundTrip : Prop :=
  ∀ (f t : Nat) (u v : List Nat), 1 ≤ f → f ≤ 8 → 1 ≤ t → t ≤ 8 → (∀ x ∈ u, x < 2 ^ f) →
    convertBits f t true u = .ok v →
    convertBits t f false v = .ok (u ++ List.replicate ((v.length * t - u.length * f) / f) 0) ∧
    (convertBits t f false v = .ok u ↔ v.length * t < u.length * f + f) ∧
    (t ≤ f → convertBits t f false v = .ok u)

/-- CB_RUN: the checks in order, and OUT with the converted units where they fit; nothing else changes but STATUS
(42_repacker.md R184). -/
def Obligations.CbRunConvertsIn : Prop :=
  ∀ (f t : Nat) (pad : Bool) (s : State), ∃ s', exec (.cbRun f t pad) s = .next s' ∧
    NeverWritten s s' ∧ s'.pmAcc = s.pmAcc ∧ s'.result = s.result ∧ s'.mod = s.mod ∧
    (256 < s.inLen.toNat ∨ f < 1 ∨ 8 < f ∨ t < 1 ∨ 8 < t → CompletedWith s' .badParam ∧ OutHolds s' []) ∧
    (s.inLen.toNat ≤ 256 → 1 ≤ f → f ≤ 8 → 1 ≤ t → t ≤ 8 →
      (∀ e, convertBits f t pad (s.inOperand.map BitVec.toNat) = .error e →
        CompletedWith s' e ∧ OutHolds s' []) ∧
      (∀ v, convertBits f t pad (s.inOperand.map BitVec.toNat) = .ok v →
        (256 < v.length → CompletedWith s' .overflow ∧ OutHolds s' []) ∧
        (v.length ≤ 256 → CompletedWith s' .ok ∧
          ∃ bs, OutHolds s' bs ∧ bs.map BitVec.toNat = v)))

/-! ## The alphabet -/

/-- B32_MAP: OUT[i] is the alphabet's character of IN[i]; BAD_PARAM, then SYMBOL_RANGE; nothing else changes but STATUS
(45_base32.md R250, R253). -/
def Obligations.B32MapWritesTheCharacters : Prop :=
  ∀ s : State, ∃ t, exec .b32Map s = .next t ∧
    NeverWritten s t ∧ t.pmAcc = s.pmAcc ∧ t.result = s.result ∧ t.mod = s.mod ∧
    (256 < s.inLen.toNat → CompletedWith t .badParam ∧ OutHolds t []) ∧
    (s.inLen.toNat ≤ 256 → (∃ b ∈ s.inOperand, 32 ≤ b.toNat) → CompletedWith t .symbolRange ∧ OutHolds t []) ∧
    (s.inLen.toNat ≤ 256 → (∀ b ∈ s.inOperand, b.toNat < 32) →
      CompletedWith t .ok ∧
      OutHolds t (s.inOperand.map (fun b => BitVec.ofNat 8 (alphabetCodes.getD b.toNat 0))))

/-- B32_UNMAP: OUT[i] is the symbol of IN[i] under ucf_snap; BAD_PARAM, then INVALID_CHARACTER; nothing else changes but
STATUS (45_base32.md R252, R254). -/
def Obligations.B32UnmapWritesTheSymbols : Prop :=
  ∀ s : State, ∃ t, exec .b32Unmap s = .next t ∧
    NeverWritten s t ∧ t.pmAcc = s.pmAcc ∧ t.result = s.result ∧ t.mod = s.mod ∧
    (256 < s.inLen.toNat → CompletedWith t .badParam ∧ OutHolds t []) ∧
    (s.inLen.toNat ≤ 256 → (∃ b ∈ s.inOperand, unmapByte s.ucfSnap b = none) →
      CompletedWith t .invalidCharacter ∧ OutHolds t []) ∧
    (s.inLen.toNat ≤ 256 → (∀ b ∈ s.inOperand, unmapByte s.ucfSnap b ≠ none) →
      CompletedWith t .ok ∧
      ∃ bs, OutHolds t bs ∧
        bs.map BitVec.toNat = s.inOperand.map (fun b => ((unmapByte s.ucfSnap b).getD 0).toNat))

/-- The alphabet is the 32 ASCII codes of the spec and Map reads it in order; with the fold bit 0 Unmap is the inverse of
Map, with it 1 the uppercase forms are taken too (45_base32.md R250 to R252, R255). -/
def Obligations.UnmapInvertsMap : Prop :=
  alphabet.map BitVec.toNat = alphabetCodes ∧
  (∀ k : Symbol, (mapSymbol k).toNat = alphabetCodes.getD k.toNat 0) ∧
  (∀ (k : Symbol) (u : Bool), unmapByte u (mapSymbol k) = some k) ∧
  (∀ (b : Byte) (k : Symbol), unmapByte false b = some k ↔ mapSymbol k = b) ∧
  (∀ (b : Byte) (k : Symbol), unmapByte true b = some k ↔
    mapSymbol k = b ∨ (0x41 ≤ b.toNat ∧ b.toNat ≤ 0x5A ∧ mapSymbol k = b ||| 0x20))

/-! ## The packer -/

/-- PACK: the checks in order (BAD_PARAM, INVALID_TYPE, UNSUPPORTED_SIZE, OVERFLOW), and on success OUT with the version
byte and the payload repacked into symbols and RESULT with the version byte's fields; on failure RESULT = 0. For every
valid SIZE_TABLE (43_packer.md R210 to R212, R214; 40_command.md R125). -/
def Obligations.PackPacksThePayload : Prop :=
  ∀ (ty : Nat) (s : State), SizeTableValid s.sizeTable →
    ∃ t, exec (.pack ty) s = .next t ∧ NeverWritten s t ∧ t.pmAcc = s.pmAcc ∧ t.mod = s.mod ∧
      (256 < s.inLen.toNat → CompletedWith t .badParam ∧ OutHolds t [] ∧ t.result = 0) ∧
      (s.inLen.toNat ≤ 256 → 8 ≤ ty → CompletedWith t .invalidType ∧ OutHolds t [] ∧ t.result = 0) ∧
      (s.inLen.toNat ≤ 256 → ty < 8 → (∀ c : Fin 8, s.sizeTable[c] ≠ some s.inLen.toNat) →
        CompletedWith t .unsupportedSize ∧ OutHolds t [] ∧ t.result = 0) ∧
      (s.inLen.toNat ≤ 256 → ty < 8 → ∀ c : Fin 8, s.sizeTable[c] = some s.inLen.toNat →
        ∃ v, convertBits 8 5 true ((ty * 8 + c.val) :: s.inOperand.map BitVec.toNat) = .ok v ∧
          (256 < v.length → CompletedWith t .overflow ∧ OutHolds t [] ∧ t.result = 0) ∧
          (v.length ≤ 256 → CompletedWith t .ok ∧ (∃ bs, OutHolds t bs ∧ bs.map BitVec.toNat = v) ∧
            t.result.toNat = (ty * 8 + c.val) + ty * 2 ^ 8 + c.val * 2 ^ 12))

/-- When Pack succeeds: the length of its symbols, the first symbol the type, the second one's top three bits the size
class, and the lengths under the default table (43_packer.md R213). -/
def Obligations.PackedSymbolsBeginWithTheVersion : Prop :=
  ∀ (st : Config.SizeTable) (p : List Byte) (ty : Nat) (ds : List Symbol) (vb : Byte),
    packPayload st p ty = .ok (ds, vb) →
    ds.length = ((p.length + 1) * 8 + 4) / 5 ∧
    (ds.getD 0 0).toNat = ty ∧ vb.toNat / 8 = ty ∧
    (∃ c : Fin 8, st[c] = some p.length ∧ vb.toNat % 8 = c.val ∧ (ds.getD 1 0).toNat / 4 = c.val) ∧
    (st = Config.defaultSizeTable →
      (p.length, ds.length) ∈ [(20, 34), (24, 40), (28, 47), (32, 53), (40, 66), (48, 79), (56, 92), (64, 104)])

/-! ## The checksum -/

/-- CHECKSUM: BAD_PARAM, then SYMBOL_RANGE, each with MOD = 0 and OUT zero; on success MOD is PolyMod of the expanded
prefix, the symbols and eight zeros, and OUT its eight digits, most significant first (44_checksum.md R230, R231,
R233). -/
def Obligations.ChecksumWritesItsDigits : Prop :=
  ∀ s : State, ∃ t, exec .checksum s = .next t ∧ NeverWritten s t ∧ t.pmAcc = s.pmAcc ∧ t.result = s.result ∧
    (256 < s.inLen.toNat ∨ 64 < s.prefixLen.toNat → CompletedWith t .badParam ∧ OutHolds t [] ∧ t.mod = 0) ∧
    (s.inLen.toNat ≤ 256 → s.prefixLen.toNat ≤ 64 → (∃ b ∈ s.inOperand, 32 ≤ b.toNat) →
      CompletedWith t .symbolRange ∧ OutHolds t [] ∧ t.mod = 0) ∧
    (s.inLen.toNat ≤ 256 → s.prefixLen.toNat ≤ 64 → (∀ b ∈ s.inOperand, b.toNat < 32) →
      CompletedWith t .ok ∧
      t.mod.toNat = polyModNat (s.prefixOperand.map (fun b => b.toNat % 32) ++ [0] ++
        s.inOperand.map BitVec.toNat ++ List.replicate 8 0) ∧
      ∃ bs, OutHolds t bs ∧ bs.map BitVec.toNat = digitsNat t.mod.toNat)

/-- Validity: PolyMod of the expanded prefix, the symbols and their checksum digits is 0, for every prefix and every
symbol sequence (44_checksum.md R234). -/
def Obligations.ChecksumDigitsValidate : Prop :=
  ∀ (q : List Byte) (ds : List Symbol),
    polyMod (expandPrefix q ++ ds ++ digitsOf (checksumValue q ds)) = 0

/-! ## The codec -/

/-- ENCODE: the checks in order, and where PACK's symbols exist MOD gets the PolyMod value m and the string is the prefix,
':' and the characters of the symbols and of m's digits; it is OUT where it fits 256 bytes, with RESULT the version byte's
fields, else OVERFLOW with MOD kept (46_codec.md R270, R272; 40_command.md R125, R126). -/
def Obligations.EncodeWritesTheAddress : Prop :=
  ∀ (ty : Nat) (s : State), SizeTableValid s.sizeTable →
    ∃ t, exec (.encode ty) s = .next t ∧ NeverWritten s t ∧ t.pmAcc = s.pmAcc ∧
      (256 < s.inLen.toNat ∨ 64 < s.prefixLen.toNat →
        CompletedWith t .badParam ∧ OutHolds t [] ∧ t.result = 0 ∧ t.mod = 0) ∧
      (s.inLen.toNat ≤ 256 → s.prefixLen.toNat ≤ 64 → 8 ≤ ty →
        CompletedWith t .invalidType ∧ OutHolds t [] ∧ t.result = 0 ∧ t.mod = 0) ∧
      (s.inLen.toNat ≤ 256 → s.prefixLen.toNat ≤ 64 → ty < 8 →
        (∀ c : Fin 8, s.sizeTable[c] ≠ some s.inLen.toNat) →
        CompletedWith t .unsupportedSize ∧ OutHolds t [] ∧ t.result = 0 ∧ t.mod = 0) ∧
      (s.inLen.toNat ≤ 256 → s.prefixLen.toNat ≤ 64 → ty < 8 →
        ∀ c : Fin 8, s.sizeTable[c] = some s.inLen.toNat →
        ∃ v, convertBits 8 5 true ((ty * 8 + c.val) :: s.inOperand.map BitVec.toNat) = .ok v ∧
          t.mod.toNat = polyModNat (s.prefixOperand.map (fun b => b.toNat % 32) ++ [0] ++ v ++
            List.replicate 8 0) ∧
          (256 < s.prefixLen.toNat + 1 + v.length + 8 →
            CompletedWith t .overflow ∧ OutHolds t [] ∧ t.result = 0) ∧
          (s.prefixLen.toNat + 1 + v.length + 8 ≤ 256 →
            CompletedWith t .ok ∧
            OutHolds t (s.prefixOperand ++ [0x3A] ++
              (v ++ digitsNat t.mod.toNat).map (fun k => BitVec.ofNat 8 (alphabetCodes.getD k 0))) ∧
            t.result.toNat = (ty * 8 + c.val) + ty * 2 ^ 8 + c.val * 2 ^ 12))

/-- The length of the string Encode makes, its value for 20, 32 and 64 payload bytes, and the longest one under the
default table (46_codec.md R271). -/
def Obligations.EncodedAddressLength : Prop :=
  ∀ (st : Config.SizeTable) (q p : List Byte) (ty : Nat) (a : List Byte) (vb : Byte),
    (encodeAddress st q p ty).value = .ok (a, vb) →
    a.length = q.length + 1 + ((p.length + 1) * 8 + 4) / 5 + 8 ∧
    (p.length = 20 → a.length = q.length + 43) ∧ (p.length = 32 → a.length = q.length + 62) ∧
    (p.length = 64 → a.length = q.length + 113) ∧
    (st = Config.defaultSizeTable → q.length ≤ 64 → a.length ≤ 177)

/-- After a successful ENCODE, OUT[PREFIX_LEN] is ':' and every later byte of the result is in the alphabet (46_codec.md
R281). -/
def Obligations.EncodedPayloadStaysInTheAlphabet : Prop :=
  ∀ (ty : Nat) (s t : State), exec (.encode ty) s = .next t → t.status.err = .ok →
    t.outByte s.prefixLen.toNat = 0x3A ∧
    ∀ i, s.prefixLen.toNat + 1 ≤ i → i < t.outLen.toNat → (t.outByte i).toNat ∈ alphabetCodes

/-- DECODE: BAD_PARAM first; else what Decode answers on IN, the default prefix and ucf_snap: its error with OUT zero and
RESULT 0, or its payload in OUT with RESULT the version byte's fields and MOD = 0; MOD holds the PolyMod value wherever
Decode computed one. OVERFLOW cannot occur (46_codec.md R277; 40_command.md R124 to R126). -/
def Obligations.DecodeWritesThePayload : Prop :=
  ∀ s : State, ∃ t, exec .decode s = .next t ∧ NeverWritten s t ∧ t.pmAcc = s.pmAcc ∧
    (256 < s.inLen.toNat ∨ 64 < s.prefixLen.toNat →
      CompletedWith t .badParam ∧ OutHolds t [] ∧ t.result = 0 ∧ t.mod = 0) ∧
    (s.inLen.toNat ≤ 256 → s.prefixLen.toNat ≤ 64 →
      t.mod = (decodeAddress s.sizeTable s.inOperand s.prefixOperand s.ucfSnap).polyValue.getD 0 ∧
      (∀ e, (decodeAddress s.sizeTable s.inOperand s.prefixOperand s.ucfSnap).value = .error e →
        CompletedWith t e ∧ OutHolds t [] ∧ t.result = 0) ∧
      (∀ p vb, (decodeAddress s.sizeTable s.inOperand s.prefixOperand s.ucfSnap).value = .ok (p, vb) →
        CompletedWith t .ok ∧ OutHolds t p ∧ t.result = resultWord vb ∧ t.mod = 0 ∧ vb.extractLsb' 6 2 = 0))

/-- The steps of Decode in their order, on an address split at its last ':'; and the default prefix where the address has
none (46_codec.md R273 to R276). -/
def Obligations.DecodeStepsInOrder : Prop :=
  ∀ (st : Config.SizeTable) (q t dq : List Byte) (u : Bool), (0x3A : Byte) ∉ t →
    ((q = [] ∨ ∃ b ∈ q, ¬ AsciiAlnum b) →
      decodeAddress st (q ++ 0x3A :: t) dq u = ⟨.error .invalidCharacter, none⟩) ∧
    (q ≠ [] → (∀ b ∈ q, AsciiAlnum b) →
      ((∃ b ∈ t, unmapByte u b = none) →
        decodeAddress st (q ++ 0x3A :: t) dq u = ⟨.error .invalidCharacter, none⟩) ∧
      (∀ ds : List Symbol, t.map (unmapByte u) = ds.map some →
        (ds.length < 9 → decodeAddress st (q ++ 0x3A :: t) dq u = ⟨.error .invalidLength, none⟩) ∧
        (9 ≤ ds.length → ∀ m, m = polyMod (q.map (fun b => b.setWidth 5) ++ [0] ++ ds) →
          (m ≠ 0 → decodeAddress st (q ++ 0x3A :: t) dq u = ⟨.error .checksumMismatch, some m⟩) ∧
          (m = 0 →
            (∀ e, convertBits 5 8 false ((ds.take (ds.length - 8)).map BitVec.toNat) = .error e →
              decodeAddress st (q ++ 0x3A :: t) dq u = ⟨.error .invalidLength, some 0⟩) ∧
            (∀ us, convertBits 5 8 false ((ds.take (ds.length - 8)).map BitVec.toNat) = .ok us →
              ∃ vb payload, us.map (BitVec.ofNat 8) = vb :: payload ∧
                (64 ≤ vb.toNat →
                  decodeAddress st (q ++ 0x3A :: t) dq u = ⟨.error .invalidType, some 0⟩) ∧
                (vb.toNat < 64 → ∀ c : Fin 8, c.val = vb.toNat % 8 →
                  (st[c] ≠ some payload.length →
                    decodeAddress st (q ++ 0x3A :: t) dq u = ⟨.error .invalidLength, some 0⟩) ∧
                  (st[c] = some payload.length →
                    decodeAddress st (q ++ 0x3A :: t) dq u = ⟨.ok (payload, vb), some 0⟩))))))) ∧
    (dq = [] → decodeAddress st t dq u = ⟨.error .invalidCharacter, none⟩) ∧
    (dq ≠ [] → decodeAddress st t dq u = decodeAddress st (dq ++ 0x3A :: t) [] u)

/-- The round trip: what ENCODE writes for an alphanumeric prefix of 1 to 64 bytes, a payload whose length has a size
class and a type below 8, DECODE turns back into the payload and the type, for any default prefix and either fold bit
(46_codec.md R278). -/
def Obligations.DecodeInvertsEncode : Prop :=
  ∀ (ty : Nat) (s t s' : State), 1 ≤ s.prefixLen.toNat → s.prefixLen.toNat ≤ 64 →
    (∀ b ∈ s.prefixOperand, AsciiAlnum b) → s.inLen.toNat ≤ 256 → ty < 8 →
    (∃ c : Fin 8, s.sizeTable[c] = some s.inLen.toNat) →
    exec (.encode ty) s = .next t → t.status.err = .ok →
    s'.sizeTable = s.sizeTable → s'.inOperand = t.outResult → s'.prefixLen.toNat ≤ 64 →
    ∃ t', exec .decode s' = .next t' ∧ CompletedWith t' .ok ∧ OutHolds t' s.inOperand ∧
      (t'.result.extractLsb' 8 3).toNat = ty ∧ t'.result = t.result ∧ t'.mod = 0

/-- Checksum sensitivity: an address that DECODE accepts, with one byte other than its last ':' replaced. A byte not
valid at its place fails INVALID_CHARACTER; one with another symbol fails CHECKSUM_MISMATCH; one with the same symbol
decodes to the same data (46_codec.md R279; 90_conflicts.md C2). The three parts are a byte of the prefix, a byte of the
data part, and a byte of an address without ':' (its default prefix applies), where a new ':' is left out: it makes the
address name another prefix, which R279 does not speak of (log 29). -/
def Obligations.OneChangedByteNeverDecodesToOtherData : Prop :=
  ∀ (s t s' : State) (x y : List Byte) (b b' : Byte), exec .decode s = .next t → t.status.err = .ok →
    s.inOperand = x ++ b :: y → s'.inOperand = x ++ b' :: y → b ≠ b' →
    s'.prefixOperand = s.prefixOperand → s'.ucfSnap = s.ucfSnap → s'.sizeTable = s.sizeTable →
    ((0x3A : Byte) ∈ y →
      ∃ t', exec .decode s' = .next t' ∧
        (¬ AsciiAlnum b' → CompletedWith t' .invalidCharacter ∧ OutHolds t' []) ∧
        (AsciiAlnum b' → b'.toNat % 32 ≠ b.toNat % 32 → CompletedWith t' .checksumMismatch ∧ OutHolds t' []) ∧
        (AsciiAlnum b' → b'.toNat % 32 = b.toNat % 32 →
          CompletedWith t' .ok ∧ t'.outResult = t.outResult ∧ t'.result = t.result)) ∧
    ((0x3A : Byte) ∉ y → b ≠ 0x3A → ((0x3A : Byte) ∈ x ∨ b' ≠ 0x3A) →
      ∃ t', exec .decode s' = .next t' ∧
        (unmapByte s.ucfSnap b' = none → CompletedWith t' .invalidCharacter ∧ OutHolds t' []) ∧
        (unmapByte s.ucfSnap b' ≠ none → unmapByte s.ucfSnap b' ≠ unmapByte s.ucfSnap b →
          CompletedWith t' .checksumMismatch ∧ OutHolds t' []) ∧
        (unmapByte s.ucfSnap b' = unmapByte s.ucfSnap b →
          CompletedWith t' .ok ∧ t'.outResult = t.outResult ∧ t'.result = t.result))

/-- Determinism: ENCODE's results depend on the prefix, the payload, TYPE and SIZE_TABLE alone, DECODE's on the address,
the default prefix, ucf_snap and SIZE_TABLE alone: not on earlier commands or on PM_ACC (46_codec.md R280). -/
def Obligations.CodecResultsDependOnOperandsAlone : Prop :=
  ∀ s s' : State, s'.inOperand = s.inOperand → s'.prefixOperand = s.prefixOperand → s'.sizeTable = s.sizeTable →
    (∀ ty : Nat, ∃ t t', exec (.encode ty) s = .next t ∧ exec (.encode ty) s' = .next t' ∧
      t'.status.err = t.status.err ∧ t'.outLen = t.outLen ∧ t'.result = t.result ∧ t'.mod = t.mod ∧
      ∀ i < 256, t'.outByte i = t.outByte i) ∧
    (s'.ucfSnap = s.ucfSnap → ∃ t t', exec .decode s = .next t ∧ exec .decode s' = .next t' ∧
      t'.status.err = t.status.err ∧ t'.outLen = t.outLen ∧ t'.result = t.result ∧ t'.mod = t.mod ∧
      ∀ i < 256, t'.outByte i = t.outByte i)

/-- Padding canonicality: an address whose checksum is valid but whose last payload symbol has a nonzero bit among the
bits = 5(n - 8) mod 8 left over, or with bits of 5 or more, fails INVALID_LENGTH (46_codec.md R282). -/
def Obligations.NonCanonicalPaddingIsRejected : Prop :=
  ∀ (s : State) (q d q' : List Byte) (ds : List Symbol), s.inLen.toNat ≤ 256 → s.prefixLen.toNat ≤ 64 →
    resolvePrefix s.inOperand s.prefixOperand = .ok (q, d) → checkPrefix q = .ok q' →
    unmapAll s.ucfSnap d = some ds → 9 ≤ ds.length → polyMod (expandPrefix q' ++ ds) = 0 →
    (5 ≤ 5 * (ds.length - 8) % 8 ∨
      (ds.getD (ds.length - 9) 0).toNat % 2 ^ (5 * (ds.length - 8) % 8) ≠ 0) →
    ∃ t, exec .decode s = .next t ∧ CompletedWith t .invalidLength ∧ OutHolds t [] ∧ t.result = 0 ∧ t.mod = 0

/-- No payload without a checksum: DECODE writes a nonempty OUT, or ERR = 0, only where the PolyMod of the expanded prefix
and the data symbols is 0 (46_codec.md R283). -/
def Obligations.NoPayloadWithoutAValidChecksum : Prop :=
  ∀ s t : State, exec .decode s = .next t → (t.status.err = .ok ∨ t.outLen ≠ 0) →
    t.mod = 0 ∧
    ∃ q d q' ds, resolvePrefix s.inOperand s.prefixOperand = .ok (q, d) ∧ checkPrefix q = .ok q' ∧
      unmapAll s.ucfSnap d = some ds ∧ 9 ≤ ds.length ∧ polyMod (expandPrefix q' ++ ds) = 0
end

