-- ==== Sys2Proof/Laws/Memory.lean ====
section
/-! SUPPORT. The buffers' memory: reading after a store, loads, and the canonical form, which every store keeps. -/

namespace Sys2Proof.Machine

/-! ### Cells -/

@[simp] theorem read_nil (a : Nat) : Memory.read [] a = 0 := rfl

theorem read_append_of_mem_left (m m' : Memory) (a : Nat) (h : ∀ c ∈ m', c.1 ≠ a) :
    Memory.read (m ++ m') a = Memory.read m a := by
  induction m with
  | nil =>
    induction m' with
    | nil => rfl
    | cons c cs ih =>
      obtain ⟨a', b⟩ := c
      have hc : a' ≠ a := h (a', b) (by simp)
      have := ih (fun c hc => h c (by simp [hc]))
      simpa [Memory.read, hc] using this
  | cons c cs ih =>
    obtain ⟨a', b⟩ := c
    simp only [List.cons_append, Memory.read]
    split <;> simp_all

theorem read_append_of_not_mem_left (m m' : Memory) (a : Nat) (h : ∀ c ∈ m, c.1 ≠ a) :
    Memory.read (m ++ m') a = Memory.read m' a := by
  induction m with
  | nil => rfl
  | cons c cs ih =>
    obtain ⟨a', b⟩ := c
    have hc : a' ≠ a := h (a', b) (by simp)
    simp only [List.cons_append, Memory.read, hc, if_false]
    exact ih (fun c hc => h c (by simp [hc]))

theorem read_of_not_mem (m : Memory) (a : Nat) (h : ∀ c ∈ m, c.1 ≠ a) : Memory.read m a = 0 := by
  have := read_append_of_not_mem_left m [] a h
  simpa using this

theorem read_filter (m : Memory) (p : Nat → Bool) (a : Nat) (h : p a = true) :
    Memory.read (m.filter (fun c => p c.1)) a = Memory.read m a := by
  induction m with
  | nil => rfl
  | cons c cs ih =>
    obtain ⟨a', b⟩ := c
    by_cases ha : a' = a
    · subst ha; simp [h, Memory.read]
    · by_cases hp : p a' = true
      · simp [hp, Memory.read, ha, ih]
      · simp [hp, Memory.read, ha, ih]

theorem mem_cellsOf {base : Nat} {bs : List Byte} {c : Host.Cell} (h : c ∈ cellsOf base bs) :
    base ≤ c.1 ∧ c.1 < base + bs.length ∧ c.2 ≠ 0 := by
  induction bs generalizing base with
  | nil => simp [cellsOf] at h
  | cons b rest ih =>
    unfold cellsOf at h
    split at h
    · have := ih h; simp only [List.length_cons]; exact ⟨by omega, by omega, this.2.2⟩
    · next hb =>
      rcases List.mem_cons.mp h with rfl | h
      · simp only [List.length_cons]; exact ⟨by omega, by omega, hb⟩
      · have := ih h; simp only [List.length_cons]; exact ⟨by omega, by omega, this.2.2⟩

theorem read_cellsOf (base : Nat) (bs : List Byte) (a : Nat) :
    Memory.read (cellsOf base bs) a = if base ≤ a then bs.getD (a - base) 0 else 0 := by
  induction bs generalizing base with
  | nil => simp [cellsOf]
  | cons b rest ih =>
    unfold cellsOf
    by_cases hb : b = unlistedByte
    · simp only [hb, if_true, ih]
      by_cases h1 : base ≤ a
      · rcases Nat.eq_or_lt_of_le h1 with rfl | h2
        · simp [unlistedByte]
        · obtain ⟨k, rfl⟩ : ∃ k, a = base + 1 + k := ⟨a - (base + 1), by omega⟩
          have : base + 1 + k - base = k + 1 := by omega
          simp [this, show base ≤ base + 1 + k by omega]
      · simp [h1, show ¬ base + 1 ≤ a by omega]
    · simp only [hb, if_false, Memory.read, ih]
      by_cases h0 : base = a
      · subst h0; simp
      · simp only [h0, if_false]
        by_cases h1 : base ≤ a
        · obtain ⟨k, rfl⟩ : ∃ k, a = base + 1 + k := ⟨a - (base + 1), by omega⟩
          have : base + 1 + k - base = k + 1 := by omega
          simp [this, show base ≤ base + 1 + k by omega]
        · simp [h1, show ¬ base + 1 ≤ a by omega]

/-! ### Reading after a store -/

/-- What a store does to one byte: the stored byte inside its range, the old byte outside it. -/
theorem read_store (m : Memory) (base : Nat) (bs : List Byte) (a : Nat) :
    (m.store base bs).read a =
      if base ≤ a ∧ a < base + bs.length then bs.getD (a - base) 0 else m.read a := by
  unfold Memory.store
  by_cases h1 : a < base
  · have hr : ∀ c ∈ m.filter (fun c => decide (base + bs.length ≤ c.1)), c.1 ≠ a := by
      intro c hc; simp only [List.mem_filter, decide_eq_true_eq] at hc; omega
    have hm : ∀ c ∈ cellsOf base bs, c.1 ≠ a := fun c hc => by have := mem_cellsOf hc; omega
    rw [read_append_of_mem_left _ _ _ hr, read_append_of_mem_left _ _ _ hm,
      read_filter m (fun x => decide (x < base)) a (by simpa using h1), if_neg (by omega)]
  · have hl : ∀ c ∈ m.filter (fun c => decide (c.1 < base)), c.1 ≠ a := by
      intro c hc; simp only [List.mem_filter, decide_eq_true_eq] at hc; omega
    rw [List.append_assoc, read_append_of_not_mem_left _ _ _ hl]
    by_cases h2 : a < base + bs.length
    · have hr : ∀ c ∈ m.filter (fun c => decide (base + bs.length ≤ c.1)), c.1 ≠ a := by
        intro c hc; simp only [List.mem_filter, decide_eq_true_eq] at hc; omega
      rw [read_append_of_mem_left _ _ _ hr, read_cellsOf, if_pos (by omega), if_pos (by omega)]
    · have hm : ∀ c ∈ cellsOf base bs, c.1 ≠ a := fun c hc => by have := mem_cellsOf hc; omega
      rw [read_append_of_not_mem_left _ _ _ hm,
        read_filter m (fun x => decide (base + bs.length ≤ x)) a (by simpa using (by omega)),
        if_neg (by omega)]

theorem read_store_inside (m : Memory) (base : Nat) (bs : List Byte) (i : Nat) (h : i < bs.length) :
    (m.store base bs).read (base + i) = bs.getD i 0 := by
  rw [read_store, if_pos (by omega), Nat.add_sub_cancel_left]

theorem read_store_outside (m : Memory) (base : Nat) (bs : List Byte) (a : Nat)
    (h : a < base ∨ base + bs.length ≤ a) : (m.store base bs).read a = m.read a := by
  rw [read_store, if_neg (by omega)]

/-! ### The canonical form -/

theorem cellsOf_pairwise (base : Nat) (bs : List Byte) :
    (cellsOf base bs).Pairwise (fun x y => x.1 < y.1) := by
  induction bs generalizing base with
  | nil => simp [cellsOf]
  | cons b rest ih =>
    unfold cellsOf
    split
    · exact ih _
    · refine List.Pairwise.cons ?_ (ih _)
      intro c hc
      have := mem_cellsOf hc
      show base < c.1
      omega

/-- Every store keeps the canonical form. -/
theorem store_wf {m : Memory} (hm : m.wf) (base : Nat) (bs : List Byte) : (m.store base bs).wf := by
  obtain ⟨hp, hz⟩ := hm
  unfold Memory.store
  refine ⟨?_, ?_⟩
  · rw [List.pairwise_append, List.pairwise_append]
    refine ⟨⟨hp.filter _, cellsOf_pairwise _ _, ?_⟩, hp.filter _, ?_⟩
    · intro x hx y hy
      have := mem_cellsOf hy
      simp only [List.mem_filter, decide_eq_true_eq] at hx
      omega
    · intro x hx y hy
      simp only [List.mem_filter, decide_eq_true_eq] at hy
      rcases List.mem_append.mp hx with hx | hx
      · simp only [List.mem_filter, decide_eq_true_eq] at hx; omega
      · have := mem_cellsOf hx; omega
  · intro c hc
    rcases List.mem_append.mp hc with hc | hc
    · rcases List.mem_append.mp hc with hc | hc
      · exact hz c (List.mem_filter.mp hc).1
      · exact (mem_cellsOf hc).2.2
    · exact hz c (List.mem_filter.mp hc).1

/-- A store inside the buffers lists bytes of the buffers only. -/
theorem store_mapped {m : Memory} (hm : m.mapped) (base : Nat) (bs : List Byte)
    (h : ∀ i < bs.length, isBufferAddr (base + i) = true) : (m.store base bs).mapped := by
  intro c hc
  unfold Memory.store at hc
  rcases List.mem_append.mp hc with hc | hc
  · rcases List.mem_append.mp hc with hc | hc
    · exact hm c (List.mem_filter.mp hc).1
    · have hb := mem_cellsOf hc
      have := h (c.1 - base) (by omega)
      rwa [Nat.add_sub_cancel' hb.1] at this
  · exact hm c (List.mem_filter.mp hc).1

theorem nil_wf : Memory.wf [] := ⟨List.Pairwise.nil, by simp⟩

theorem nil_mapped : Memory.mapped [] := by simp

/-- Two memories in canonical form that read alike at every address are equal. -/
theorem eq_of_read_eq {m m' : Memory} (h : m.wf) (h' : m'.wf) (hr : ∀ a, m.read a = m'.read a) : m = m' := by
  induction m generalizing m' with
  | nil =>
    cases m' with
    | nil => rfl
    | cons c cs =>
      obtain ⟨a, b⟩ := c
      have := hr a
      simp only [Memory.read, if_true] at this
      exact absurd this.symm (h'.2 (a, b) (by simp))
  | cons c cs ih =>
    obtain ⟨a, b⟩ := c
    obtain ⟨hp, hz⟩ := h
    have hcs : Memory.wf cs := ⟨(List.pairwise_cons.mp hp).2, fun c hc => hz c (by simp [hc])⟩
    have hlt := (List.pairwise_cons.mp hp).1
    have hb : b ≠ 0 := hz (a, b) (by simp)
    cases m' with
    | nil =>
      have := hr a
      simp only [Memory.read, if_true] at this
      exact absurd this hb
    | cons c' cs' =>
      obtain ⟨a', b'⟩ := c'
      obtain ⟨hp', hz'⟩ := h'
      have hcs' : Memory.wf cs' := ⟨(List.pairwise_cons.mp hp').2, fun c hc => hz' c (by simp [hc])⟩
      have hlt' := (List.pairwise_cons.mp hp').1
      have hb' : b' ≠ 0 := hz' (a', b') (by simp)
      have haa : a = a' := by
        rcases Nat.lt_trichotomy a a' with hlt1 | heq | hlt1
        · have h1 := hr a
          have h2 : Memory.read cs' a = 0 := read_of_not_mem _ _ fun c hc => by
            have := hlt' c hc; simp only at this; omega
          simp only [Memory.read, if_true, if_neg (show ¬ a' = a by omega), h2] at h1
          exact absurd h1 hb
        · exact heq
        · have h1 := hr a'
          have h2 : Memory.read cs a' = 0 := read_of_not_mem _ _ fun c hc => by
            have := hlt c hc; simp only at this; omega
          simp only [Memory.read, if_true, if_neg (show ¬ a = a' by omega), h2] at h1
          exact absurd h1.symm hb'
      subst haa
      have hbb : b = b' := by simpa [Memory.read] using hr a
      subst hbb
      congr 1
      refine ih hcs hcs' fun x => ?_
      by_cases hx : a = x
      · subst hx
        rw [read_of_not_mem cs a fun c hc => by have := hlt c hc; simp only at this; omega,
          read_of_not_mem cs' a fun c hc => by have := hlt' c hc; simp only at this; omega]
      · simpa [Memory.read, hx] using hr x

/-! ### Loads -/

@[simp] theorem load_zero (m : Memory) (base : Nat) : m.load base 0 = [] := rfl

@[simp] theorem load_length (m : Memory) (base n : Nat) : (m.load base n).length = n := by
  induction n generalizing base with
  | zero => rfl
  | succ n ih => simp [Memory.load, ih]

theorem load_getElem (m : Memory) (base n i : Nat) (h : i < (m.load base n).length) :
    (m.load base n)[i] = m.read (base + i) := by
  induction n generalizing base i with
  | zero => simp at h
  | succ n ih =>
    cases i with
    | zero => rfl
    | succ i =>
      have := ih (base + 1) i (by simpa [Memory.load] using h)
      simp only [Memory.load, List.getElem_cons_succ, this]
      congr 1; omega

theorem load_getD (m : Memory) (base n i : Nat) (h : i < n) :
    (m.load base n).getD i 0 = m.read (base + i) := by
  rw [List.getD_eq_getElem _ _ (by simpa using h), load_getElem]

theorem mem_load {m : Memory} {base n : Nat} {b : Byte} :
    b ∈ m.load base n ↔ ∃ i < n, m.read (base + i) = b := by
  constructor
  · intro h
    obtain ⟨i, hi, rfl⟩ := List.getElem_of_mem h
    exact ⟨i, by simpa using hi, (load_getElem _ _ _ _ _).symm⟩
  · rintro ⟨i, hi, rfl⟩
    rw [← load_getElem m base n i (by simpa using hi)]
    exact List.getElem_mem _

/-- Loads that read the same bytes are equal. -/
theorem load_congr (m m' : Memory) (base n : Nat) (h : ∀ i < n, m.read (base + i) = m'.read (base + i)) :
    m.load base n = m'.load base n := by
  apply List.ext_getElem (by simp)
  intro i h1 h2
  rw [load_getElem, load_getElem]
  exact h i (by simpa using h1)

/-- What was stored is what is loaded. -/
theorem load_store_same (m : Memory) (base : Nat) (bs : List Byte) :
    (m.store base bs).load base bs.length = bs := by
  apply List.ext_getElem (by simp)
  intro i h1 h2
  rw [load_getElem, read_store_inside _ _ _ _ h2, List.getD_eq_getElem _ _ h2]

/-- A store outside a range leaves the load of that range. -/
theorem load_store_disjoint (m : Memory) (base n base' : Nat) (bs : List Byte)
    (h : base + n ≤ base' ∨ base' + bs.length ≤ base) :
    (m.store base' bs).load base n = m.load base n :=
  load_congr _ _ _ _ fun i hi => read_store_outside _ _ _ _ (by omega)

/-! ### Byte order -/

@[simp] theorem leBytes_length (n : Nat) (v : Word) : (leBytes n v).length = n := by
  induction n generalizing v with
  | zero => rfl
  | succ n ih => simp [leBytes, ih]

/-- Byte k of a stored word is v[8k+7:8k] (20_memory.md R62). -/
theorem leBytes_getD (n k : Nat) (v : Word) (h : k < n) : (leBytes n v).getD k 0 = v.extractLsb' (8 * k) 8 := by
  induction n generalizing k v with
  | zero => omega
  | succ n ih =>
    cases k with
    | zero => simp [leBytes]
    | succ k =>
      simp only [leBytes, List.getD_cons_succ, ih k _ (by omega)]
      ext i hi
      simp only [BitVec.getElem_extractLsb', BitVec.getLsbD_ushiftRight]
      congr 1; omega

end Sys2Proof.Machine
end

