-- ==== Sys2Proof/Laws/State.lean ====
section
/-! SUPPORT. What each named update of the state does to each field: one lemma per field, true by rfl, so that no proof
unfolds an update. -/

namespace Sys2Proof.Machine

/-! ### `accept` -/

@[simp] theorem accept_ctrl (s : State) (w : Word) : (accept s w).ctrl = s.ctrl := rfl
@[simp] theorem accept_status_busy (s : State) (w : Word) : (accept s w).status.busy = true := rfl
@[simp] theorem accept_status_done (s : State) (w : Word) : (accept s w).status.done = false := rfl
@[simp] theorem accept_status_bviol (s : State) (w : Word) : (accept s w).status.bviol = s.status.bviol := rfl
@[simp] theorem accept_status_err (s : State) (w : Word) : (accept s w).status.err = .ok := rfl
@[simp] theorem accept_status_op (s : State) (w : Word) : (accept s w).status.op = w.extractLsb' 0 8 := rfl
@[simp] theorem accept_cmd (s : State) (w : Word) : (accept s w).cmd = w := rfl
@[simp] theorem accept_prefixLen (s : State) (w : Word) : (accept s w).prefixLen = s.prefixLen := rfl
@[simp] theorem accept_inLen (s : State) (w : Word) : (accept s w).inLen = s.inLen := rfl
@[simp] theorem accept_outLen (s : State) (w : Word) : (accept s w).outLen = s.outLen := rfl
@[simp] theorem accept_result (s : State) (w : Word) : (accept s w).result = s.result := rfl
@[simp] theorem accept_pmAcc (s : State) (w : Word) : (accept s w).pmAcc = s.pmAcc := rfl
@[simp] theorem accept_mod (s : State) (w : Word) : (accept s w).mod = s.mod := rfl
@[simp] theorem accept_mem (s : State) (w : Word) : (accept s w).mem = s.mem := rfl
@[simp] theorem accept_ucfSnap (s : State) (w : Word) : (accept s w).ucfSnap = s.ctrl.ucf := rfl
@[simp] theorem accept_rst (s : State) (w : Word) : (accept s w).rst = s.rst := rfl
@[simp] theorem accept_sizeTable (s : State) (w : Word) : (accept s w).sizeTable = s.sizeTable := rfl
@[simp] theorem accept_pending (s : State) (w : Word) : (accept s w).pending = s.pending := rfl
@[simp] theorem accept_resp (s : State) (w : Word) : (accept s w).resp = s.resp := rfl

/-! ### `completeWith` -/

@[simp] theorem completeWith_ctrl (s : State) (e : ErrCode) : (completeWith s e).ctrl = s.ctrl := rfl
@[simp] theorem completeWith_status_busy (s : State) (e : ErrCode) : (completeWith s e).status.busy = false := rfl
@[simp] theorem completeWith_status_done (s : State) (e : ErrCode) : (completeWith s e).status.done = true := rfl
@[simp] theorem completeWith_status_bviol (s : State) (e : ErrCode)
    : (completeWith s e).status.bviol = s.status.bviol := rfl
@[simp] theorem completeWith_status_err (s : State) (e : ErrCode) : (completeWith s e).status.err = e := rfl
@[simp] theorem completeWith_status_op (s : State) (e : ErrCode) : (completeWith s e).status.op = s.status.op := rfl
@[simp] theorem completeWith_cmd (s : State) (e : ErrCode) : (completeWith s e).cmd = s.cmd := rfl
@[simp] theorem completeWith_prefixLen (s : State) (e : ErrCode) : (completeWith s e).prefixLen = s.prefixLen := rfl
@[simp] theorem completeWith_inLen (s : State) (e : ErrCode) : (completeWith s e).inLen = s.inLen := rfl
@[simp] theorem completeWith_outLen (s : State) (e : ErrCode) : (completeWith s e).outLen = s.outLen := rfl
@[simp] theorem completeWith_result (s : State) (e : ErrCode) : (completeWith s e).result = s.result := rfl
@[simp] theorem completeWith_pmAcc (s : State) (e : ErrCode) : (completeWith s e).pmAcc = s.pmAcc := rfl
@[simp] theorem completeWith_mod (s : State) (e : ErrCode) : (completeWith s e).mod = s.mod := rfl
@[simp] theorem completeWith_mem (s : State) (e : ErrCode) : (completeWith s e).mem = s.mem := rfl
@[simp] theorem completeWith_ucfSnap (s : State) (e : ErrCode) : (completeWith s e).ucfSnap = s.ucfSnap := rfl
@[simp] theorem completeWith_rst (s : State) (e : ErrCode) : (completeWith s e).rst = s.rst := rfl
@[simp] theorem completeWith_sizeTable (s : State) (e : ErrCode) : (completeWith s e).sizeTable = s.sizeTable := rfl
@[simp] theorem completeWith_pending (s : State) (e : ErrCode) : (completeWith s e).pending = s.pending := rfl
@[simp] theorem completeWith_resp (s : State) (e : ErrCode) : (completeWith s e).resp = s.resp := rfl

/-! ### `completeIllegal` -/

@[simp] theorem completeIllegal_ctrl (s : State) : (completeIllegal s).ctrl = s.ctrl := rfl
@[simp] theorem completeIllegal_status_busy (s : State) : (completeIllegal s).status.busy = false := rfl
@[simp] theorem completeIllegal_status_done (s : State) : (completeIllegal s).status.done = true := rfl
@[simp] theorem completeIllegal_status_bviol (s : State) : (completeIllegal s).status.bviol = s.status.bviol := rfl
@[simp] theorem completeIllegal_status_err (s : State) : (completeIllegal s).status.err = .illegalCmd := rfl
@[simp] theorem completeIllegal_status_op (s : State) : (completeIllegal s).status.op = s.status.op := rfl
@[simp] theorem completeIllegal_cmd (s : State) : (completeIllegal s).cmd = s.cmd := rfl
@[simp] theorem completeIllegal_prefixLen (s : State) : (completeIllegal s).prefixLen = s.prefixLen := rfl
@[simp] theorem completeIllegal_inLen (s : State) : (completeIllegal s).inLen = s.inLen := rfl
@[simp] theorem completeIllegal_outLen (s : State) : (completeIllegal s).outLen = s.outLen := rfl
@[simp] theorem completeIllegal_result (s : State) : (completeIllegal s).result = s.result := rfl
@[simp] theorem completeIllegal_pmAcc (s : State) : (completeIllegal s).pmAcc = s.pmAcc := rfl
@[simp] theorem completeIllegal_mod (s : State) : (completeIllegal s).mod = s.mod := rfl
@[simp] theorem completeIllegal_mem (s : State) : (completeIllegal s).mem = s.mem := rfl
@[simp] theorem completeIllegal_ucfSnap (s : State) : (completeIllegal s).ucfSnap = s.ucfSnap := rfl
@[simp] theorem completeIllegal_rst (s : State) : (completeIllegal s).rst = s.rst := rfl
@[simp] theorem completeIllegal_sizeTable (s : State) : (completeIllegal s).sizeTable = s.sizeTable := rfl
@[simp] theorem completeIllegal_pending (s : State) : (completeIllegal s).pending = s.pending := rfl
@[simp] theorem completeIllegal_resp (s : State) : (completeIllegal s).resp = s.resp := rfl

/-! ### `markViolation` -/

@[simp] theorem markViolation_ctrl (s : State) : (markViolation s).ctrl = s.ctrl := rfl
@[simp] theorem markViolation_status_busy (s : State) : (markViolation s).status.busy = s.status.busy := rfl
@[simp] theorem markViolation_status_done (s : State) : (markViolation s).status.done = s.status.done := rfl
@[simp] theorem markViolation_status_bviol (s : State) : (markViolation s).status.bviol = true := rfl
@[simp] theorem markViolation_status_err (s : State) : (markViolation s).status.err = s.status.err := rfl
@[simp] theorem markViolation_status_op (s : State) : (markViolation s).status.op = s.status.op := rfl
@[simp] theorem markViolation_cmd (s : State) : (markViolation s).cmd = s.cmd := rfl
@[simp] theorem markViolation_prefixLen (s : State) : (markViolation s).prefixLen = s.prefixLen := rfl
@[simp] theorem markViolation_inLen (s : State) : (markViolation s).inLen = s.inLen := rfl
@[simp] theorem markViolation_outLen (s : State) : (markViolation s).outLen = s.outLen := rfl
@[simp] theorem markViolation_result (s : State) : (markViolation s).result = s.result := rfl
@[simp] theorem markViolation_pmAcc (s : State) : (markViolation s).pmAcc = s.pmAcc := rfl
@[simp] theorem markViolation_mod (s : State) : (markViolation s).mod = s.mod := rfl
@[simp] theorem markViolation_mem (s : State) : (markViolation s).mem = s.mem := rfl
@[simp] theorem markViolation_ucfSnap (s : State) : (markViolation s).ucfSnap = s.ucfSnap := rfl
@[simp] theorem markViolation_rst (s : State) : (markViolation s).rst = s.rst := rfl
@[simp] theorem markViolation_sizeTable (s : State) : (markViolation s).sizeTable = s.sizeTable := rfl
@[simp] theorem markViolation_pending (s : State) : (markViolation s).pending = s.pending := rfl
@[simp] theorem markViolation_resp (s : State) : (markViolation s).resp = s.resp := rfl

/-! ### `resetCore` -/

@[simp] theorem resetCore_ctrl (s : State) : (resetCore s).ctrl = ⟨false, false⟩ := rfl
@[simp] theorem resetCore_status (s : State) : (resetCore s).status = ⟨false, false, false, .ok, 0x00⟩ := rfl
@[simp] theorem resetCore_cmd (s : State) : (resetCore s).cmd = 0 := rfl
@[simp] theorem resetCore_prefixLen (s : State) : (resetCore s).prefixLen = 0 := rfl
@[simp] theorem resetCore_inLen (s : State) : (resetCore s).inLen = 0 := rfl
@[simp] theorem resetCore_outLen (s : State) : (resetCore s).outLen = 0 := rfl
@[simp] theorem resetCore_result (s : State) : (resetCore s).result = 0 := rfl
@[simp] theorem resetCore_pmAcc (s : State) : (resetCore s).pmAcc = 1 := rfl
@[simp] theorem resetCore_mod (s : State) : (resetCore s).mod = 0 := rfl
@[simp] theorem resetCore_mem (s : State) : (resetCore s).mem = [] := rfl
@[simp] theorem resetCore_ucfSnap (s : State) : (resetCore s).ucfSnap = false := rfl
@[simp] theorem resetCore_rst (s : State) : (resetCore s).rst = s.rst := rfl
@[simp] theorem resetCore_sizeTable (s : State) : (resetCore s).sizeTable = s.sizeTable := rfl
@[simp] theorem resetCore_pending (s : State) : (resetCore s).pending = s.pending := rfl
@[simp] theorem resetCore_resp (s : State) : (resetCore s).resp = s.resp := rfl

/-! ### `assertReset` -/

@[simp] theorem assertReset_ctrl (s : State) : (assertReset s).ctrl = ⟨false, false⟩ := rfl
@[simp] theorem assertReset_status (s : State) : (assertReset s).status = ⟨false, false, false, .ok, 0x00⟩ := rfl
@[simp] theorem assertReset_cmd (s : State) : (assertReset s).cmd = 0 := rfl
@[simp] theorem assertReset_prefixLen (s : State) : (assertReset s).prefixLen = 0 := rfl
@[simp] theorem assertReset_inLen (s : State) : (assertReset s).inLen = 0 := rfl
@[simp] theorem assertReset_outLen (s : State) : (assertReset s).outLen = 0 := rfl
@[simp] theorem assertReset_result (s : State) : (assertReset s).result = 0 := rfl
@[simp] theorem assertReset_pmAcc (s : State) : (assertReset s).pmAcc = 1 := rfl
@[simp] theorem assertReset_mod (s : State) : (assertReset s).mod = 0 := rfl
@[simp] theorem assertReset_mem (s : State) : (assertReset s).mem = [] := rfl
@[simp] theorem assertReset_ucfSnap (s : State) : (assertReset s).ucfSnap = false := rfl
@[simp] theorem assertReset_rst (s : State) : (assertReset s).rst = true := rfl
@[simp] theorem assertReset_sizeTable (s : State) : (assertReset s).sizeTable = s.sizeTable := rfl
@[simp] theorem assertReset_pending (s : State) : (assertReset s).pending = s.pending := rfl
@[simp] theorem assertReset_resp (s : State) : (assertReset s).resp = s.resp := rfl

/-! ### `releaseReset` -/

@[simp] theorem releaseReset_ctrl (s : State) : (releaseReset s).ctrl = ⟨false, false⟩ := rfl
@[simp] theorem releaseReset_status (s : State) : (releaseReset s).status = ⟨false, false, false, .ok, 0x00⟩ := rfl
@[simp] theorem releaseReset_cmd (s : State) : (releaseReset s).cmd = 0 := rfl
@[simp] theorem releaseReset_prefixLen (s : State) : (releaseReset s).prefixLen = 0 := rfl
@[simp] theorem releaseReset_inLen (s : State) : (releaseReset s).inLen = 0 := rfl
@[simp] theorem releaseReset_outLen (s : State) : (releaseReset s).outLen = 0 := rfl
@[simp] theorem releaseReset_result (s : State) : (releaseReset s).result = 0 := rfl
@[simp] theorem releaseReset_pmAcc (s : State) : (releaseReset s).pmAcc = 1 := rfl
@[simp] theorem releaseReset_mod (s : State) : (releaseReset s).mod = 0 := rfl
@[simp] theorem releaseReset_mem (s : State) : (releaseReset s).mem = [] := rfl
@[simp] theorem releaseReset_ucfSnap (s : State) : (releaseReset s).ucfSnap = false := rfl
@[simp] theorem releaseReset_rst (s : State) : (releaseReset s).rst = false := rfl
@[simp] theorem releaseReset_sizeTable (s : State) : (releaseReset s).sizeTable = s.sizeTable := rfl
@[simp] theorem releaseReset_pending (s : State) : (releaseReset s).pending = s.pending := rfl
@[simp] theorem releaseReset_resp (s : State) : (releaseReset s).resp = s.resp := rfl

/-! ### `writeOut` -/

@[simp] theorem writeOut_ctrl (s : State) (r : Except ErrCode (List Byte)) : (writeOut s r).ctrl = s.ctrl := rfl
@[simp] theorem writeOut_status (s : State) (r : Except ErrCode (List Byte)) : (writeOut s r).status = s.status := rfl
@[simp] theorem writeOut_cmd (s : State) (r : Except ErrCode (List Byte)) : (writeOut s r).cmd = s.cmd := rfl
@[simp] theorem writeOut_prefixLen (s : State) (r : Except ErrCode (List Byte))
    : (writeOut s r).prefixLen = s.prefixLen := rfl
@[simp] theorem writeOut_inLen (s : State) (r : Except ErrCode (List Byte)) : (writeOut s r).inLen = s.inLen := rfl
@[simp] theorem writeOut_outLen (s : State) (r : Except ErrCode (List Byte))
    : (writeOut s r).outLen = BitVec.ofNat 16 (outBytesOf r).length := rfl
@[simp] theorem writeOut_result (s : State) (r : Except ErrCode (List Byte)) : (writeOut s r).result = s.result := rfl
@[simp] theorem writeOut_pmAcc (s : State) (r : Except ErrCode (List Byte)) : (writeOut s r).pmAcc = s.pmAcc := rfl
@[simp] theorem writeOut_mod (s : State) (r : Except ErrCode (List Byte)) : (writeOut s r).mod = s.mod := rfl
@[simp] theorem writeOut_mem (s : State) (r : Except ErrCode (List Byte)) : (writeOut s r).mem = s.mem.store outBase
      (outBytesOf r ++ List.replicate (Config.outCap - (outBytesOf r).length) 0x00) := rfl
@[simp] theorem writeOut_ucfSnap (s : State) (r : Except ErrCode (List Byte)) : (writeOut s r).ucfSnap = s.ucfSnap :=
    rfl
@[simp] theorem writeOut_rst (s : State) (r : Except ErrCode (List Byte)) : (writeOut s r).rst = s.rst := rfl
@[simp] theorem writeOut_sizeTable (s : State) (r : Except ErrCode (List Byte))
    : (writeOut s r).sizeTable = s.sizeTable := rfl
@[simp] theorem writeOut_pending (s : State) (r : Except ErrCode (List Byte)) : (writeOut s r).pending = s.pending :=
    rfl
@[simp] theorem writeOut_resp (s : State) (r : Except ErrCode (List Byte)) : (writeOut s r).resp = s.resp := rfl

/-! ### `writeResult` -/

@[simp] theorem writeResult_ctrl (s : State) (e : ErrCode) (vb : Byte) : (writeResult s e vb).ctrl = s.ctrl := rfl
@[simp] theorem writeResult_status (s : State) (e : ErrCode) (vb : Byte) : (writeResult s e vb).status = s.status := rfl
@[simp] theorem writeResult_cmd (s : State) (e : ErrCode) (vb : Byte) : (writeResult s e vb).cmd = s.cmd := rfl
@[simp] theorem writeResult_prefixLen (s : State) (e : ErrCode) (vb : Byte)
    : (writeResult s e vb).prefixLen = s.prefixLen := rfl
@[simp] theorem writeResult_inLen (s : State) (e : ErrCode) (vb : Byte) : (writeResult s e vb).inLen = s.inLen := rfl
@[simp] theorem writeResult_outLen (s : State) (e : ErrCode) (vb : Byte) : (writeResult s e vb).outLen = s.outLen := rfl
@[simp] theorem writeResult_result (s : State) (e : ErrCode) (vb : Byte)
    : (writeResult s e vb).result = if e = .ok then resultWord vb else 0 := rfl
@[simp] theorem writeResult_pmAcc (s : State) (e : ErrCode) (vb : Byte) : (writeResult s e vb).pmAcc = s.pmAcc := rfl
@[simp] theorem writeResult_mod (s : State) (e : ErrCode) (vb : Byte) : (writeResult s e vb).mod = s.mod := rfl
@[simp] theorem writeResult_mem (s : State) (e : ErrCode) (vb : Byte) : (writeResult s e vb).mem = s.mem := rfl
@[simp] theorem writeResult_ucfSnap (s : State) (e : ErrCode) (vb : Byte)
    : (writeResult s e vb).ucfSnap = s.ucfSnap := rfl
@[simp] theorem writeResult_rst (s : State) (e : ErrCode) (vb : Byte) : (writeResult s e vb).rst = s.rst := rfl
@[simp] theorem writeResult_sizeTable (s : State) (e : ErrCode) (vb : Byte)
    : (writeResult s e vb).sizeTable = s.sizeTable := rfl
@[simp] theorem writeResult_pending (s : State) (e : ErrCode) (vb : Byte)
    : (writeResult s e vb).pending = s.pending := rfl
@[simp] theorem writeResult_resp (s : State) (e : ErrCode) (vb : Byte) : (writeResult s e vb).resp = s.resp := rfl

/-! ### `writeMod` -/

@[simp] theorem writeMod_ctrl (s : State) (m : Option Acc) : (writeMod s m).ctrl = s.ctrl := rfl
@[simp] theorem writeMod_status (s : State) (m : Option Acc) : (writeMod s m).status = s.status := rfl
@[simp] theorem writeMod_cmd (s : State) (m : Option Acc) : (writeMod s m).cmd = s.cmd := rfl
@[simp] theorem writeMod_prefixLen (s : State) (m : Option Acc) : (writeMod s m).prefixLen = s.prefixLen := rfl
@[simp] theorem writeMod_inLen (s : State) (m : Option Acc) : (writeMod s m).inLen = s.inLen := rfl
@[simp] theorem writeMod_outLen (s : State) (m : Option Acc) : (writeMod s m).outLen = s.outLen := rfl
@[simp] theorem writeMod_result (s : State) (m : Option Acc) : (writeMod s m).result = s.result := rfl
@[simp] theorem writeMod_pmAcc (s : State) (m : Option Acc) : (writeMod s m).pmAcc = s.pmAcc := rfl
@[simp] theorem writeMod_mod (s : State) (m : Option Acc) : (writeMod s m).mod = m.getD 0 := rfl
@[simp] theorem writeMod_mem (s : State) (m : Option Acc) : (writeMod s m).mem = s.mem := rfl
@[simp] theorem writeMod_ucfSnap (s : State) (m : Option Acc) : (writeMod s m).ucfSnap = s.ucfSnap := rfl
@[simp] theorem writeMod_rst (s : State) (m : Option Acc) : (writeMod s m).rst = s.rst := rfl
@[simp] theorem writeMod_sizeTable (s : State) (m : Option Acc) : (writeMod s m).sizeTable = s.sizeTable := rfl
@[simp] theorem writeMod_pending (s : State) (m : Option Acc) : (writeMod s m).pending = s.pending := rfl
@[simp] theorem writeMod_resp (s : State) (m : Option Acc) : (writeMod s m).resp = s.resp := rfl

/-! ### `writePmAcc` and `writeCtrl` are in Laws/Ops.lean: they case on their argument. -/

end Sys2Proof.Machine
end

