-- ==== Sys2Proof/Laws/Ops.lean ====
section
/-! SUPPORT. What each shared operation can do, said once: the port's accesses, register writes, resets, and what a
completing command writes. Proofs cite these lemmas and do not unfold the operations. -/

namespace Sys2Proof.Machine

/-! ### The port -/

/-- MemRead answers BusError, a refused read, or the region's data with the state unchanged. -/
theorem memRead_cases (s : State) (a : HostAddr) (n : Nat) :
    (raisesBusError a n = true ∧ memRead s a n = .error (.busError a)) ∨
    (raisesBusError a n = false ∧ busyRefuses s a = true ∧ memRead s a n = .ok (0, markViolation s)) ∨
    (raisesBusError a n = false ∧ busyRefuses s a = false ∧ memRead s a n = .ok (regionRead s a n, s)) := by
  unfold memRead
  cases h1 : raisesBusError a n <;> cases h2 : busyRefuses s a <;> simp

/-- MemWrite answers BusError, a refused write, or the region's write. -/
theorem memWrite_cases (s : State) (a : HostAddr) (n : Nat) (v : Word) :
    (raisesBusError a n = true ∧ memWrite s a n v = .error (.busError a)) ∨
    (raisesBusError a n = false ∧ busyRefuses s a = true ∧ memWrite s a n v = .ok (markViolation s)) ∨
    (raisesBusError a n = false ∧ busyRefuses s a = false ∧ memWrite s a n v = .ok (regionWrite s a n v)) := by
  unfold memWrite
  cases h1 : raisesBusError a n <;> cases h2 : busyRefuses s a <;> simp

/-- A performed access leaves the state as it was, marks a violation, or writes a region; and it sets the response. -/
theorem performAccess_cases (s : State) (h : HostAccess) :
    ∃ r, performAccess s h = { s with resp := some r } ∨
      (performAccess s h = { markViolation s with resp := some r } ∧ s.status.busy = true) ∨
      (∃ a n v, h = .write a n v ∧ raisesBusError a n = false ∧ busyRefuses s a = false ∧
        performAccess s h = { regionWrite s a n v with resp := some r }) := by
  cases h with
  | read a n =>
    rcases memRead_cases s a n with ⟨_, h2⟩ | ⟨_, hb, h2⟩ | ⟨_, _, h2⟩
    · exact ⟨.busError, .inl (by simp [performAccess, h2])⟩
    · refine ⟨.data 0, .inr (.inl ⟨by simp [performAccess, h2], ?_⟩)⟩
      unfold busyRefuses at hb
      exact (Bool.and_eq_true_iff.mp hb).1
    · exact ⟨.data (regionRead s a n), .inl (by simp [performAccess, h2])⟩
  | write a n v =>
    rcases memWrite_cases s a n v with ⟨_, h2⟩ | ⟨_, hb, h2⟩ | ⟨h0, h1, h2⟩
    · exact ⟨.busError, .inl (by simp [performAccess, h2])⟩
    · refine ⟨.done, .inr (.inl ⟨by simp [performAccess, h2], ?_⟩)⟩
      unfold busyRefuses at hb
      exact (Bool.and_eq_true_iff.mp hb).1
    · exact ⟨.done, .inr (.inr ⟨a, n, v, rfl, h0, h1, by simp [performAccess, h2]⟩)⟩

theorem portAccess_of_rst {s : State} (h : s.rst = true) (x : HostAccess) :
    portAccess s x = { s with resp := none } := by simp [portAccess, h]

theorem portAccess_of_not_rst {s : State} (h : s.rst = false) (x : HostAccess) :
    portAccess s x = performAccess s x := by simp [portAccess, h]

/-- The busy filter lets an access pass while BUSY = 1 exactly at ID, CTRL and STATUS. -/
theorem open_of_busy_of_not_refused {s : State} {a : HostAddr} (hb : s.status.busy = true)
    (h : busyRefuses s a = false) : a = 0x000 ∨ a = 0x004 ∨ a = 0x008 := by
  unfold busyRefuses openWhileBusy at h
  simp only [hb, Bool.true_and, Bool.not_eq_eq_eq_not, Bool.not_false, Bool.or_eq_true, beq_iff_eq] at h
  tauto

/-! ### Regions and registers -/

/-- The offset of a register (10_state.md R22). -/
def regOffset : Reg → Nat
  | .id => 0x000 | .ctrl => 0x004 | .status => 0x008 | .cmd => 0x00C | .prefixLen => 0x010 | .inLen => 0x014
  | .outLen => 0x018 | .result => 0x01C | .pmAccLo => 0x020 | .pmAccHi => 0x024 | .pmResLo => 0x028
  | .pmResHi => 0x02C | .modLo => 0x030 | .modHi => 0x034

theorem regTable_offset : ∀ x ∈ regTable, x.1 = regOffset x.2 := by decide

theorem regAt_offset {off : Nat} {r : Reg} (h : regAt off = some r) : off = regOffset r := by
  unfold regAt at h
  obtain ⟨x, hx, rfl⟩ := Option.map_eq_some_iff.mp h
  rw [← regTable_offset x (List.mem_of_find?_eq_some hx)]
  have hk : (x.1 == off) = true := List.find?_some (p := fun x : Nat × Reg => x.1 == off) hx
  exact (beq_iff_eq.mp hk).symm

theorem regAt_regOffset (r : Reg) : regAt (regOffset r) = some r := by cases r <;> rfl

/-- A register write leaves the state, or resets it, or changes one register; a CMD write accepts. -/
theorem csrWrite_cases (s : State) (off : Nat) (v : Word) :
    csrWrite s off v = s ∨
    (off = 0x004 ∧ v.getLsbD 2 = true ∧ csrWrite s off v = resetCore s) ∨
    (off = 0x004 ∧ v.getLsbD 2 = false ∧ csrWrite s off v = { s with ctrl := ⟨v.getLsbD 0, v.getLsbD 1⟩ }) ∨
    (off = 0x008 ∧ csrWrite s off v = { s with status := clearStatus s.status v }) ∨
    (off = 0x00C ∧ csrWrite s off v = accept s v) ∨
    (off = 0x010 ∧ csrWrite s off v = { s with prefixLen := v.extractLsb' 0 16 }) ∨
    (off = 0x014 ∧ csrWrite s off v = { s with inLen := v.extractLsb' 0 16 }) ∨
    (off = 0x020 ∧ csrWrite s off v = { s with pmAcc := s.pmAcc.extractLsb' 32 8 ++ v }) ∨
    (off = 0x024 ∧ csrWrite s off v = { s with pmAcc := v.extractLsb' 0 8 ++ s.pmAcc.extractLsb' 0 32 }) := by
  cases hr : regAt off with
  | none => exact .inl (by simp [csrWrite, hr])
  | some r =>
    have ho := regAt_offset hr
    have hw : csrWrite s off v = writeReg s r v := by simp [csrWrite, hr]
    cases r <;> simp only [regOffset] at ho <;> simp only [writeReg] at hw
    case ctrl =>
      unfold writeCtrl at hw
      split at hw
      · next h2 => exact .inr (.inl ⟨ho, h2, hw⟩)
      · next h2 => exact .inr (.inr (.inl ⟨ho, by simpa using h2, hw⟩))
    all_goals simp_all

/-- A region write is a register write, a store into PREFIX or IN, or nothing. -/
theorem regionWrite_cases (s : State) (a : HostAddr) (n : Nat) (v : Word) :
    (a.toNat < prefixBase ∧ regionWrite s a n v = csrWrite s a.toNat v) ∨
    (((prefixBase ≤ a.toNat ∧ a.toNat < prefixEnd) ∨ (inBase ≤ a.toNat ∧ a.toNat < outBase)) ∧
      regionWrite s a n v = { s with mem := s.mem.store a.toNat (leBytes n v) }) ∨
    (((prefixEnd ≤ a.toNat ∧ a.toNat < inBase) ∨ outBase ≤ a.toNat) ∧ regionWrite s a n v = s) := by
  unfold regionWrite
  by_cases h1 : a.toNat < prefixBase
  · exact .inl ⟨h1, by rw [if_pos h1]⟩
  · rw [if_neg h1]
    by_cases h2 : a.toNat < prefixEnd
    · exact .inr (.inl ⟨.inl ⟨Nat.le_of_not_lt h1, h2⟩, by rw [if_pos h2]⟩)
    · rw [if_neg h2]
      by_cases h3 : a.toNat < inBase
      · exact .inr (.inr ⟨.inl ⟨Nat.le_of_not_lt h2, h3⟩, by rw [if_pos h3]⟩)
      · rw [if_neg h3]
        by_cases h4 : a.toNat < outBase
        · exact .inr (.inl ⟨.inr ⟨Nat.le_of_not_lt h3, h4⟩, by rw [if_pos h4]⟩)
        · exact .inr (.inr ⟨.inr (Nat.le_of_not_lt h4), by rw [if_neg h4]⟩)

/-- The access checks an access passed: a size of the port, natural alignment, a mapped address, 32 bits for a
register. -/
theorem passes_checks {a : HostAddr} {n : Nat} (h : raisesBusError a n = false) :
    a.toNat < 0x400 ∧ (n = 1 ∨ n = 2 ∨ n = 4) ∧ a.toNat % n = 0 ∧ (a.toNat < 0x100 → n = 4) := by
  unfold raisesBusError isAccessSize unmappedBase prefixBase at h
  simp only [Bool.or_eq_false_iff, decide_eq_false_iff_not, Nat.not_le, Bool.not_eq_eq_eq_not, Bool.not_false,
    Bool.or_eq_true, beq_iff_eq, bne_eq_false_iff_eq, Bool.and_eq_false_imp, decide_eq_true_eq] at h
  obtain ⟨⟨h1, h2, h3⟩, h4⟩ := h
  exact ⟨h1, by tauto, h3, h4⟩

/-- An access that passed its checks stays inside its region. -/
theorem passes_inside {a : HostAddr} {n : Nat} (h : raisesBusError a n = false) (b : Nat)
    (hb : b % 4 = 0) (ha : a.toNat < b) : a.toNat + n ≤ b := by
  obtain ⟨_, hn, hm, _⟩ := passes_checks h
  rcases hn with rfl | rfl | rfl <;> omega

/-! ### What a completing command writes -/

@[simp] theorem writePmAcc_ok (s : State) (c : Acc) : writePmAcc s (.ok c) = { s with pmAcc := c } := rfl

@[simp] theorem writePmAcc_error (s : State) (e : ErrCode) : writePmAcc s (.error e) = s := rfl

@[simp] theorem codeOf_ok {α : Type} (x : α) : codeOf (.ok x : Except ErrCode α) = .ok := rfl

@[simp] theorem codeOf_error {α : Type} (e : ErrCode) : codeOf (.error e : Except ErrCode α) = e := rfl

@[simp] theorem outBytesOf_ok (bs : List Byte) : outBytesOf (.ok bs) = bs := rfl

@[simp] theorem outBytesOf_error (e : ErrCode) : outBytesOf (.error e) = [] := rfl

@[simp] theorem settleOut_error (e : ErrCode) : settleOut (.error e) = .error e := rfl

theorem settleOut_ok_of_fits {bs : List Byte} (h : bs.length ≤ 256) : settleOut (.ok bs) = .ok bs := by
  simp [settleOut, Config.outCap, Nat.not_lt.mpr h]

theorem settleOut_ok_of_long {bs : List Byte} (h : 256 < bs.length) : settleOut (.ok bs) = .error .overflow := by
  simp [settleOut, Config.outCap, h]

/-- A settled result is an error, the OVERFLOW of a long result, or bytes that fit OUT. -/
theorem settleOut_cases (r : Except ErrCode (List Byte)) :
    (∃ e, r = .error e ∧ settleOut r = .error e) ∨
    (∃ bs, r = .ok bs ∧ 256 < bs.length ∧ settleOut r = .error .overflow) ∨
    (∃ bs, r = .ok bs ∧ bs.length ≤ 256 ∧ settleOut r = .ok bs) := by
  cases r with
  | error e => exact .inl ⟨e, rfl, rfl⟩
  | ok bs =>
    by_cases h : 256 < bs.length
    · exact .inr (.inl ⟨bs, rfl, h, settleOut_ok_of_long h⟩)
    · exact .inr (.inr ⟨bs, rfl, by omega, settleOut_ok_of_fits (by omega)⟩)

theorem outBytesOf_settleOut_length (r : Except ErrCode (List Byte)) :
    (outBytesOf (settleOut r)).length ≤ 256 := by
  rcases settleOut_cases r with ⟨e, _, h⟩ | ⟨bs, _, _, h⟩ | ⟨bs, _, hl, h⟩ <;> rw [h] <;> simp_all

/-- What WriteOut does to one byte: the result in OUT, zero behind it, every other byte as before. -/
theorem read_writeOut (s : State) (r : Except ErrCode (List Byte)) (h : (outBytesOf r).length ≤ 256) (a : Nat) :
    (writeOut s r).mem.read a =
      if 0x300 ≤ a ∧ a < 0x400 then (outBytesOf r).getD (a - 0x300) 0 else s.mem.read a := by
  rw [writeOut_mem, read_store]
  have hlen : (outBytesOf r ++ List.replicate (Config.outCap - (outBytesOf r).length) 0x00).length = 256 := by
    simp [Config.outCap]; omega
  simp only [hlen, outBase, show 0x300 + 256 = 0x400 from rfl]
  split
  · by_cases hi : a - 0x300 < (outBytesOf r).length
    · rw [List.getD_eq_getElem?_getD, List.getD_eq_getElem?_getD, List.getElem?_append_left hi]
    · rw [List.getD_eq_getElem?_getD, List.getElem?_append_right (by omega), List.getD_eq_getElem?_getD,
        List.getElem?_eq_none (by omega : (outBytesOf r).length ≤ a - 0x300)]
      simp only [Config.outCap, List.getElem?_replicate]
      split <;> rfl
  · rfl

/-- After WriteOut of a settled result OUT holds its bytes. -/
theorem writeOut_holds (s : State) (r : Except ErrCode (List Byte)) (h : (outBytesOf r).length ≤ 256) :
    OutHolds (writeOut s r) (outBytesOf r) where
  outLen := by
    rw [writeOut_outLen, BitVec.toNat_ofNat]
    exact Nat.mod_eq_of_lt (by omega)
  bytes := fun i hi => by
    rw [read_writeOut s r h, outBase, if_pos (by omega), Nat.add_sub_cancel_left]
  tail := fun i hi hi' => by
    rw [read_writeOut s r h, outBase, if_pos (by omega), Nat.add_sub_cancel_left, List.getD_eq_default _ _ hi]

/-- WriteOut keeps the memory's canonical form. -/
theorem writeOut_wf {s : State} (hm : s.mem.wf) (r : Except ErrCode (List Byte)) : (writeOut s r).mem.wf := by
  rw [writeOut_mem]; exact store_wf hm _ _

/-- WriteOut lists bytes of OUT only. -/
theorem writeOut_mapped {s : State} (hm : s.mem.mapped) (r : Except ErrCode (List Byte))
    (h : (outBytesOf r).length ≤ 256) : (writeOut s r).mem.mapped := by
  rw [writeOut_mem]
  refine store_mapped hm _ _ fun i hi => ?_
  simp only [List.length_append, List.length_replicate, Config.outCap] at hi
  simp only [isBufferAddr, outBase, prefixBase, prefixEnd, inBase, unmappedBase, Bool.or_eq_true,
    Bool.and_eq_true, decide_eq_true_eq]
  omega

/-! ### Operands -/

theorem readSymbols_ok {bs : List Byte} (h : ∀ b ∈ bs, b.toNat < 32) :
    readSymbols bs = .ok (bs.map (fun b => b.setWidth 5)) := by
  unfold readSymbols
  rw [if_pos]
  simpa using h

theorem readSymbols_error {bs : List Byte} (h : ∃ b ∈ bs, 32 ≤ b.toNat) : readSymbols bs = .error .symbolRange := by
  unfold readSymbols
  rw [if_neg]
  simpa using h

theorem readSymbols_cases (bs : List Byte) :
    ((∀ b ∈ bs, b.toNat < 32) ∧ readSymbols bs = .ok (bs.map (fun b => b.setWidth 5))) ∨
    ((∃ b ∈ bs, 32 ≤ b.toNat) ∧ readSymbols bs = .error .symbolRange) := by
  by_cases h : ∀ b ∈ bs, b.toNat < 32
  · exact .inl ⟨h, readSymbols_ok h⟩
  · have h' : ∃ b ∈ bs, 32 ≤ b.toNat := by
      by_contra hc
      exact h fun b hb => Nat.lt_of_not_le fun hle => hc ⟨b, hb, hle⟩
    exact .inr ⟨h', readSymbols_error h'⟩

@[simp] theorem inBytes_length (s : State) : (inBytes s).length = s.inLen.toNat := load_length _ _ _

@[simp] theorem prefixBytes_length (s : State) : (prefixBytes s).length = s.prefixLen.toNat := load_length _ _ _

theorem inBytes_getD (s : State) (i : Nat) (h : i < s.inLen.toNat) : (inBytes s).getD i 0 = s.inByte i :=
  load_getD _ _ _ _ h

theorem prefixBytes_getD (s : State) (i : Nat) (h : i < s.prefixLen.toNat) :
    (prefixBytes s).getD i 0 = s.prefixByte i := load_getD _ _ _ _ h

/-- IN's operand byte by byte. -/
theorem inBytes_eq_inOperand (s : State) : inBytes s = s.inOperand := by
  apply List.ext_getElem (by simp [State.inOperand])
  intro i h1 h2
  simp [inBytes, load_getElem, State.inOperand, State.inByte, inBase]

/-- PREFIX's operand byte by byte. -/
theorem prefixBytes_eq_prefixOperand (s : State) : prefixBytes s = s.prefixOperand := by
  apply List.ext_getElem (by simp [State.prefixOperand])
  intro i h1 h2
  simp [prefixBytes, load_getElem, State.prefixOperand, State.prefixByte, prefixBase]

theorem mem_inBytes {s : State} {b : Byte} : b ∈ inBytes s ↔ ∃ i < s.inLen.toNat, s.inByte i = b := mem_load

theorem mem_prefixBytes {s : State} {b : Byte} :
    b ∈ prefixBytes s ↔ ∃ i < s.prefixLen.toNat, s.prefixByte i = b := mem_load

theorem inLenBad_eq_false {s : State} : inLenBad s = false ↔ s.inLen.toNat ≤ 256 := by
  simp [inLenBad, Config.inCap]

theorem inLenBad_eq_true {s : State} : inLenBad s = true ↔ 256 < s.inLen.toNat := by
  simp [inLenBad, Config.inCap]

theorem prefixLenBad_eq_false {s : State} : prefixLenBad s = false ↔ s.prefixLen.toNat ≤ 64 := by
  simp [prefixLenBad, Config.prefixCap]

theorem prefixLenBad_eq_true {s : State} : prefixLenBad s = true ↔ 64 < s.prefixLen.toNat := by
  simp [prefixLenBad, Config.prefixCap]

end Sys2Proof.Machine
end

