-- ==== Sys2Proof/Laws/Step.lean ====
section
/-! SUPPORT. What one step can do, said once: by the head of the schedule, and what a completion leaves unchanged. -/

namespace Sys2Proof.Machine

/-! ### Completion -/

/-- Completion with a code shows the code, BUSY = 0 and DONE = 1. -/
theorem completeWith_completed (s : State) (e : ErrCode) : CompletedWith (completeWith s e) e := ⟨rfl, rfl, rfl⟩

/-- Every command answers a next state: one that came from `s` by the writes of R124 to R126 and R128, then the
completion. -/
theorem exec_cases (i : Instr) (s : State) :
    ∃ c code, exec i s = .next (completeWith c code) ∧
      (c = s ∨ (∃ acc, c = { s with pmAcc := acc }) ∨ (∃ r, c = writeOut s (settleOut r)) ∨
        (∃ r e vb, c = writeResult (writeOut s (settleOut r)) e vb) ∨
        (∃ r m, c = writeOut (writeMod s m) (settleOut r)) ∨
        (∃ r m e vb, c = writeResult (writeOut (writeMod s m) (settleOut r)) e vb)) := by
  cases i with
  | nop => exact ⟨s, _, rfl, .inl rfl⟩
  | pmInit => exact ⟨_, _, rfl, .inr (.inl ⟨_, rfl⟩)⟩
  | pmStep sym => exact ⟨_, _, rfl, .inr (.inl ⟨_, rfl⟩)⟩
  | pmRun =>
    refine ⟨_, _, rfl, ?_⟩
    cases pmRunValue s with
    | error e => exact .inl rfl
    | ok c => exact .inr (.inl ⟨c, rfl⟩)
  | cbRun f t pad => exact ⟨_, _, rfl, .inr (.inr (.inl ⟨_, rfl⟩))⟩
  | b32Map => exact ⟨_, _, rfl, .inr (.inr (.inl ⟨_, rfl⟩))⟩
  | b32Unmap => exact ⟨_, _, rfl, .inr (.inr (.inl ⟨_, rfl⟩))⟩
  | pack ty => exact ⟨_, _, rfl, .inr (.inr (.inr (.inl ⟨_, _, _, rfl⟩)))⟩
  | checksum => exact ⟨_, _, rfl, .inr (.inr (.inr (.inr (.inl ⟨_, _, rfl⟩))))⟩
  | encode ty => exact ⟨_, _, rfl, .inr (.inr (.inr (.inr (.inr ⟨_, _, _, _, rfl⟩))))⟩
  | decode => exact ⟨_, _, rfl, .inr (.inr (.inr (.inr (.inr ⟨_, _, _, _, rfl⟩))))⟩

/-! ### The step by the head of the schedule -/

theorem step_of_nil {s : State} (h : s.pending = []) : step s = engineTurn s := by
  unfold step; rw [h]

theorem step_of_host {s : State} {x : HostAccess} {rest : List Event} (h : s.pending = .host x :: rest) :
    step s = .next (portAccess { s with pending := rest } x) := by
  unfold step; rw [h]

theorem step_of_engine {s : State} {rest : List Event} (h : s.pending = .engine :: rest) :
    step s = engineTurn { s with pending := rest } := by
  unfold step; rw [h]

theorem step_of_resetAssert {s : State} {rest : List Event} (h : s.pending = .resetAssert :: rest) :
    step s = .next (assertReset { s with pending := rest }) := by
  unfold step; rw [h]

theorem step_of_resetRelease {s : State} {rest : List Event} (h : s.pending = .resetRelease :: rest) :
    step s = .next (releaseReset { s with pending := rest }) := by
  unfold step; rw [h]

/-- The engine's turn: nothing where no command is in flight or rst is asserted; else the completion. -/
theorem engineTurn_cases (s : State) :
    ((s.status.busy = false ∨ s.rst = true) ∧ engineTurn s = .next s) ∨
    (s.status.busy = true ∧ s.rst = false ∧ engineTurn s = completeCommand s) := by
  unfold engineTurn
  cases s.status.busy <;> cases s.rst <;> simp

/-- A completion is a command's meaning, or ILLEGAL_CMD for a word that is no command. -/
theorem completeCommand_cases (s : State) :
    (∃ i, decodeWord s.cmd = .ok i ∧ completeCommand s = exec i s) ∨
    (∃ e, decodeWord s.cmd = .error e ∧ completeCommand s = .next (completeIllegal s)) := by
  unfold completeCommand
  cases h : decodeWord s.cmd with
  | ok i => exact .inl ⟨i, rfl, by simp⟩
  | error e => exact .inr ⟨e, rfl, by simp⟩

end Sys2Proof.Machine
end

