-- ==== Sys2Proof/Laws/Commands.lean ====
section
/-! SUPPORT. What a completing command leaves, said once for the writes every command is made of: WriteOut, the RESULT
rule and the MOD rule, then the completion. A proof about a command cites these and does not unfold the writes. -/

namespace Sys2Proof.Machine

/-! ### A result in OUT, through the later writes -/

/-- What OUT holds depends on the memory and OUT_LEN alone. -/
theorem OutHolds.congr {s t : State} {bs : List Byte} (h : OutHolds s bs) (hm : t.mem = s.mem)
    (hl : t.outLen = s.outLen) : OutHolds t bs where
  outLen := by rw [hl]; exact h.outLen
  bytes := fun i hi => by rw [hm]; exact h.bytes i hi
  tail := fun i hi hi' => by rw [hm]; exact h.tail i hi hi'

/-- A result in OUT has at most 256 bytes where OUT_LEN is written from it. -/
theorem settled_holds (s : State) (r : Except ErrCode (List Byte)) :
    OutHolds (writeOut s (settleOut r)) (outBytesOf (settleOut r)) :=
  writeOut_holds s _ (outBytesOf_settleOut_length r)

/-! ### What no command writes -/

theorem NeverWritten.refl (s : State) : NeverWritten s s where
  bytes := fun _ _ => rfl
  prefixLen := rfl
  inLen := rfl
  ctrl := rfl
  cmd := rfl
  ucfSnap := rfl
  bviol := rfl
  op := rfl
  rst := rfl
  sizeTable := rfl
  pending := rfl
  resp := rfl

theorem completeWith_neverWritten {s t : State} (h : NeverWritten s t) (e : ErrCode) :
    NeverWritten s (completeWith t e) :=
  ⟨h.bytes, h.prefixLen, h.inLen, h.ctrl, h.cmd, h.ucfSnap, h.bviol, h.op, h.rst, h.sizeTable, h.pending, h.resp⟩

theorem writeOut_neverWritten {s t : State} (h : NeverWritten s t) (r : Except ErrCode (List Byte)) :
    NeverWritten s (writeOut t (settleOut r)) where
  bytes := fun a ha => by
    rw [read_writeOut _ _ (outBytesOf_settleOut_length r), if_neg (by simp only [outBase] at ha; omega)]
    exact h.bytes a ha
  prefixLen := h.prefixLen
  inLen := h.inLen
  ctrl := h.ctrl
  cmd := h.cmd
  ucfSnap := h.ucfSnap
  bviol := h.bviol
  op := h.op
  rst := h.rst
  sizeTable := h.sizeTable
  pending := h.pending
  resp := h.resp

theorem writeResult_neverWritten {s t : State} (h : NeverWritten s t) (e : ErrCode) (vb : Byte) :
    NeverWritten s (writeResult t e vb) :=
  ⟨h.bytes, h.prefixLen, h.inLen, h.ctrl, h.cmd, h.ucfSnap, h.bviol, h.op, h.rst, h.sizeTable, h.pending, h.resp⟩

theorem writeMod_neverWritten {s t : State} (h : NeverWritten s t) (m : Option Acc) :
    NeverWritten s (writeMod t m) :=
  ⟨h.bytes, h.prefixLen, h.inLen, h.ctrl, h.cmd, h.ucfSnap, h.bviol, h.op, h.rst, h.sizeTable, h.pending, h.resp⟩

theorem withPmAcc_neverWritten {s t : State} (h : NeverWritten s t) (c : Acc) :
    NeverWritten s { t with pmAcc := c } :=
  ⟨h.bytes, h.prefixLen, h.inLen, h.ctrl, h.cmd, h.ucfSnap, h.bviol, h.op, h.rst, h.sizeTable, h.pending, h.resp⟩

/-! ### The results carried by a command's value -/

@[simp] theorem versionOf_ok {α : Type} (x : α) (vb : Byte) : versionOf (.ok (x, vb) : Except ErrCode (α × Byte))
    = vb :=
  rfl

@[simp] theorem versionOf_error {α : Type} (e : ErrCode) : versionOf (.error e : Except ErrCode (α × Byte)) = 0 := rfl

@[simp] theorem valueOf_ok (m : Acc) : valueOf (.ok m) = some m := rfl

@[simp] theorem valueOf_error (e : ErrCode) : valueOf (.error e) = none := rfl

/-! ### A whole command -/

/-- A command that writes OUT alone: what it leaves, by its result. `t` is the completion's state. -/
theorem outCommand_cases (s t : State) (r : Except ErrCode (List Byte))
    (ht : t = completeWith (writeOut s (settleOut r)) (codeOf (settleOut r))) :
    NeverWritten s t ∧ t.pmAcc = s.pmAcc ∧ t.result = s.result ∧ t.mod = s.mod ∧
    (∀ e, r = .error e → CompletedWith t e ∧ OutHolds t []) ∧
    (∀ bs, r = .ok bs → 256 < bs.length → CompletedWith t .overflow ∧ OutHolds t []) ∧
    (∀ bs, r = .ok bs → bs.length ≤ 256 → CompletedWith t .ok ∧ OutHolds t bs) := by
  subst ht
  have hOut := (settled_holds s r).congr (t := completeWith (writeOut s (settleOut r)) (codeOf (settleOut r))) rfl rfl
  have hC := completeWith_completed (writeOut s (settleOut r)) (codeOf (settleOut r))
  refine ⟨completeWith_neverWritten (writeOut_neverWritten (.refl _) _) _, rfl, rfl, rfl, ?_, ?_, ?_⟩
  · rintro e rfl; simpa using ⟨hC, hOut⟩
  · rintro bs rfl hl; rw [settleOut_ok_of_long hl] at hC hOut ⊢; exact ⟨hC, hOut⟩
  · rintro bs rfl hl; rw [settleOut_ok_of_fits hl] at hC hOut ⊢; exact ⟨hC, hOut⟩

/-- A command that writes OUT and RESULT from one value, from a state `s1` in which MOD may be written already. -/
theorem resultCommand_cases {α : Type} (s s1 : State) (p : Except ErrCode (α × Byte)) (f : α → List Byte) (t : State)
    (hs1 : NeverWritten s s1)
    (ht : t = completeWith (writeResult (writeOut s1 (settleOut (p.map (fun x => f x.1))))
        (codeOf (settleOut (p.map (fun x => f x.1)))) (versionOf p)) (codeOf (settleOut (p.map (fun x => f x.1))))) :
    NeverWritten s t ∧ t.pmAcc = s1.pmAcc ∧ t.mod = s1.mod ∧
    (∀ e, p = .error e → e ≠ .ok → CompletedWith t e ∧ OutHolds t [] ∧ t.result = 0) ∧
    (∀ x vb, p = .ok (x, vb) → 256 < (f x).length → CompletedWith t .overflow ∧ OutHolds t [] ∧ t.result = 0) ∧
    (∀ x vb, p = .ok (x, vb) → (f x).length ≤ 256 → CompletedWith t .ok ∧ OutHolds t (f x) ∧
        t.result = resultWord vb) := by
  have hh := settled_holds s1 (p.map (fun x => f x.1))
  have hOut : OutHolds t (outBytesOf (settleOut (p.map (fun x => f x.1)))) := by
    subst ht; exact hh.congr rfl rfl
  have hC : CompletedWith t (codeOf (settleOut (p.map (fun x => f x.1)))) :=
      by subst ht; exact completeWith_completed _ _
  have hR : t.result = if codeOf (settleOut (p.map (fun x => f x.1))) = .ok then resultWord (versionOf p) else 0 :=
      by subst ht; rfl
  refine ⟨?_, by subst ht; rfl, by subst ht; rfl, ?_, ?_, ?_⟩
  · subst ht; exact completeWith_neverWritten (writeResult_neverWritten (writeOut_neverWritten hs1 _) _ _) _
  · rintro e rfl hne; simp only [Except.map, settleOut_error, codeOf_error, outBytesOf_error, hne,
      if_false] at hC hOut hR; exact ⟨hC, hOut, hR⟩
  · rintro x vb rfl hl; simp only [Except.map, settleOut_ok_of_long hl, codeOf_error,
      outBytesOf_error] at hC hOut hR; exact ⟨hC, hOut, by simpa using hR⟩
  · rintro x vb rfl hl; simp only [Except.map, settleOut_ok_of_fits hl, codeOf_ok,
      outBytesOf_ok] at hC hOut hR; exact ⟨hC, hOut, by simpa using hR⟩

end Sys2Proof.Machine
end

