-- ==== Sys2Proof/Laws/Codec.lean ====
section
/-! SUPPORT. The functions of the packer, the alphabet and the codec, said once: the size class, Unmap of a sequence,
the split at the last ':', the prefix checks and the version byte. -/

namespace Sys2Proof.Machine

/-! ### The size class and the version byte -/

theorem sizeClass_eq_none {st : Config.SizeTable} {n : Nat} (h : ∀ c : Fin 8, st[c] ≠ some n)
    : sizeClass st n = none := by
  unfold sizeClass; rw [List.find?_eq_none]; intro c _; simpa using h c

theorem sizeClass_eq_some {st : Config.SizeTable} {n : Nat} {c : Fin 8} (h : sizeClass st n = some c)
    : st[c] = some n := by
  have := List.find?_some h; simpa using this

theorem sizeClass_of_entry {st : Config.SizeTable} (hv : SizeTableValid st) {n : Nat} {c : Fin 8} (h :
    st[c] = some n) : sizeClass st n = some c := by
  cases h2 : sizeClass st n with
  | none =>
    unfold sizeClass at h2; rw [List.find?_eq_none] at h2
    have := h2 c (List.mem_finRange c); simp at this; exact absurd h this
  | some c' =>
    have h3 := sizeClass_eq_some h2
    rw [hv.1 c c' (by rw [h]; simp) (by rw [h, h3])]

/-- The version byte's value (43_packer.md R211). -/
theorem versionByte_toNat (ty : Nat) (c : Fin 8) (h : ty < 8) : (versionByte ty c).toNat = ty * 8 + c.val := by
  have : ∀ (t c : Fin 8), (versionByte t.val c).toNat = t.val * 8 + c.val := by decide
  exact this ⟨ty, h⟩ c

/-- Bits 7 and 6 of a version byte are the part a decoder rejects (46_codec.md R273 step 7). -/
theorem versionByte_reserved (vb : Byte) : vb.extractLsb' 6 2 ≠ 0 ↔ 64 ≤ vb.toNat := by
  have : ∀ n : Fin 256, (BitVec.ofFin n : Byte).extractLsb' 6 2 ≠ 0 ↔ 64 ≤ n.val := by decide +kernel
  exact this vb.toFin

theorem versionByte_class (vb : Byte) : ((vb.extractLsb' 0 3).toFin).val = vb.toNat % 8 := by
  have : ∀ n : Fin 256, (((BitVec.ofFin n : Byte).extractLsb' 0 3).toFin).val = n.val % 8 := by decide +kernel
  exact this vb.toFin

/-! ### Symbols and units -/

theorem symbolByte_toNat (d : Symbol) : (symbolByte d).toNat = d.toNat := by simp [symbolByte]; omega

theorem unitSymbols_toNat (v : List Nat) (h : ∀ y ∈ v, y < 2^5) : (unitSymbols v).map BitVec.toNat = v := by
  unfold unitSymbols; rw [List.map_map]
  conv_rhs => rw [← List.map_id v]
  apply List.map_congr_left; intro y hy; have := h y hy; simp; omega

/-! ### Unmap of a sequence -/

theorem unmapAll_eq_none {u : Bool} {bs : List Byte} (h : ∃ b ∈ bs, unmapByte u b = none) : unmapAll u bs = none := by
  induction bs with
  | nil => simp at h
  | cons b bs ih =>
    unfold unmapAll
    obtain ⟨c, hc, hn⟩ := h
    rcases List.mem_cons.mp hc with rfl | hc
    · rw [hn]
    · rw [ih ⟨c, hc, hn⟩]; cases unmapByte u b <;> rfl

theorem unmapAll_eq_some {u : Bool} {t : List Byte} {ds : List Symbol} : unmapAll u t = some ds ↔ t.map (unmapByte u)
    = ds.map some := by
  induction t generalizing ds with
  | nil => cases ds <;> simp [unmapAll]
  | cons b t ih =>
    unfold unmapAll
    cases h1 : unmapByte u b with
    | none => cases ds <;> simp [h1]
    | some k =>
      cases h2 : unmapAll u t with
      | none =>
        cases ds with
        | nil => simp
        | cons d ds => simp [h1]; intro _ h; rw [ih.mpr h] at h2; cases h2
      | some ks =>
        cases ds with
        | nil => simp
        | cons d ds => simp [h1]; intro _; rw [← ih, h2]; simp

/-! ### The alphabet against its written-out codes -/

/-- A character of the alphabet by its written-out code, past the end too. -/
theorem alphabetCodes_getD (n : Nat) : BitVec.ofNat 8 (alphabetCodes.getD n 0) = alphabet.getD n 0 := by
  by_cases h : n < 32
  · have all : ∀ k : Fin 32, BitVec.ofNat 8 (alphabetCodes.getD k 0) = alphabet.getD k 0 := by decide
    exact all ⟨n, h⟩
  · rw [List.getD_eq_default _ _ (by simp [alphabetCodes]; omega),
      List.getD_eq_default _ _ (by simp [alphabet]; omega)]
    rfl

/-- A byte of the alphabet is one whose code is written out. -/
theorem mem_alphabetCodes (b : Byte) : b.toNat ∈ alphabetCodes ↔ b ∈ alphabet := by
  have all : ∀ k : Fin 256, (BitVec.ofFin k : Byte).toNat ∈ alphabetCodes ↔ (BitVec.ofFin k : Byte) ∈ alphabet := by
    decide +kernel
  exact all b.toFin

/-! ### The address's parts -/

theorem splitLastColon_none {a : List Byte} (h : (0x3A : Byte) ∉ a) : splitLastColon a = none := by
  induction a with
  | nil => rfl
  | cons b a ih =>
    simp only [List.mem_cons, not_or] at h
    unfold splitLastColon; rw [ih h.2]; simp only; rw [if_neg]; exact Ne.symm h.1

theorem splitLastColon_some (q : List Byte) {t : List Byte} (h : (0x3A : Byte) ∉ t) : splitLastColon (q ++ 0x3A :: t)
    = some (q, t) := by
  induction q with
  | nil => simp [splitLastColon, splitLastColon_none h, colon]
  | cons b q ih => rw [List.cons_append]; unfold splitLastColon; rw [ih]

theorem splitLastColon_inv {a q t : List Byte} (h : splitLastColon a = some (q, t)) : a = q ++ 0x3A :: t ∧ (0x3A :
    Byte) ∉ t := by
  induction a generalizing q with
  | nil => cases h
  | cons b a ih =>
    unfold splitLastColon at h
    cases h2 : splitLastColon a with
    | none =>
      rw [h2] at h; simp only at h
      split at h
      · next hb =>
        cases h; subst hb
        refine ⟨rfl, fun hm => ?_⟩
        have : ∀ t : List Byte, (0x3A : Byte) ∈ t → splitLastColon t ≠ none := by
          intro t; induction t with
          | nil => simp
          | cons c t ih =>
            intro hc; unfold splitLastColon
            rcases List.mem_cons.mp hc with rfl | hc
            · cases splitLastColon t <;> simp [colon]
            · have := ih hc; cases h3 : splitLastColon t with
              | none => exact absurd h3 this
              | some x => simp
        exact this _ hm h2
      · cases h
    | some x =>
      obtain ⟨q', t'⟩ := x
      rw [h2] at h; cases h
      obtain ⟨h3, h4⟩ := ih h2
      exact ⟨by rw [h3]; rfl, h4⟩

theorem isAlnum_iff (b : Byte) : isAlnum b = true ↔ AsciiAlnum b := by
  unfold isAlnum AsciiAlnum; simp; tauto

theorem lowerByte_symbol (b : Byte) : (lowerByte b).setWidth 5 = b.setWidth 5 := by
  revert b
  have : ∀ n : Fin 256, (lowerByte (BitVec.ofFin n)).setWidth 5 = (BitVec.ofFin n : Byte).setWidth 5 :=
      by decide +kernel
  intro b; exact this b.toFin

theorem checkPrefix_error {q : List Byte} (h : q = [] ∨ ∃ b ∈ q, ¬ AsciiAlnum b)
    : checkPrefix q = .error .invalidCharacter := by
  unfold checkPrefix
  rcases h with rfl | ⟨b, hb, hn⟩
  · rfl
  · split
    · rfl
    · rw [if_neg]; intro hc; rw [List.all_eq_true] at hc; exact hn ((isAlnum_iff b).mp (hc b hb))

theorem checkPrefix_ok {q : List Byte} (h0 : q ≠ []) (h : ∀ b ∈ q, AsciiAlnum b)
    : checkPrefix q = .ok (q.map lowerByte) := by
  unfold checkPrefix
  rw [if_neg (by simpa using h0), if_pos]
  rw [List.all_eq_true]; intro b hb; exact (isAlnum_iff b).mpr (h b hb)

theorem expandPrefix_lower (q : List Byte) : expandPrefix (q.map lowerByte) = q.map (fun b => b.setWidth 5) ++ [0] := by
  unfold expandPrefix; rw [List.map_map]; congr 1; apply List.map_congr_left; intro b _; exact lowerByte_symbol b

/-- Decode of an address with a ':' whose prefix is valid and whose data part unmaps: steps 4 to 7 remain. -/
theorem decodeAddress_split (st : Config.SizeTable) (q t dq : List Byte) (u : Bool) (hc : (0x3A : Byte) ∉ t) (h0 :
    q ≠ []) (h : ∀ b ∈ q, AsciiAlnum b) (ds : List Symbol) (hd : t.map (unmapByte u) = ds.map some) :
   decodeAddress st (q ++ 0x3A :: t) dq u = decodeSymbols st (q.map lowerByte) ds := by
  unfold decodeAddress resolvePrefix
  rw [splitLastColon_some q hc]; simp only; rw [checkPrefix_ok h0 h]; simp only; rw [unmapAll_eq_some.mpr hd]

end Sys2Proof.Machine
end

