-- ==== Sys2Proof/Laws/PerInstr.lean ====
section
/-! SUPPORT. What is proved once per constructor of Instr: the OP byte of a command's word (30_encoding.md R91, R96). -/

namespace Sys2Proof.Laws.OpcodeField

/-- The OP byte of a command's row (30_encoding.md R96). -/
def opByte (i : Instr) : Byte :=
  match i with
  | .nop => 0x00
  | .pmInit => 0x01
  | .pmStep _ => 0x02
  | .pmRun => 0x03
  | .cbRun _ _ _ => 0x10
  | .b32Map => 0x20
  | .b32Unmap => 0x21
  | .pack _ => 0x30
  | .checksum => 0x31
  | .encode _ => 0x40
  | .decode => 0x41

/-- OP of the command's word is its row's, whatever its operands: no operand reaches bits 7 to 0. -/
def Statement (i : Instr) : Prop := fieldOp (encode i) = opByte i

/-- A field placed from bit 8 up leaves bits 7 to 0 zero. -/
theorem placeField_low (v lo : Nat) (h : 8 ≤ lo) : (placeField v lo).extractLsb' 0 8 = 0 := by
  apply BitVec.eq_of_getLsbD_eq
  intro i hi
  rw [BitVec.getLsbD_extractLsb', placeField, BitVec.getLsbD_shiftLeft]
  simp only [Nat.zero_add, show i < lo by omega, decide_true, Bool.not_true, Bool.and_false, Bool.false_and]
  simp

theorem or_low (x y : Word) : (x ||| y).extractLsb' 0 8 = x.extractLsb' 0 8 ||| y.extractLsb' 0 8 := by
  apply BitVec.eq_of_getLsbD_eq
  intro i hi
  simp [hi]

theorem nop : Statement .nop := rfl

theorem pmInit : Statement .pmInit := rfl

theorem pmStep (sym : Nat) : Statement (.pmStep sym) := by
  simp only [Statement, fieldOp, encode, opByte, or_low, placeField_low _ _ (Nat.le_refl 8)]; rfl

theorem pmRun : Statement .pmRun := rfl

theorem cbRun (f t : Nat) (pad : Bool) : Statement (.cbRun f t pad) := by
  simp only [Statement, fieldOp, encode, opByte, or_low, placeField_low _ _ (Nat.le_refl 8),
    placeField_low _ 12 (by omega), placeField_low _ 16 (by omega)]; rfl

theorem b32Map : Statement .b32Map := rfl

theorem b32Unmap : Statement .b32Unmap := rfl

theorem pack (ty : Nat) : Statement (.pack ty) := by
  simp only [Statement, fieldOp, encode, opByte, or_low, placeField_low _ _ (Nat.le_refl 8)]; rfl

theorem checksum : Statement .checksum := rfl

theorem encode (ty : Nat) : Statement (.encode ty) := by
  simp only [Statement, fieldOp, Sys2Proof.encode, opByte, or_low, placeField_low _ _ (Nat.le_refl 8)]; rfl

theorem decode : Statement .decode := rfl

end Sys2Proof.Laws.OpcodeField
end

