-- ==== Sys2Proof/Laws/PolyMod.lean ====
section
/-! SUPPORT. PolyStep and the fold of it: as one expression, over XOR, and on natural numbers. -/

namespace Sys2Proof.Machine

/-- PolyStep as one expression: the shifted accumulator, the symbol and the generators of the set bits of c0
(41_polymod.md R151). -/
theorem polyStep_eq (c : Acc) (d : Symbol) : polyStep c d =
   (((c &&& 0x07ffffffff) <<< 5) ^^^ d.setWidth 40) ^^^ (if c.getLsbD 35 then 0x98f2bc8e61 else 0) ^^^
   (if c.getLsbD 36 then 0x79b76d99e2 else 0) ^^^ (if c.getLsbD 37 then 0xf33e5fb3c4 else 0) ^^^
   (if c.getLsbD 38 then 0xae2eabe2a8 else 0) ^^^ (if c.getLsbD 39 then 0x1e4f43e470 else 0) := by
  simp only [polyStep, genTable, applyGenerators, BitVec.getLsbD_ushiftRight]
  norm_num
  repeat' split
  all_goals simp_all

/-- PolyStep is linear over XOR in both arguments together. -/
theorem polyStep_xor (c c' : Acc) (d d' : Symbol) :
    polyStep (c ^^^ c') (d ^^^ d') = polyStep c d ^^^ polyStep c' d' := by
  simp only [polyStep_eq, BitVec.getLsbD_xor]
  have e1 : ((c ^^^ c') &&& 0x07ffffffff) <<< 5 = ((c &&& 0x07ffffffff) <<< 5) ^^^ ((c' &&& 0x07ffffffff) <<< 5) := by
    ext i hi
    by_cases h : i < 5
    · simp [h]
    · simp only [BitVec.getElem_shiftLeft, BitVec.getElem_xor, h, decide_false, Bool.not_false, Bool.true_and,
        BitVec.getElem_and]
      simp [Bool.and_xor_distrib_right]
  have e2 : (d ^^^ d').setWidth 40 = d.setWidth 40 ^^^ d'.setWidth 40 := by simp
  rw [e1, e2]
  have key : ∀ (p q : Bool) (g : Acc), (if (p ^^ q) then g else 0) = (if p then g else 0) ^^^ (if q then g else 0) := by
    intro p q g; cases p <;> cases q <;> simp
  simp only [key]
  ac_rfl

/-- So is the fold over symbols. -/
theorem polyFold_xor (ds es : List Symbol) (h : ds.length = es.length) (c c' : Acc) :
    polyFold (c ^^^ c') (List.zipWith (· ^^^ ·) ds es) = polyFold c ds ^^^ polyFold c' es := by
  induction ds generalizing es c c' with
  | nil => cases es <;> simp_all [polyFold]
  | cons d ds ih =>
    cases es with
    | nil => simp at h
    | cons e es =>
      simp only [polyFold, List.zipWith_cons_cons, List.foldl_cons] at *
      rw [polyStep_xor]
      exact ih es (by simpa using h) _ _

/-- PolyStep on natural numbers, as the source's wider accumulator computes it (41_polymod.md R153). -/
theorem polyStep_toNat (c : Acc) (d : Symbol) : (polyStep c d).toNat = polyStepNat c.toNat d.toNat := by
  rw [polyStep_eq]
  simp only [polyStepNat, List.range, List.range.loop, List.foldl]
  have ht : ∀ i, (c.toNat >>> 35).testBit i = c.getLsbD (35+i) := by
    intro i; rw [Nat.testBit_shiftRight]; rfl
  simp only [ht, Nat.add_zero, Nat.reduceAdd]
  have hm : (((c &&& 0x07ffffffff) <<< 5) ^^^ d.setWidth 40).toNat = ((c.toNat &&& 0x07ffffffff) <<< 5)
      ^^^ d.toNat := by
    rw [BitVec.toNat_xor, BitVec.toNat_shiftLeft, BitVec.toNat_and, BitVec.toNat_setWidth]
    have : (BitVec.toNat (34359738367 : Acc)) = 34359738367 := rfl
    rw [this]
    have h1 : c.toNat &&& 34359738367 < 2^35 := by
      have : c.toNat &&& (2^35-1) = c.toNat % 2^35 := Nat.and_two_pow_sub_one_eq_mod _ _
      norm_num at this ⊢; rw [this]; omega
    have := d.isLt
    rw [Nat.shiftLeft_eq, Nat.mod_eq_of_lt (by omega), Nat.mod_eq_of_lt (by omega)]
  have hx : ∀ (x : Acc) (n g : Nat) (p : Bool),
      x.toNat = n → g < 2^40 → (x ^^^ (if p then BitVec.ofNat 40 g else 0)).toNat = if p then n ^^^ g else n := by
    intro x n g p h hg
    cases p
    · simp [h]
    · simp [h]; norm_num at hg; omega
  have e0 := hx _ _ 0x98f2bc8e61 (c.getLsbD 35) hm (by norm_num)
  have e1 := hx _ _ 0x79b76d99e2 (c.getLsbD 36) e0 (by norm_num)
  have e2 := hx _ _ 0xf33e5fb3c4 (c.getLsbD 37) e1 (by norm_num)
  have e3 := hx _ _ 0xae2eabe2a8 (c.getLsbD 38) e2 (by norm_num)
  have e4 := hx _ _ 0x1e4f43e470 (c.getLsbD 39) e3 (by norm_num)
  exact e4

theorem polyFold_append (c : Acc) (ds es : List Symbol) : polyFold c (ds ++ es) = polyFold (polyFold c ds) es := by
  simp [polyFold]

@[simp] theorem digitsOf_length (m : Acc) : (digitsOf m).length = 8 := by simp [digitsOf]

end Sys2Proof.Machine
end

