-- ==== Sys2Proof/Laws/Repacker.lean ====
section
/-! SUPPORT. The repacker's loop as bits: what an emission, a unit and the whole loop do to the bit stream, most
significant bit first (20_memory.md R81), and what the pad group holds. -/

namespace Sys2Proof.Machine

/-! ### Bits of a number and of a sequence -/

theorem bitsMsb_length (w x : Nat) : (bitsMsb w x).length = w := by simp [bitsMsb]

theorem bitsMsb_congr (w x y : Nat) (h : ∀ i < w, x.testBit i = y.testBit i) : bitsMsb w x = bitsMsb w y := by
  unfold bitsMsb
  apply List.map_congr_left
  intro i hi
  rw [List.mem_range] at hi
  exact h _ (by omega)

theorem bitsMsb_inj (w x y : Nat) (h : bitsMsb w x = bitsMsb w y) : ∀ i < w, x.testBit i = y.testBit i := by
  intro i hi
  have := congrArg (fun l => l[w-1-i]?) h
  simp only [bitsMsb, List.getElem?_map, List.getElem?_range (show w - 1 - i < w by omega), Option.map_some,
      Option.some.injEq] at this
  rwa [show w - 1 - (w - 1 - i) = i by omega] at this

theorem bitsMsb_zero (w : Nat) : bitsMsb w 0 = List.replicate w false := by
  apply List.ext_getElem (by simp [bitsMsb]); intro i h1 h2; simp [bitsMsb]

theorem bitsMsb_add (a b x : Nat) : bitsMsb (a + b) x = bitsMsb a (x >>> b) ++ bitsMsb b x := by
  apply List.ext_getElem (by simp [bitsMsb])
  intro i h1 h2
  simp only [bitsMsb, List.length_map, List.length_range] at h1
  rw [List.getElem_append]
  split
  · next h =>
    simp only [bitsMsb, List.length_map, List.length_range] at h
    simp only [bitsMsb, List.getElem_map, List.getElem_range, Nat.testBit_shiftRight]
    congr 1; omega
  · next h =>
    simp only [bitsMsb, List.length_map, List.length_range] at h
    simp only [bitsMsb, List.getElem_map, List.getElem_range, List.length_map, List.length_range]
    congr 1; omega

theorem and_ones (x t : Nat) : x &&& ((1 <<< t) - 1) = x % 2 ^ t := by
  rw [Nat.one_shiftLeft, Nat.and_two_pow_sub_one_eq_mod]

theorem bitsMsb_mod (w x : Nat) : bitsMsb w (x % 2^w) = bitsMsb w x :=
  bitsMsb_congr _ _ _ fun i hi => by simp [Nat.testBit_mod_two_pow, hi]

/-! ### The loop -/

/-- The emission loop: the groups are the top of the accumulator's bits, fewer than t bits are left. -/
theorem emitGroups_spec (t acc : Nat) (ht : 1 ≤ t) (fuel b : Nat) (h : b ≤ fuel) :
    bitsMsb b acc = bitStream t (emitGroups t acc fuel b).1 ++ bitsMsb (emitGroups t acc fuel b).2 acc ∧
    (emitGroups t acc fuel b).2 < t ∧ ∀ y ∈ (emitGroups t acc fuel b).1, y < 2^t := by
  induction fuel generalizing b with
  | zero => have : b = 0 := by omega
            subst this; simp [emitGroups, bitStream]; omega
  | succ n ih =>
    unfold emitGroups
    by_cases hb : t ≤ b
    · simp only [hb, if_true]
      obtain ⟨h1, h2, h3⟩ := ih (b - t) (by omega)
      refine ⟨?_, h2, ?_⟩
      · have e : bitsMsb b acc = bitsMsb t (acc >>> (b-t)) ++ bitsMsb (b-t) acc := by
          rw [← bitsMsb_add]; congr 1; omega
        rw [e, h1, and_ones]
        simp [bitStream, bitsMsb_mod]
      · intro y hy
        rcases List.mem_cons.mp hy with rfl | hy
        · rw [and_ones]; exact Nat.mod_lt _ (by positivity)
        · exact h3 y hy
    · simp only [hb, if_false]
      simp [bitStream]; omega

/-- A unit enters below the bits that were left. -/
theorem pushUnit_spec (f t acc x b : Nat) (hx : x < 2^f) (hb : b < t) :
    bitsMsb (b + f) (pushUnit f t acc x) = bitsMsb b acc ++ bitsMsb f x := by
  unfold pushUnit
  rw [and_ones]
  have h1 : bitsMsb (b+f) (((acc <<< f) ||| x) % 2^(f+t-1)) = bitsMsb (b+f) ((acc <<< f) ||| x) :=
    bitsMsb_congr _ _ _ fun i hi => by rw [Nat.testBit_mod_two_pow]; simp; omega
  rw [h1, bitsMsb_add]
  have hxb : ∀ i, f ≤ i → x.testBit i = false :=
      fun i hi => Nat.testBit_lt_two_pow (lt_of_lt_of_le hx (Nat.pow_le_pow_right (by omega) hi))
  congr 1
  · apply bitsMsb_congr; intro i hi
    simp [Nat.testBit_shiftRight, Nat.testBit_or, Nat.testBit_shiftLeft, hxb]
  · apply bitsMsb_congr; intro i hi
    simp [Nat.testBit_shiftLeft]; omega

/-- The whole loop: the bits that were left and the units' stream are the groups' stream and the bits now left. -/
theorem convertLoop_spec (f t : Nat) (ht : 1 ≤ t) (u : List Nat) (hu : ∀ x ∈ u, x < 2^f) (acc b : Nat) (hb : b < t) :
    bitsMsb b acc ++ bitStream f u = bitStream t (convertLoop f t u acc b).1 ++ bitsMsb (convertLoop f t u acc b).2.2 (convertLoop f t u acc b).2.1 ∧
    (convertLoop f t u acc b).2.2 < t ∧ ∀ y ∈ (convertLoop f t u acc b).1, y < 2^t := by
  induction u generalizing acc b with
  | nil => simp [convertLoop, bitStream, hb]
  | cons x u ih =>
    simp only [convertLoop]
    obtain ⟨e1, e2, e3⟩ := emitGroups_spec t (pushUnit f t acc x) ht (b+f) (b+f) (le_refl _)
    obtain ⟨l1, l2, l3⟩ := ih (fun y hy => hu y (by simp [hy])) (pushUnit f t acc x) _ e2
    refine ⟨?_, l2, ?_⟩
    · have : bitStream f (x :: u) = bitsMsb f x ++ bitStream f u := by simp [bitStream]
      rw [this, ← List.append_assoc, ← pushUnit_spec f t acc x b (hu x (by simp)) hb, e1, List.append_assoc, l1]
      simp [bitStream]
    · intro y hy
      rcases List.mem_append.mp hy with hy | hy
      · exact e3 y hy
      · exact l3 y hy

/-! ### Streams -/

theorem bitStream_length (w : Nat) (u : List Nat) : (bitStream w u).length = u.length * w := by
  induction u with
  | nil => simp [bitStream]
  | cons x u ih =>
    have : bitStream w (x :: u) = bitsMsb w x ++ bitStream w u := by simp [bitStream]
    rw [this, List.length_append, ih, bitsMsb_length, List.length_cons]; ring

theorem bitStream_inj (w : Nat) (u v : List Nat) (hl : u.length = v.length) (hu : ∀ x ∈ u, x < 2^w) (hv : ∀ x ∈ v,
    x < 2^w)
    (h : bitStream w u = bitStream w v) : u = v := by
  induction u generalizing v with
  | nil => cases v <;> simp_all
  | cons x u ih =>
    cases v with
    | nil => simp at hl
    | cons y v =>
      have e : ∀ z zs, bitStream w (z :: zs) = bitsMsb w z ++ bitStream w zs := by simp [bitStream]
      rw [e, e] at h
      obtain ⟨h1, h2⟩ := List.append_inj h (by simp [bitsMsb_length])
      have : x = y := by
        apply Nat.eq_of_testBit_eq; intro i
        by_cases hi : i < w
        · exact bitsMsb_inj _ _ _ h1 i hi
        · have := hu x (by simp); have := hv y (by simp)
          rw [Nat.testBit_lt_two_pow (lt_of_lt_of_le (hu x (by simp)) (Nat.pow_le_pow_right (by omega) (by omega))),
            Nat.testBit_lt_two_pow (lt_of_lt_of_le (hv y (by simp)) (Nat.pow_le_pow_right (by omega) (by omega)))]
      subst this
      rw [ih v (by simpa using hl) (fun z hz => hu z (by simp [hz])) (fun z hz => hv z (by simp [hz])) h2]

theorem bitStream_append (t : Nat) (a b : List Nat) : bitStream t (a ++ b) = bitStream t a ++ bitStream t b :=
    by simp [bitStream]

/-! ### The end of the conversion -/

/-- The pad group holds the bits left over, then zeros. -/
theorem bitsMsb_padGroup (acc t b : Nat) (hb : b < t) :
    bitsMsb t ((acc <<< (t - b)) &&& ((1 <<< t) - 1)) = bitsMsb b acc ++ List.replicate (t - b) false := by
  rw [and_ones, bitsMsb_mod]
  have : bitsMsb t (acc <<< (t-b)) = bitsMsb (b + (t-b)) (acc <<< (t-b)) := by congr 1; omega
  rw [this, bitsMsb_add]
  congr 1
  · congr 1; simp [Nat.shiftLeft_shiftRight]
  · rw [← bitsMsb_zero]; apply bitsMsb_congr; intro i hi; simp [Nat.testBit_shiftLeft]; omega

/-- The leftover test of the no-pad form: the bits left over are all zero. -/
theorem padGroup_eq_zero (acc t b : Nat) (hb : b < t) :
    (acc <<< (t - b)) &&& ((1 <<< t) - 1) = 0 ↔ bitsMsb b acc = List.replicate b false := by
  have hp := bitsMsb_padGroup acc t b hb
  constructor
  · intro h
    rw [h, bitsMsb_zero] at hp
    have : List.replicate t false = List.replicate b false ++ List.replicate (t-b) false := by
      rw [List.replicate_append_replicate]; congr 1; omega
    rw [this] at hp
    exact (List.append_cancel_right hp).symm
  · intro h
    rw [h, List.replicate_append_replicate, show b + (t - b) = t by omega, ← bitsMsb_zero] at hp
    have := bitsMsb_inj _ _ _ hp
    apply Nat.eq_of_testBit_eq; intro i
    by_cases hi : i < t
    · exact this i hi
    · rw [and_ones, Nat.testBit_mod_two_pow]; simp; omega

/-- Units that fit f bits pass the range check. -/
theorem any_wide_eq_false (f : Nat) (u : List Nat) (h : ∀ x ∈ u, x < 2^f) : u.any (fun x => x >>> f != 0) = false := by
  rw [List.any_eq_false]; intro x hx
  simp [Nat.shiftRight_eq_div_pow, Nat.div_eq_of_lt (h x hx)]

/-! ### The round trip that the output lengths exclude -/

/-- No conversion whatever has the output lengths of 42_repacker.md R181 and the round trip R185 claims for every f and t:
three one-bit units fill one byte, and one byte gives eight one-bit units (log 28). -/
theorem outputLength_excludes_roundTrip (conv : Nat → Nat → Bool → List Nat → Except ErrCode (List Nat))
    (answers : ∃ v, conv 1 8 true [1, 0, 1] = .ok v)
    (padLength : ∀ f t u v, 1 ≤ f → f ≤ 8 → 1 ≤ t → t ≤ 8 →
      conv f t true u = .ok v → v.length = (u.length * f + (t - 1)) / t)
    (noPadLength : ∀ f t u v, 1 ≤ f → f ≤ 8 → 1 ≤ t → t ≤ 8 →
      conv f t false u = .ok v → v.length = u.length * f / t) :
    ¬ ∀ f t u v, 1 ≤ f → f ≤ 8 → 1 ≤ t → t ≤ 8 → (∀ x ∈ u, x < 2 ^ f) →
      conv f t true u = .ok v → conv t f false v = .ok u := by
  intro roundTrip
  obtain ⟨v, hv⟩ := answers
  have forth := padLength 1 8 [1, 0, 1] v (by decide) (by decide) (by decide) (by decide) hv
  have back := noPadLength 8 1 v [1, 0, 1] (by decide) (by decide) (by decide) (by decide)
    (roundTrip 1 8 [1, 0, 1] v (by decide) (by decide) (by decide) (by decide) (by decide) hv)
  simp only [List.length_cons, List.length_nil] at forth back
  omega

end Sys2Proof.Machine
end

