-- ==== Sys2Proof/Machine/HostProgram.lean ====
section
/-! DEFINITION. The host's statements, which are not CAE commands (30_encoding.md R101): accesses, the one branch, and the
pseudo-statements' expansions. The host is outside the CAE: no step of the machine uses this file. -/

namespace Sys2Proof.Machine

/-- One statement of a host program (30_encoding.md R101). Names are numbered; a branch counts the statements it goes
back. -/
inductive HostStatement where
  /-- `WR32 a, v`, `WR16 a, v`, `WR8 a, v`: MemWrite(a, n, v). -/
  | wr (n : Nat) (a : HostAddr) (v : Word)
  /-- `RD32 a -> name` and its like: name <- MemRead(a, n). -/
  | rd (n : Nat) (a : HostAddr) (name : Nat)
  /-- `BNZ name & mask, label`: go back to the label, `back` statements before, while name & mask is not 0. -/
  | bnz (name : Nat) (mask : Word) (back : Nat)
  deriving DecidableEq, Repr

/-- `ISSUE <command>` (30_encoding.md R101). -/
def issueStatement (w : Word) : List HostStatement := [.wr 4 0x00C w]

/-- `WAIT`: poll STATUS until BUSY = 0, with the name `name` for what is read (30_encoding.md R101). -/
def waitStatement (name : Nat) : List HostStatement := [.rd 4 0x008 name, .bnz name 1 1]

/-- `RUN <command>`: ISSUE, then WAIT (30_encoding.md R101). -/
def runStatement (w : Word) (name : Nat) : List HostStatement := issueStatement w ++ waitStatement name

/-- `SETLEN PREFIX, n` (30_encoding.md R101). -/
def setPrefixLen (n : Nat) : List HostStatement := [.wr 4 0x010 (BitVec.ofNat 32 n)]

/-- `SETLEN IN, n` (30_encoding.md R101). -/
def setInLen (n : Nat) : List HostStatement := [.wr 4 0x014 (BitVec.ofNat 32 n)]

/-- One byte write per byte, at rising addresses in order (30_encoding.md R101). -/
def loadBytes (base : Nat) (bs : List Byte) : List HostStatement :=
  match bs with
  | [] => []
  | b :: rest => .wr 1 (BitVec.ofNat 12 base) (b.setWidth 32) :: loadBytes (base + 1) rest

/-- `LOAD PREFIX` (30_encoding.md R101). -/
def loadPrefix (bs : List Byte) : List HostStatement := loadBytes prefixBase bs

/-- `LOAD IN`, in each of its three spellings (30_encoding.md R101). -/
def loadIn (bs : List Byte) : List HostStatement := loadBytes inBase bs

/-- `CLEARDONE` (30_encoding.md R101). -/
def clearDone : List HostStatement := [.wr 4 0x008 0x2]

/-- Where a host program stands and what its names hold. -/
structure HostContext where
  /-- The statement it performs next. -/
  at_ : Nat
  /-- The names read so far, the latest first. -/
  names : List (Nat × Word)
  deriving DecidableEq, Repr

/-- What a name holds, 0 where nothing was read into it. -/
def nameValue (names : List (Nat × Word)) (name : Nat) : Word :=
  match names with
  | [] => 0
  | (k, v) :: rest => if k = name then v else nameValue rest name

/-- The access a statement makes, none for a branch (30_encoding.md R101). -/
def accessOf (st : HostStatement) : Option HostAccess :=
  match st with
  | .wr n a v => some (.write a n v)
  | .rd n a _ => some (.read a n)
  | .bnz _ _ _ => none

/-- The host performs its next statement, at the port or on its own (30_encoding.md R101). A read that raises BusError
gives the name no data (20_memory.md R66). -/
def hostTurn (prog : List HostStatement) (h : HostContext) (s : State) : HostContext × State :=
  match prog[h.at_]? with
  | none => (h, s)
  | some (.wr n a v) => ({ h with at_ := h.at_ + 1 }, portAccess s (.write a n v))
  | some (.rd n a name) =>
    let s' := portAccess s (.read a n)
    match s'.resp with
    | some (.data v) => ({ at_ := h.at_ + 1, names := (name, v) :: h.names }, s')
    | _ => ({ h with at_ := h.at_ + 1 }, s')
  | some (.bnz name mask back) =>
    if nameValue h.names name &&& mask ≠ 0 then ({ h with at_ := h.at_ - back }, s)
    else ({ h with at_ := h.at_ + 1 }, s)

end Sys2Proof.Machine
end

