-- ==== Sys2Proof/Tests/Slice0.lean ====
section
/-! SUPPORT. Tests: ill-formed terms refused, every command's word decoded, one step of every command, the port, and a
witness for every statement with hypotheses. Expected results are the spec's (95_test_vectors.md sections 2 and 3, or the
rule named), never the model's own answer. -/

namespace Sys2Proof.Tests

set_option Elab.async false

open Sys2Proof Sys2Proof.Machine

/-! ### Helpers -/

/-- The reset state with a schedule. -/
def idle (evs : List Event) : State := { State.reset with pending := evs }

/-- The reset state with the word accepted and a schedule. -/
def busy (w : Word) (evs : List Event) : State := { accept State.reset w with pending := evs }

/-- The reset state with rst asserted and a schedule. -/
def held (evs : List Event) : State := { State.reset with rst := true, pending := evs }

/-- The reset state with a prefix in PREFIX and bytes in IN, their lengths set, and ucf_snap. -/
def loaded (q p : List Byte) (u : Bool) : State :=
  { State.reset with
    mem := (Memory.store [] 0x100 q).store 0x200 p
    prefixLen := BitVec.ofNat 16 q.length
    inLen := BitVec.ofNat 16 p.length
    ucfSnap := u }

/-- The next state of a result. -/
def nextOf (r : Result) : Option State :=
  match r with
  | .next t => some t
  | .fault _ => none
  | .refused _ => none

/-- A result whose next state passes a test. -/
theorem next_with {r : Result} {p : State → Bool} (h : (nextOf r).any p = true) : ∃ t, r = .next t ∧ p t = true := by
  cases r with
  | next t => exact ⟨t, rfl, h⟩
  | fault f => cases h
  | refused f => cases h

/-- A success carries a pair. -/
theorem pair_of_isOk {α β : Type} {r : Except ErrCode (α × β)} (h : r.isOk = true) : ∃ x y, r = .ok (x, y) := by
  cases r with
  | ok x => exact ⟨x.1, x.2, rfl⟩
  | error e => exact absurd h (by simp [Except.isOk, Except.toBool])

/-- ERR, OUT up to OUT_LEN, RESULT and MOD after a command. -/
def shown (r : Result) : Option (ErrCode × List Byte × Word × Acc) :=
  (nextOf r).map (fun t => (t.status.err, t.mem.load outBase t.outLen.toNat, t.result, t.mod))

/-- P20 of 95_test_vectors.md. -/
def p20 : List Byte :=
  [0x76, 0xa0, 0x40, 0x53, 0xbd, 0xa0, 0xa8, 0x8b, 0xda, 0x51, 0x77, 0xb8, 0x6a, 0x15, 0xc3, 0xb2, 0x9f, 0x55, 0x98, 0x73]

/-- "bitcoincash". -/
def cashPrefix : List Byte := [0x62, 0x69, 0x74, 0x63, 0x6f, 0x69, 0x6e, 0x63, 0x61, 0x73, 0x68]

/-- The 34 symbols of P20 with type 0, as characters (95_test_vectors.md 2.5). -/
def p20Chars : List Byte :=
  [0x71, 0x70, 0x6d, 0x32, 0x71, 0x73, 0x7a, 0x6e, 0x68, 0x6b, 0x73, 0x32, 0x33, 0x7a, 0x37, 0x36, 0x32] ++
  [0x39, 0x6d, 0x6d, 0x73, 0x36, 0x73, 0x34, 0x63, 0x77, 0x65, 0x66, 0x37, 0x34, 0x76, 0x63, 0x77, 0x76]

/-- The string A0 of 95_test_vectors.md. -/
def a0 : List Byte := cashPrefix ++ [0x3a] ++ p20Chars ++ [0x79, 0x32, 0x32, 0x67, 0x64, 0x78, 0x36, 0x61]

/-! ### WellFormed: one ill-formed term per check (30_encoding.md R93 to R95) -/

theorem test_illFormed_sym : (Instr.pmStep 32).wellFormed = false := by decide
theorem test_illFormed_from : (Instr.cbRun 16 5 true).wellFormed = false := by decide
theorem test_illFormed_to : (Instr.cbRun 8 16 true).wellFormed = false := by decide
theorem test_illFormed_packType : (Instr.pack 256).wellFormed = false := by decide
theorem test_illFormed_encodeType : (Instr.encode 256).wellFormed = false := by decide

/-! ### Every command's word, written out from 30_encoding.md R92 to R96 -/

theorem test_decode_nop : decodeWord 0b00000000000000000000000000000000 = .ok .nop := by decide
theorem test_decode_pmInit : decodeWord 0b00000000000000000000000000000001 = .ok .pmInit := by decide
theorem test_decode_pmStep : decodeWord 0b00000000000000000001000100000010 = .ok (.pmStep 17) := by decide
theorem test_decode_pmRun : decodeWord 0b00000000000000000000000000000011 = .ok .pmRun := by decide
theorem test_decode_cbRun : decodeWord 0b00000000000000010101100000010000 = .ok (.cbRun 8 5 true) := by decide
theorem test_decode_b32Map : decodeWord 0b00000000000000000000000000100000 = .ok .b32Map := by decide
theorem test_decode_b32Unmap : decodeWord 0b00000000000000000000000000100001 = .ok .b32Unmap := by decide
theorem test_decode_pack : decodeWord 0b00000000000000000000011100110000 = .ok (.pack 7) := by decide
theorem test_decode_checksum : decodeWord 0b00000000000000000000000000110001 = .ok .checksum := by decide
theorem test_decode_encode : decodeWord 0b00000000000000000000100001000000 = .ok (.encode 8) := by decide
theorem test_decode_decode : decodeWord 0b00000000000000000000000001000001 = .ok .decode := by decide

/-- Reserved bits and undefined opcodes (95_test_vectors.md 2.9). -/
theorem test_illegal_words :
    [0x00000100, 0x00000004, 0x000000ff, 0x00002002, 0x00035810, 0x00010030, 0x00000141, 0x80000000].all
      (fun w => !legalWord w) = true := by decide

/-- The string of 45_base32.md R250. -/
theorem test_alphabetCodes : alphabetCodes = "qpzry9x8gf2tvdw0s3jn54khce6mua7l".toList.map Char.toNat := by decide

/-- The host's question about a table word, and a value too wide for a word. -/
theorem test_decodeTableWord : decodeTableWord 32 0x00000141 = none ∧ decodeTableWord 32 0x41 = some .decode ∧
    decodeTableWord 40 (2 ^ 32) = none := by decide

/-! ### One step of every command (95_test_vectors.md 2.1 to 2.9) -/

theorem test_step_nop : (nextOf (step (State.reset.withFetchWord 32 0x00))).map (fun t => statusWord t.status) =
    some 0x00000002 := by decide

theorem test_step_illegal : (nextOf (step (State.reset.withFetchWord 32 0x00002002))).map
    (fun t => (statusWord t.status, t.pmAcc)) = some (0x00020a02, 0x0000000001) := by decide

theorem test_step_pmInit : (nextOf (step ({ State.reset with pmAcc := 0x1234567890 }.withFetchWord 32 0x01))).map
    (fun t => (statusWord t.status, t.pmAcc)) = some (0x00010002, 0x0000000001) := by decide

theorem test_step_pmStep : (nextOf (step ({ State.reset with pmAcc := 0x1234567890 }.withFetchWord 32 0x00000502))).map
    (fun t => t.pmAcc) = some 0x3f3da28be7 := by decide

theorem test_pmStep_every_bit : (nextOf (exec (.pmStep 31) { State.reset with pmAcc := 0xffffffffff })).map
    (fun t => t.pmAcc) = some 0x5de5995d60 := by decide

theorem test_pmRun : (nextOf (exec .pmRun (loaded [] [16, 0, 8, 1, 9, 7, 27, 21, 23, 30] false))).map
    (fun t => (t.status.err, t.pmAcc)) = some (.ok, 0x0000000001) := by decide

theorem test_pmRun_range : (nextOf (exec .pmRun (loaded [] [1, 32] false))).map
    (fun t => (t.status.err, t.pmAcc)) = some (.symbolRange, 0x0000000001) := by decide

theorem test_cbRun_pad : shown (exec (.cbRun 8 5 true) (loaded [] [0x00, 0x76, 0xa0] false)) =
    some (.ok, [0, 1, 27, 10, 0], 0, 0) := by decide +kernel

theorem test_cbRun_nopad : shown (exec (.cbRun 5 8 false) (loaded [] [31, 29] false)) =
    some (.padding, [], 0, 0) := by decide

theorem test_b32Map : shown (exec .b32Map (loaded [] [0, 1, 2, 3, 4, 5, 6, 7] false)) =
    some (.ok, [0x71, 0x70, 0x7a, 0x72, 0x79, 0x39, 0x78, 0x38], 0, 0) := by decide

theorem test_b32Map_range : shown (exec .b32Map (loaded [] [0, 32] false)) = some (.symbolRange, [], 0, 0) := by decide

/-- "qPzR" with the fold. -/
theorem test_b32Unmap_fold : shown (exec .b32Unmap (loaded [] [0x71, 0x50, 0x7a, 0x52] true)) =
    some (.ok, [0, 1, 2, 3], 0, 0) := by decide +kernel

/-- "B" with the fold: 'b' is not in the alphabet. -/
theorem test_b32Unmap_invalid : shown (exec .b32Unmap (loaded [] [0x42] true)) =
    some (.invalidCharacter, [], 0, 0) := by decide

theorem test_pack : (shown (exec (.pack 7) (loaded [] p20 false))).map (fun r => (r.1, r.2.1.take 4, r.2.2.1)) =
    some (.ok, [7, 1, 27, 10], 0x00000738) := by decide

/-- 21 bytes with type 8: the type is checked first. -/
theorem test_pack_type_first : shown (exec (.pack 8) (loaded [] (0 :: p20) false)) =
    some (.invalidType, [], 0, 0) := by decide

theorem test_checksum : shown (exec .checksum (loaded [0x70] [] false)) =
    some (.ok, [8, 1, 9, 7, 27, 21, 23, 30], 0, 0x40527dd6fe) := by decide +kernel

theorem test_checksum_range : shown (exec .checksum (loaded cashPrefix [0, 32] false)) =
    some (.symbolRange, [], 0, 0) := by decide

theorem test_encode : shown (exec (.encode 0) (loaded cashPrefix p20 false)) =
    some (.ok, a0, 0x00000000, 0x2294869b5d) := by decide +kernel

theorem test_encode_size : shown (exec (.encode 0) (loaded cashPrefix (0 :: p20) false)) =
    some (.unsupportedSize, [], 0, 0) := by decide

theorem test_decode_a0 : shown (exec .decode (loaded [] a0 false)) = some (.ok, p20, 0, 0) := by decide +kernel

/-- A0 with its last character changed to 'q'. -/
theorem test_decode_mismatch : shown (exec .decode (loaded [] (a0.take 53 ++ [0x71]) false)) =
    some (.checksumMismatch, [], 0, 0x000000001d) := by decide +kernel

/-- 42_repacker.md R185 fails for f = 1, t = 8 by R180 itself: [1, 0, 1] padded is [0xa0] (95_test_vectors.md 2.3), and
[0xa0] has the eight bits 10100000, none of them left over; so too [31, 31] from 5 to 8 and back (log 28). -/
theorem test_repack_widths : convertBits 1 8 true [1, 0, 1] = .ok [0xa0] ∧
    convertBits 8 1 false [0xa0] = .ok [1, 0, 1, 0, 0, 0, 0, 0] ∧
    convertBits 5 8 true [31, 31] = .ok [0xff, 0xc0] ∧ convertBits 8 5 false [0xff, 0xc0] = .ok [31, 31, 0] := by decide

/-! ### The port, resets and the schedule -/

/-- RD32 of OUT after a completed ENCODE is little-endian (95_test_vectors.md 2.7: RD32 0x308 = 0x3a687361, "ash:"). -/
theorem test_read_little_endian : ((nextOf (exec (.encode 0) (loaded cashPrefix p20 false))).map
    (fun t => (portAccess t (.read 0x308 4)).resp)) = some (some (.data 0x3a687361)) := by decide +kernel

/-- A byte write to IN and the halfword read of it (20_memory.md R63). -/
theorem test_write_then_read :
    (portAccess (portAccess (idle []) (.write 0x201 1 0xffffff5a)) (.read 0x200 2)).resp = some (.data 0x5a00) := by
  decide

/-- Writing the value an unlisted byte reads as removes the entry (log 9). -/
theorem test_write_zero_removes :
    (portAccess (portAccess (idle []) (.write 0x200 4 0x00110000)) (.write 0x202 1 0)).mem = [] := by decide

/-- A misaligned access is a BusError, a narrow register read too (20_memory.md R64 to R66). -/
theorem test_bus_errors : [HostAccess.read 0x201 2, .read 0x008 1, .write 0x400 4 0, .read 0x100 3].all
    (fun h => (portAccess (idle []) h).resp == some .busError) = true := by decide

/-- ID while BUSY = 1 (20_memory.md R67). -/
theorem test_id_busy : (portAccess (busy 0x40 []) (.read 0x000 4)).resp = some (.data 0x43414501) := by decide

/-- A soft reset in the busy window aborts the command (70_reset_and_hazards.md R341). -/
theorem test_soft_reset_aborts :
    (portAccess (busy 0x40 []) (.write 0x004 4 0x00000007)) = { State.reset with resp := some .done } := by decide

/-- A whole run from reset: PM.STEP 31 issued, the engine completes it, STATUS is read (95_test_vectors.md 2.2). -/
theorem test_run_from_reset : ((nextOf (Sys2Proof.core.run 3
    (idle [.host (.write 0x00C 4 0x00001f02), .engine, .host (.read 0x008 4)]))).map
      (fun t => (t.resp, t.pmAcc))) = some (some (.data 0x00020002), 0x000000003f) := by decide

/-! ### Statements of the assembler and the host (30_encoding.md R100, R101) -/

theorem test_assemble_cbRun :
    assembleLine ['c', 'b', '.', 'r', 'u', 'n', ' ', '8', ',', ' ', '5', ',', ' ', 'p', 'a', 'd'] = some 0x00015810 := by
  decide

theorem test_assemble_quoted : assembleLine ['P', 'M', '.', 'S', 'T', 'E', 'P', ' ', '\'', 'l', '\''] = some 0x00001f02 := by
  decide

theorem test_assemble_range : assembleLine ['P', 'M', '.', 'S', 'T', 'E', 'P', ' ', '3', '2'] = none := by decide

theorem test_render_illegal : renderStatement (disassemble 0x00002002) =
    ['.', 'w', 'o', 'r', 'd', ' ', '0', 'x', '0', '0', '0', '0', '2', '0', '0', '2'] := by decide

/-- WAIT reads STATUS and goes back while BUSY = 1. -/
theorem test_host_wait :
    let prog := runStatement 0x00000002 0
    let a := hostTurn prog ⟨0, []⟩ (idle [])
    let b := hostTurn prog a.1 a.2
    let c := hostTurn prog b.1 b.2
    (a.2.status.busy, b.1.at_, c.1.at_) = (true, 2, 1) := by decide

/-! ### Witnesses: the hypotheses of each statement, met by a concrete state and operands -/

theorem witness_EncodedCommandDecodesBack : (Instr.pmStep 31).WellFormed ∧ (Instr.cbRun 15 15 true).WellFormed ∧
    (Instr.pack 255).WellFormed ∧ (Instr.encode 255).WellFormed := by decide

theorem witness_DecodedWordEncodesBack : decodeWord 0x0001ff10 = .ok (.cbRun 15 15 true) ∧
    decodeWord 0x0000ff40 = .ok (.encode 255) := by decide

theorem witness_DisassembledWordAssembles : legalWord 0x00000101 = false ∧ legalWord 0x0000ff40 = true := by decide

theorem witness_StepRunsDecodedCommand :
    (busy 0x41 []).rst = false ∧ (busy 0x41 []).status.busy = true ∧ decodeWord (busy 0x41 []).cmd = .ok .decode ∧
    (busy 0x41 []).pending = [] ∧ (busy 0x41 [.engine]).pending = .engine :: [] := by decide

theorem witness_IllegalWordCompletesWithoutEffect :
    (busy 0x101 []).rst = false ∧ (busy 0x101 []).status.busy = true ∧ (busy 0x101 []).pending = [] ∧
    legalWord (busy 0x101 []).cmd = false := by decide

theorem witness_CmdWriteAcceptsEveryWord :
    (idle [.host (.write 0x00C 4 0xffffffff)]).rst = false ∧
    (idle [.host (.write 0x00C 4 0xffffffff)]).status.busy = false ∧
    (idle [.host (.write 0x00C 4 0xffffffff)]).pending = .host (.write 0x00C 4 0xffffffff) :: [] ∧
    (busy 0x41 [.host (.write 0x00C 4 0x40)]).rst = false ∧
    (busy 0x41 [.host (.write 0x00C 4 0x40)]).status.busy = true ∧
    (busy 0x41 [.host (.write 0x00C 4 0x40)]).pending = .host (.write 0x00C 4 0x40) :: [] := by decide

/-- A state with a command in flight and a schedule, and one with rst asserted. -/
theorem witness_EveryScheduleEndsIdle :
    ((busy 0x40 [.host (.read 0x000 4), .engine]).rst = true →
      (busy 0x40 [.host (.read 0x000 4), .engine]).status.busy = false) ∧
    ((held [.resetRelease]).rst = true ∧ (held [.resetRelease]).status.busy = false) := by decide

/-- Each ground of a BusError at its first address, and the last addresses and sizes that have none. -/
theorem witness_BusErrorExactlyForBadAccesses :
    (idle [.host (.read 0x400 1)]).rst = false ∧
    (idle [.host (.read 0x400 1)]).pending = .host (.read 0x400 1) :: [] ∧
    BadAccess 0x400 1 ∧ BadAccess 0x200 3 ∧ BadAccess 0x3FF 2 ∧ BadAccess 0x0FF 1 ∧ BadAccess 0xFFF 1 ∧
    BadAccess 0x200 0 ∧
    ¬ BadAccess 0x3FF 1 ∧ ¬ BadAccess 0x3FC 4 ∧ ¬ BadAccess 0x0FC 4 ∧ ¬ BadAccess 0x100 1 ∧ ¬ BadAccess 0x000 4 := by
  unfold BadAccess; refine ⟨?_, ?_, ?_, ?_, ?_, ?_, ?_, ?_, ?_, ?_, ?_, ?_, ?_⟩ <;> decide

theorem witness_BusyFilterRefusesAccesses :
    (busy 0x40 []).rst = false ∧ (busy 0x40 []).status.busy = true ∧
    ¬ BadAccess 0x00C 4 ∧ ¬ BadAccess 0x3FF 1 ∧
    (busy 0x40 [.host (.read 0x00C 4)]).pending = .host (.read 0x00C 4) :: [] ∧
    (busy 0x40 [.host (.write 0x3FF 1 0)]).pending = .host (.write 0x3FF 1 0) :: [] ∧
    (busy 0x40 [.host (.read 0x000 4)]).pending = .host (.read 0x000 4) :: [] ∧
    (busy 0x40 [.host (.read 0x004 4)]).pending = .host (.read 0x004 4) :: [] ∧
    (busy 0x40 [.host (.read 0x008 4)]).pending = .host (.read 0x008 4) :: [] ∧
    (busy 0x40 [.host (.write 0x000 4 1)]).pending = .host (.write 0x000 4 1) :: [] ∧
    (0x00000003 : Word).getLsbD 2 = false ∧ (0x00000004 : Word).getLsbD 2 = true ∧
    (busy 0x40 [.host (.write 0x004 4 4)]).pending = .host (.write 0x004 4 4) :: [] ∧
    (busy 0x40 [.host (.write 0x008 4 6)]).pending = .host (.write 0x008 4 6) :: [] := by
  unfold BadAccess; refine ⟨?_, ?_, ?_, ?_, ?_, ?_, ?_, ?_, ?_, ?_, ?_, ?_, ?_, ?_⟩ <;> decide

/-- The first and last address of PREFIX, of IN and of OUT, each with a size that fits. -/
theorem witness_BufferReadIsLittleEndian :
    (idle [.host (.read 0x13C 4)]).rst = false ∧ (idle [.host (.read 0x13C 4)]).status.busy = false ∧
    (idle [.host (.read 0x13C 4)]).pending = .host (.read 0x13C 4) :: [] ∧
    ¬ BadAccess 0x100 4 ∧ ¬ BadAccess 0x13F 1 ∧ ¬ BadAccess 0x13C 4 ∧ ¬ BadAccess 0x200 2 ∧ ¬ BadAccess 0x3FC 4 ∧
    ((0x100 ≤ (0x13F : HostAddr).toNat ∧ (0x13F : HostAddr).toNat < 0x140) ∨ 0x200 ≤ (0x13F : HostAddr).toNat) ∧
    ((0x100 ≤ (0x200 : HostAddr).toNat ∧ (0x200 : HostAddr).toNat < 0x140) ∨ 0x200 ≤ (0x200 : HostAddr).toNat) := by
  unfold BadAccess; refine ⟨?_, ?_, ?_, ?_, ?_, ?_, ?_, ?_, ?_, ?_⟩ <;> decide

theorem witness_BufferWriteStoresItsLanes :
    (idle [.host (.write 0x2FC 4 0xa1b2c3d4)]).rst = false ∧
    (idle [.host (.write 0x2FC 4 0xa1b2c3d4)]).status.busy = false ∧
    (idle [.host (.write 0x2FC 4 0xa1b2c3d4)]).pending = .host (.write 0x2FC 4 0xa1b2c3d4) :: [] ∧
    ¬ BadAccess 0x2FC 4 ∧ ¬ BadAccess 0x13F 1 ∧ ¬ BadAccess 0x100 4 ∧
    (0x200 ≤ (0x2FC : HostAddr).toNat ∧ (0x2FC : HostAddr).toNat < 0x300) ∧
    (0x100 ≤ (0x13F : HostAddr).toNat ∧ (0x13F : HostAddr).toNat < 0x140) := by
  unfold BadAccess; refine ⟨?_, ?_, ?_, ?_, ?_, ?_, ?_, ?_⟩ <;> decide

/-- OUT, the reserved register offsets, the reserved region and a read-only register, at boundary addresses. -/
theorem witness_IgnoredWritesAndReservedReads :
    (idle [.host (.write 0x300 4 1)]).rst = false ∧ (idle [.host (.write 0x300 4 1)]).status.busy = false ∧
    (idle [.host (.write 0x300 4 1)]).pending = .host (.write 0x300 4 1) :: [] ∧
    (idle [.host (.read 0x038 4)]).pending = .host (.read 0x038 4) :: [] ∧
    ¬ BadAccess 0x300 4 ∧ ¬ BadAccess 0x038 4 ∧ ¬ BadAccess 0x0FC 4 ∧ ¬ BadAccess 0x140 1 ∧ ¬ BadAccess 0x1FF 1 ∧
    ¬ BadAccess 0x018 4 ∧ ¬ BadAccess 0x034 4 ∧
    (0x038 ≤ (0x0FC : HostAddr).toNat ∧ (0x0FC : HostAddr).toNat < 0x100) ∧
    (0x140 ≤ (0x1FF : HostAddr).toNat ∧ (0x1FF : HostAddr).toNat < 0x200) := by
  unfold BadAccess; refine ⟨?_, ?_, ?_, ?_, ?_, ?_, ?_, ?_, ?_, ?_, ?_, ?_, ?_⟩ <;> decide

theorem witness_RegisterReadsReturnTheRegisters :
    (idle [.host (.read 0x034 4)]).rst = false ∧ (idle [.host (.read 0x034 4)]).status.busy = false ∧
    (idle [.host (.read 0x034 4)]).pending = .host (.read 0x034 4) :: [] ∧
    ((0x034, (State.reset.mod >>> 32).setWidth 32) : HostAddr × Word) ∈
      ([(0x000, 0x43414501), (0x034, (State.reset.mod >>> 32).setWidth 32)] : List (HostAddr × Word)) := by decide

theorem witness_RegisterWritesChangeTheirRegister :
    (idle []).rst = false ∧ (idle []).status.busy = false ∧
    (idle [.host (.write 0x010 4 0xffffffff)]).pending = .host (.write 0x010 4 0xffffffff) :: [] ∧
    (idle [.host (.write 0x014 4 0xffffffff)]).pending = .host (.write 0x014 4 0xffffffff) :: [] ∧
    (idle [.host (.write 0x020 4 0xffffffff)]).pending = .host (.write 0x020 4 0xffffffff) :: [] ∧
    (idle [.host (.write 0x024 4 0xffffffff)]).pending = .host (.write 0x024 4 0xffffffff) :: [] ∧
    (0xfffffffb : Word).getLsbD 2 = false ∧
    (idle [.host (.write 0x004 4 0xfffffffb)]).pending = .host (.write 0x004 4 0xfffffffb) :: [] := by decide

theorem witness_StatusWriteOnlyClears :
    (busy 0x40 [.host (.write 0x008 4 0x6)]).rst = false ∧
    (busy 0x40 [.host (.write 0x008 4 0x6)]).pending = .host (.write 0x008 4 0x6) :: [] := by decide

theorem witness_ResetsGiveTheResetState :
    (busy 0x40 [.host (.write 0x004 4 0x7)]).rst = false ∧ (0x7 : Word).getLsbD 2 = true ∧
    (busy 0x40 [.host (.write 0x004 4 0x7)]).pending = .host (.write 0x004 4 0x7) :: [] ∧
    (held [.resetRelease]).pending = .resetRelease :: [] := by decide

theorem witness_AssertedResetHoldsTheMachine :
    (busy 0x40 [.resetAssert]).pending = .resetAssert :: [] ∧
    (held [.host (.read 0x000 4)]).rst = true ∧
    (held [.host (.read 0x000 4)]).pending = .host (.read 0x000 4) :: [] ∧
    (held [.engine]).pending = .engine :: [] ∧ (held []).pending = [] := by decide

/-- A completion, both edges of rst, and each of the five writes with DONE and IE set before it. -/
theorem witness_InterruptFollowsDoneAndEnable :
    let s (evs : List Event) : State :=
      { State.reset with ctrl := ⟨true, false⟩, status := ⟨false, true, false, .ok, 0⟩, pending := evs }
    (∃ t, completeCommand (s []) = .next t) ∧ (∃ t, step (s [.resetAssert]) = .next t) ∧
    (∃ t, step (held [.resetRelease]) = .next t) ∧ (s []).irq = true ∧ (s []).rst = false ∧ (s []).status.busy = false ∧
    (∃ t, step (s [.host (.write 0x008 4 2)]) = .next t) ∧ (0x2 : Word).getLsbD 1 = true ∧
    (∃ t, step (s [.host (.write 0x004 4 0)]) = .next t) ∧ (0x0 : Word).getLsbD 0 = false ∧
    (∃ t, step (s [.host (.write 0x004 4 4)]) = .next t) ∧ (0x4 : Word).getLsbD 2 = true ∧
    (∃ t, step (s [.host (.write 0x004 4 1)]) = .next t) ∧ (0x1 : Word).getLsbD 0 = true ∧
    (0x1 : Word).getLsbD 2 = false ∧
    (∃ t, step (s [.host (.write 0x00C 4 0)]) = .next t) :=
  ⟨⟨_, rfl⟩, ⟨_, rfl⟩, ⟨_, rfl⟩, by decide, rfl, rfl, ⟨_, rfl⟩, by decide, ⟨_, rfl⟩, by decide, ⟨_, rfl⟩, by decide,
    ⟨_, rfl⟩, by decide, by decide, ⟨_, rfl⟩⟩

/-- The clauses on turns and on what leaves irq as it was: an engine's turn with a command in flight, with none and with
rst asserted; a STATUS write with bit 1 clear; a refused CMD write; a narrow access at CTRL's address. -/
theorem witness_InterruptFollowsDoneAndEnable_unchanged :
    (∃ t, step (busy 0x00 [.engine]) = .next t) ∧ (busy 0x00 []).status.busy = true ∧ (busy 0x00 []).rst = false ∧
    (∃ t, step (idle []) = .next t) ∧ (idle []).status.busy = false ∧
    (∃ t, step (held []) = .next t) ∧ (held []).rst = true ∧
    (∃ t, step (idle [.host (.write 0x008 4 4)]) = .next t) ∧ (0x4 : Word).getLsbD 1 = false ∧
    (∃ t, step (busy 0x00 [.host (.write 0x00C 4 0)]) = .next t) ∧
    (∃ t, step (idle [.host (.write 0x004 2 1)]) = .next t) ∧
    (∀ v, HostAccess.write 0x004 2 1 ≠ .write 0x004 4 v ∧ HostAccess.write 0x004 2 1 ≠ .write 0x008 4 v ∧
      HostAccess.write 0x004 2 1 ≠ .write 0x00C 4 v) :=
  ⟨⟨_, rfl⟩, rfl, rfl, ⟨_, rfl⟩, rfl, ⟨_, rfl⟩, rfl, ⟨_, rfl⟩, by decide, ⟨_, rfl⟩, ⟨_, rfl⟩, fun _ => by simp⟩

theorem witness_CompletionAndClearInEitherOrder :
    (busy 0x30 []).rst = false ∧ (busy 0x30 []).status.busy = true := by decide

theorem witness_BusyWindowAccessesDoNotChangeTheResult :
    (busy 0x31 []).rst = false ∧ (busy 0x31 []).status.busy = true ∧
    ∀ h ∈ ([.write 0x200 4 7, .write 0x014 4 9, .write 0x004 4 3, .read 0x300 1] : List HostAccess),
      isSoftReset h = false := by decide

/-- A state in which no other step has left anything: with a command in flight, and with rst asserted. -/
theorem inv_busy : Inv (busy 0x31 []) where
  memWf := by decide
  memMapped := by decide
  outLenBound := by decide
  outTail := fun _ _ _ => rfl
  resultShape := ⟨0, by decide, by decide⟩
  opIsCmd := by decide
  busyFresh := by decide
  heldInReset := by decide

theorem witness_StepKeepsTheInvariant : Inv (busy 0x31 []) ∧ ∃ t, step (busy 0x31 []) = .next t := ⟨inv_busy, _, rfl⟩

theorem witness_SizeTableNeverChanges :
    ∃ t, Sys2Proof.core.run 2 (busy 0x31 [.engine, .host (.write 0x004 4 4)]) = .next t := ⟨_, rfl⟩

theorem witness_CommandsWriteOnlyTheirColumns :
    (∃ t, exec .pmRun (loaded [] [1, 32] false) = .next t ∧ t.status.err ≠ .ok) ∧
    writesPmAcc .decode = false ∧ writesOut .pmInit = false ∧ writesResult .checksum = false ∧
    writesMod (.pack 0) = false ∧
    decodeWord (busy 0x101 []).cmd = .error (.reservedBits 0x01) ∧
    (∃ t, completeCommand (busy 0x101 []) = .next t) :=
  ⟨⟨_, rfl, by decide⟩, rfl, rfl, rfl, rfl, by decide, ⟨_, rfl⟩⟩

theorem witness_FailedCommandLeavesNoResult :
    (∃ t, exec (.pack 8) (loaded [] [1] false) = .next t ∧ t.status.err ≠ .ok) ∧ writesOut (.pack 8) = true ∧
    writesResult (.pack 8) = true :=
  ⟨⟨_, rfl, by decide⟩, rfl, rfl⟩

theorem witness_CommandsCompleteWithTheirCodes :
    (∃ t, exec .b32Map (loaded [] [32] false) = .next t) ∧
    decodeWord (busy 0x04 []).cmd = .error (.undefinedOpcode 0x04) ∧
    ∃ t, completeCommand (busy 0x04 []) = .next t :=
  ⟨⟨_, rfl⟩, by decide, ⟨_, rfl⟩⟩

/-- IN_LEN = 257 and PREFIX_LEN = 65, and the lengths 256 and 64 that pass. -/
theorem witness_LengthChecksComeFirst :
    readsIn (.cbRun 0 0 false) = true ∧ 256 < ({ State.reset with inLen := 257 } : State).inLen.toNat ∧
    readsPrefix .decode = true ∧ 64 < ({ State.reset with prefixLen := 65 } : State).prefixLen.toNat ∧
    readsIn (.pmStep 31) = false ∧ ¬ 256 < ({ State.reset with inLen := 256 } : State).inLen.toNat := by decide

theorem witness_PmStepAppliesPolyStep : 31 < 32 ∧ ({ State.reset with pmAcc := 0 } : State).pmAcc = 0 := by decide

theorem witness_FortyBitAccumulatorSuffices : 2 ^ 40 - 1 < 2 ^ 40 ∧ 31 < 32 := by decide

theorem witness_PmRunStepsOverInAllOrNothing :
    256 < ({ State.reset with inLen := 257 } : State).inLen.toNat ∧
    (loaded [] [31, 32] false).inLen.toNat ≤ 256 ∧ (∃ b ∈ (loaded [] [31, 32] false).inOperand, 32 ≤ b.toNat) ∧
    (∀ b ∈ (loaded [] [31, 0] false).inOperand, b.toNat < 32) := by decide

theorem witness_PolyModIsAffine : ([0, 31] : List Symbol).length = ([7, 9] : List Symbol).length := by decide

theorem witness_OneChangedSymbolChangesPolyMod : (0 : Symbol) ≠ 31 := by decide

/-- Widths 1 and 8, units that fit and one that does not. -/
theorem witness_ConvertBitsRepacksTheBitStream :
    1 ≤ 1 ∧ 1 ≤ 8 ∧ 8 ≤ 8 ∧ (∃ x ∈ [0, 2], 2 ^ 1 ≤ x) ∧ (∀ x ∈ [0, 1, 1], x < 2 ^ 1) ∧ (∀ x ∈ [255, 0], x < 2 ^ 8) := by
  decide

theorem witness_ConvertBitsOutputLength :
    convertBits 8 5 true [0xff] = .ok [31, 28] ∧ convertBits 8 5 false [0xf8] = .ok [31] := by decide

/-- A pair of widths with t ≤ f, and one with t > f, where a zero unit comes back. -/
theorem witness_RepackRoundTrip : (∀ x ∈ [0xff], x < 2 ^ 8) ∧ convertBits 8 5 true [0xff] = .ok [31, 28] ∧ 5 ≤ 8 ∧
    (∀ x ∈ [1], x < 2 ^ 1) ∧ convertBits 1 8 true [1] = .ok [128] := by decide

theorem witness_CbRunConvertsIn :
    256 < ({ State.reset with inLen := 257 } : State).inLen.toNat ∧ (0 < 1) ∧ (8 < 9) ∧
    (loaded [] [32] false).inLen.toNat ≤ 256 ∧
    convertBits 5 8 false ((loaded [] [32] false).inOperand.map BitVec.toNat) = .error .symbolRange ∧
    convertBits 8 1 true ((loaded [] [0xa5] false).inOperand.map BitVec.toNat) = .ok [1, 0, 1, 0, 0, 1, 0, 1] ∧
    (∃ v, convertBits 8 1 true (({ State.reset with inLen := 33 } : State).inOperand.map BitVec.toNat) = .ok v ∧
      256 < v.length) ∧
    (∃ v, convertBits 8 1 true (({ State.reset with inLen := 32 } : State).inOperand.map BitVec.toNat) = .ok v ∧
      v.length = 256) := by
  refine ⟨by decide, by decide, by decide, by decide, by decide, by decide +kernel, ?_, ?_⟩
  · exact ⟨List.replicate 264 0, by decide +kernel, by decide +kernel⟩
  · exact ⟨List.replicate 256 0, by decide +kernel, by decide +kernel⟩

theorem witness_B32MapWritesTheCharacters :
    256 < ({ State.reset with inLen := 257 } : State).inLen.toNat ∧
    (loaded [] [31, 32] false).inLen.toNat ≤ 256 ∧ (∃ b ∈ (loaded [] [31, 32] false).inOperand, 32 ≤ b.toNat) ∧
    (∀ b ∈ (loaded [] [31, 0] false).inOperand, b.toNat < 32) := by decide

theorem witness_B32UnmapWritesTheSymbols :
    256 < ({ State.reset with inLen := 257 } : State).inLen.toNat ∧
    (loaded [] [0x71, 0x51] false).inLen.toNat ≤ 256 ∧
    (∃ b ∈ (loaded [] [0x71, 0x51] false).inOperand, unmapByte (loaded [] [0x71, 0x51] false).ucfSnap b = none) ∧
    (∀ b ∈ (loaded [] [0x71, 0x51] true).inOperand, unmapByte (loaded [] [0x71, 0x51] true).ucfSnap b ≠ none) := by
  decide +kernel

theorem test_defaultSizeTable_valid : SizeTableValid Config.defaultSizeTable := by
  refine ⟨by decide, fun i n hn => ?_⟩
  have h : ∀ i : Fin 8, (Config.defaultSizeTable[i]).getD 0 ≤ 256 := by decide
  have := h i
  rw [Option.mem_def.mp hn] at this
  exact this

theorem witness_PackPacksThePayload : SizeTableValid State.reset.sizeTable ∧
    256 < ({ State.reset with inLen := 257 } : State).inLen.toNat ∧ 8 ≤ 8 ∧ 7 < 8 ∧
    (∀ c : Fin 8, State.reset.sizeTable[c] ≠ some ({ State.reset with inLen := 256 } : State).inLen.toNat) ∧
    State.reset.sizeTable[(7 : Fin 8)] = some ({ State.reset with inLen := 64 } : State).inLen.toNat ∧
    (∃ v, convertBits 8 5 true ((7 * 8 + 7) :: ({ State.reset with inLen := 64 } : State).inOperand.map BitVec.toNat) =
      .ok v ∧ v.length ≤ 256) :=
  ⟨test_defaultSizeTable_valid, by decide, by decide, by decide, by decide, by decide,
    ⟨7 :: 28 :: List.replicate 102 0, by decide +kernel, by decide⟩⟩

/-- A padded conversion of bytes into 5-bit units holds at least their bits. -/
theorem convert_padded (u : List Nat) (hu : ∀ x ∈ u, x < 2 ^ 8) :
    ∃ v, convertBits 8 5 true u = .ok v ∧ u.length * 8 ≤ v.length * 5 := by
  obtain ⟨h1, h2, -⟩ := convertLoop_spec 8 5 (by omega) u hu 0 0 (by omega)
  have h1 := congrArg List.length h1
  simp only [List.length_append, bitStream_length, bitsMsb_length] at h1
  simp only [convertBits, any_wide_eq_false 8 u hu, Bool.false_eq_true, if_false, finishConvert, if_true]
  split
  · exact ⟨_, rfl, by simp only [List.length_append, List.length_singleton]; omega⟩
  · exact ⟨_, rfl, by omega⟩

/-- A valid table with a class of 256 bytes: a payload of that length makes PACK and ENCODE overflow. -/
theorem witness_overflow :
    SizeTableValid #v[some 256, none, none, none, none, none, none, none] ∧
    ({ State.reset with inLen := 256 } : State).inLen.toNat = 256 ∧
    ∀ p : List Byte, p.length = 256 →
      ∃ v, convertBits 8 5 true ((0 * 8 + 0) :: p.map BitVec.toNat) = .ok v ∧ 256 < v.length := by
  refine ⟨⟨by decide, fun i n hn => ?_⟩, by decide, fun p hp => ?_⟩
  · have h : ∀ i : Fin 8,
        ((#v[some 256, none, none, none, none, none, none, none] : Config.SizeTable)[i]).getD 0 ≤ 256 := by decide
    have := h i
    rw [Option.mem_def.mp hn] at this
    exact this
  · obtain ⟨v, h1, h2⟩ := convert_padded ((0 * 8 + 0) :: p.map BitVec.toNat) (by
      intro x hx
      rcases List.mem_cons.mp hx with rfl | hx
      · omega
      · obtain ⟨b, _, rfl⟩ := List.mem_map.mp hx; exact b.isLt)
    simp only [List.length_cons, List.length_map] at h2
    exact ⟨v, h1, by omega⟩

theorem witness_PackedSymbolsBeginWithTheVersion :
    ∃ ds vb, packPayload Config.defaultSizeTable p20 7 = .ok (ds, vb) := pair_of_isOk (by decide +kernel)

theorem witness_ChecksumWritesItsDigits :
    256 < ({ State.reset with inLen := 257 } : State).inLen.toNat ∧
    64 < ({ State.reset with prefixLen := 65 } : State).prefixLen.toNat ∧
    (loaded [0x70] [32] false).inLen.toNat ≤ 256 ∧ (loaded [0x70] [32] false).prefixLen.toNat ≤ 64 ∧
    (∃ b ∈ (loaded [0x70] [32] false).inOperand, 32 ≤ b.toNat) ∧
    (∀ b ∈ (loaded [0x70] [31] false).inOperand, b.toNat < 32) := by decide

theorem witness_EncodeWritesTheAddress : SizeTableValid (loaded cashPrefix p20 false).sizeTable ∧
    (loaded cashPrefix p20 false).inLen.toNat ≤ 256 ∧ (loaded cashPrefix p20 false).prefixLen.toNat ≤ 64 ∧ 7 < 8 ∧
    (∀ c : Fin 8, State.reset.sizeTable[c] ≠ some State.reset.inLen.toNat) ∧
    (loaded cashPrefix p20 false).sizeTable[(0 : Fin 8)] = some (loaded cashPrefix p20 false).inLen.toNat :=
  ⟨test_defaultSizeTable_valid, by decide, by decide, by decide, by decide, by decide⟩

theorem witness_EncodedAddressLength :
    ∃ a vb, (encodeAddress Config.defaultSizeTable cashPrefix p20 0).value = .ok (a, vb) := pair_of_isOk (by decide +kernel)

theorem witness_EncodedPayloadStaysInTheAlphabet :
    ∃ t, exec (.encode 0) (loaded cashPrefix p20 false) = .next t ∧ decide (t.status.err = .ok) = true :=
  next_with (by decide +kernel)

theorem witness_DecodeWritesThePayload :
    64 < ({ State.reset with prefixLen := 65 } : State).prefixLen.toNat ∧
    (loaded [] a0 false).inLen.toNat ≤ 256 ∧ (loaded [] a0 false).prefixLen.toNat ≤ 64 ∧
    (∃ p vb, (decodeAddress State.reset.sizeTable (loaded [] a0 false).inOperand [] false).value = .ok (p, vb)) ∧
    (decodeAddress State.reset.sizeTable [0x71] [] false).value = .error .invalidCharacter := by
  exact ⟨by decide, by decide, by decide, pair_of_isOk (by decide +kernel), rfl⟩

/-- The symbols of characters of the alphabet. -/
def symsOf (bs : List Byte) : List Symbol := bs.map (fun b => (unmapByte false b).getD 0)

/-- The data part of an address of "bitcoincash" unmaps to at least nine symbols with a valid checksum. -/
def validData (bs : List Byte) : Bool :=
  bs.map (unmapByte false) == (symsOf bs).map some && decide (9 ≤ (symsOf bs).length) && !bs.contains 0x3A &&
    polyMod (cashPrefix.map (fun b => b.setWidth 5) ++ [0] ++ symsOf bs) == 0

/-- The repacked bytes of a data part without its checksum, none where the repacking fails. -/
def repacked (bs : List Byte) : Option (List Nat) :=
  match convertBits 5 8 false (((symsOf bs).take ((symsOf bs).length - 8)).map BitVec.toNat) with
  | .ok us => some us
  | .error _ => none

/-- "q0n354ecu": nine symbols with a valid checksum (95_test_vectors.md 2.8). -/
def nineSymbols : List Byte := [0x71, 0x30, 0x6e, 0x33, 0x35, 0x34, 0x65, 0x63, 0x75]

/-- The data part with version byte 0x40 (95_test_vectors.md 2.8). -/
def badVersion : List Byte :=
  [0x67, 0x70, 0x6d, 0x32, 0x71, 0x73, 0x7a, 0x6e, 0x68, 0x6b, 0x73, 0x32, 0x33, 0x7a, 0x37, 0x36, 0x32, 0x39, 0x6d] ++
  [0x6d, 0x73, 0x36, 0x73, 0x34, 0x63, 0x77, 0x65, 0x66, 0x37, 0x34, 0x76, 0x63, 0x77, 0x76, 0x63, 0x74, 0x35, 0x74, 0x75, 0x37, 0x61, 0x72]

/-- The data part with version byte 0x03 and 20 payload bytes (95_test_vectors.md 2.8). -/
def badClass : List Byte :=
  [0x71, 0x64, 0x6d, 0x32, 0x71, 0x73, 0x7a, 0x6e, 0x68, 0x6b, 0x73, 0x32, 0x33, 0x7a, 0x37, 0x36, 0x32, 0x39, 0x6d] ++
  [0x6d, 0x73, 0x36, 0x73, 0x34, 0x63, 0x77, 0x65, 0x66, 0x37, 0x34, 0x76, 0x63, 0x77, 0x76, 0x34, 0x67, 0x39, 0x38, 0x79, 0x34, 0x35, 0x61]

/-- The data part with nonzero padding bits (95_test_vectors.md 2.8). -/
def badPadding : List Byte :=
  [0x71, 0x70, 0x6d, 0x32, 0x71, 0x73, 0x7a, 0x6e, 0x68, 0x6b, 0x73, 0x32, 0x33, 0x7a, 0x37, 0x36, 0x32, 0x39, 0x6d] ++
  [0x6d, 0x73, 0x36, 0x73, 0x34, 0x63, 0x77, 0x65, 0x66, 0x37, 0x34, 0x76, 0x63, 0x77, 0x64, 0x68, 0x66, 0x6e, 0x72, 0x35, 0x39, 0x66, 0x75]

theorem witness_DecodeStepsInOrder :
    (0x3A : Byte) ∉ a0.drop 12 ∧ (∃ b ∈ [(0x2d : Byte)], ¬ AsciiAlnum b) ∧
    cashPrefix ≠ [] ∧ (∀ b ∈ cashPrefix, AsciiAlnum b) ∧
    (∃ b ∈ [(0x21 : Byte)], unmapByte false b = none) ∧ (symsOf [0x71]).length < 9 ∧
    polyMod (cashPrefix.map (fun b => b.setWidth 5) ++ [0] ++ symsOf (List.replicate 9 0x71)) ≠ 0 ∧
    9 ≤ (symsOf (List.replicate 9 0x71)).length ∧
    validData nineSymbols = true ∧ repacked nineSymbols = none ∧
    validData badVersion = true ∧ (repacked badVersion).map (fun us => us.headD 0) = some 0x40 ∧
    validData badClass = true ∧ (repacked badClass).map (fun us => (us.headD 0, us.length)) = some (0x03, 21) ∧
    validData (a0.drop 12) = true ∧ (repacked (a0.drop 12)).map (fun us => (us.headD 0, us.length)) = some (0x00, 21) := by
  refine ⟨by decide, ⟨0x2d, by simp, by simp [AsciiAlnum]⟩, by decide, ?_, ?_⟩
  · have h : cashPrefix.all isAlnum = true := by decide
    intro b hb
    have := List.all_eq_true.mp h b hb
    simp only [isAlnum, Bool.or_eq_true, Bool.and_eq_true, decide_eq_true_eq] at this
    unfold AsciiAlnum
    omega
  · refine ⟨?_, ?_, ?_, ?_, ?_, ?_, ?_, ?_, ?_, ?_, ?_, ?_⟩ <;> decide +kernel

theorem witness_DecodeInvertsEncode :
    let s := loaded cashPrefix p20 false
    (∃ t, exec (.encode 0) s = .next t ∧
      (t.status.err == .ok && (loaded [] a0 false).inOperand == t.outResult) = true) ∧
    1 ≤ s.prefixLen.toNat ∧ s.prefixLen.toNat ≤ 64 ∧ s.prefixOperand.all isAlnum = true ∧ s.inLen.toNat ≤ 256 ∧
    s.sizeTable[(0 : Fin 8)] = some s.inLen.toNat ∧ (loaded [] a0 false).sizeTable = s.sizeTable ∧
    (loaded [] a0 false).prefixLen.toNat ≤ 64 :=
  ⟨next_with (by decide +kernel), by decide, by decide, by decide +kernel, by decide, by decide, rfl, by decide⟩

/-- A0's first byte 'b' replaced by '-', by 'c' and by 'B'; its last byte 'a' by 'b', by 'q' and, with the fold, by
'A'. -/
theorem witness_OneChangedByteNeverDecodesToOtherData :
    (∃ t, exec .decode (loaded [] a0 true) = .next t ∧ (t.status.err == .ok) = true) ∧
    (loaded [] a0 true).inOperand = [] ++ 0x62 :: a0.drop 1 ∧ (0x3A : Byte) ∈ a0.drop 1 ∧
    isAlnum 0x2d = false ∧ isAlnum 0x63 = true ∧ (0x63 : Byte).toNat % 32 ≠ (0x62 : Byte).toNat % 32 ∧
    isAlnum 0x42 = true ∧ (0x42 : Byte).toNat % 32 = (0x62 : Byte).toNat % 32 ∧
    (loaded [] a0 true).inOperand = a0.take 53 ++ 0x61 :: [] ∧ (0x3A : Byte) ∈ a0.take 53 ∧
    unmapByte true 0x62 = none ∧ unmapByte true 0x71 ≠ none ∧ unmapByte true 0x71 ≠ unmapByte true 0x61 ∧
    unmapByte true 0x41 = unmapByte true 0x61 ∧
    (∃ t, exec .decode (loaded cashPrefix (a0.drop 12) true) = .next t ∧ (t.status.err == .ok) = true) ∧
    (loaded cashPrefix (a0.drop 12) true).inOperand = [] ++ 0x71 :: a0.drop 13 ∧ (0x3A : Byte) ∉ a0.drop 13 ∧
    (0x72 : Byte) ≠ 0x3A := by
  refine ⟨next_with (by decide +kernel), ?_, ?_, ?_, ?_, ?_, ?_, ?_, ?_, ?_, ?_, ?_, ?_, ?_,
    next_with (by decide +kernel), ?_, ?_, ?_⟩ <;> decide +kernel

theorem witness_CodecResultsDependOnOperandsAlone :
    let s := loaded cashPrefix p20 false
    let s' : State := { s with pmAcc := 5, mem := s.mem.store 0x300 [1, 2, 3] }
    s'.inOperand = s.inOperand ∧ s'.prefixOperand = s.prefixOperand ∧ s'.sizeTable = s.sizeTable ∧
    s'.ucfSnap = s.ucfSnap ∧ s'.pmAcc ≠ s.pmAcc := by
  refine ⟨?_, ?_, rfl, rfl, ?_⟩ <;> decide +kernel

/-- Nonzero padding bits, and five bits left over. -/
theorem witness_NonCanonicalPaddingIsRejected :
    (loaded [] (cashPrefix ++ 0x3a :: badPadding) false).inLen.toNat ≤ 256 ∧
    (resolvePrefix (cashPrefix ++ 0x3a :: badPadding) []).isOk = true ∧
    unmapAll false badPadding = some (symsOf badPadding) ∧ validData badPadding = true ∧
    ((symsOf badPadding).getD ((symsOf badPadding).length - 9) 0).toNat %
      2 ^ (5 * ((symsOf badPadding).length - 8) % 8) ≠ 0 ∧
    unmapAll false nineSymbols = some (symsOf nineSymbols) ∧ 5 ≤ 5 * ((symsOf nineSymbols).length - 8) % 8 := by
  refine ⟨?_, ?_, ?_, ?_, ?_, ?_, ?_⟩ <;> decide +kernel

theorem witness_NoPayloadWithoutAValidChecksum :
    ∃ t, exec .decode (loaded [] a0 false) = .next t ∧ (t.status.err == .ok && t.outLen != 0) = true :=
  next_with (by decide +kernel)

end Sys2Proof.Tests
end

section
/-! PROOFS. Host accesses at the port, as steps: which accesses pass its checks, and what a step that performs one
answers (20_memory.md R62, R64 to R69). -/

namespace Sys2Proof.Machine

/-! ### The port's checks -/

/-- The port's three checks are the BusError conditions of 20_memory.md R66. -/
theorem raisesBusError_iff (a : HostAddr) (n : Nat) : raisesBusError a n = true ↔ BadAccess a n := by
  simp only [raisesBusError, isAccessSize, BadAccess, Bool.or_eq_true, Bool.and_eq_true, decide_eq_true_eq,
    Bool.not_eq_true', Bool.or_eq_false_iff, beq_eq_false_iff_ne, bne_iff_ne, ne_eq]
  tauto

theorem raisesBusError_of_not_bad {a : HostAddr} {n : Nat} (h : ¬ BadAccess a n) : raisesBusError a n = false :=
  Bool.eq_false_iff.mpr (mt (raisesBusError_iff a n).mp h)

theorem busyRefuses_of_idle {s : State} (h : s.status.busy = false) (a : HostAddr) : busyRefuses s a = false := by
  simp [busyRefuses, h]

theorem busyRefuses_of_open (s : State) {a : HostAddr} (h : openWhileBusy a = true) : busyRefuses s a = false := by
  simp [busyRefuses, h]

/-! ### Accesses that pass -/

section
variable {s : State} {a : HostAddr} {n : Nat} {rest : List Event}

theorem performAccess_write {v : Word} (hbus : raisesBusError a n = false) (hbusy : busyRefuses s a = false) :
    performAccess s (.write a n v) = { regionWrite s a n v with resp := some .done } := by
  simp [performAccess, memWrite, hbus, hbusy]

theorem performAccess_read (hbus : raisesBusError a n = false) (hbusy : busyRefuses s a = false) :
    performAccess s (.read a n) = { s with resp := some (.data (regionRead s a n)) } := by
  simp [performAccess, memRead, hbus, hbusy]

/-- While rst is released the step performs the access at the head of the schedule. -/
theorem step_performs {x : HostAccess} (hrst : s.rst = false) (hp : s.pending = .host x :: rest) :
    step s = .next (performAccess { s with pending := rest } x) := by
  rw [step_of_host hp, portAccess_of_not_rst (s := { s with pending := rest }) hrst]

/-- A write that passes the checks and the busy filter has its region's effect and an OK response. -/
theorem step_write {v : Word} (hrst : s.rst = false) (hp : s.pending = .host (.write a n v) :: rest)
    (hbus : raisesBusError a n = false) (hbusy : busyRefuses s a = false) :
    step s = .next { regionWrite { s with pending := rest } a n v with resp := some .done } :=
  (step_performs hrst hp).trans (congrArg Host.Outcome.next (performAccess_write hbus hbusy))

/-- A read that passes the checks and the busy filter answers its region's data and changes only the response. -/
theorem step_read (hrst : s.rst = false) (hp : s.pending = .host (.read a n) :: rest)
    (hbus : raisesBusError a n = false) (hbusy : busyRefuses s a = false) :
    step s = .next { s with pending := rest, resp := some (.data (regionRead { s with pending := rest } a n)) } :=
  (step_performs hrst hp).trans (congrArg Host.Outcome.next (performAccess_read hbus hbusy))

end

/-! ### Registers and reserved offsets -/

theorem regOffset_le (r : Reg) : regOffset r ≤ 0x034 := by cases r <;> decide

/-- The offsets from 0x038 up are reserved (10_state.md R22). -/
theorem regAt_reserved {off : Nat} (h : 0x038 ≤ off) : regAt off = none := by
  cases hr : regAt off with
  | none => rfl
  | some r =>
    have hoff := regAt_offset hr
    have := regOffset_le r
    omega

theorem csrRead_reserved (s : State) {off : Nat} (h : 0x038 ≤ off) : csrRead s off = 0 := by
  simp [csrRead, regAt_reserved h]

theorem csrWrite_reserved (s : State) {off : Nat} (h : 0x038 ≤ off) (v : Word) : csrWrite s off v = s := by
  simp [csrWrite, regAt_reserved h]

section
variable {a : HostAddr} {r : Reg} (ha : a.toNat = regOffset r)
include ha

theorem regionRead_reg (s : State) (n : Nat) : regionRead s a n = readReg s r := by
  have hlt : a.toNat < prefixBase := by have := regOffset_le r; unfold prefixBase; omega
  rw [regionRead, if_pos hlt, csrRead, ha, regAt_regOffset]

theorem regionWrite_reg (s : State) (n : Nat) (v : Word) : regionWrite s a n v = writeReg s r v := by
  have hlt : a.toNat < prefixBase := by have := regOffset_le r; unfold prefixBase; omega
  rw [regionWrite, if_pos hlt, csrWrite, ha, regAt_regOffset]

/-- A 32-bit access at a register's offset raises no BusError: every offset is a multiple of four below 0x100. -/
theorem raisesBusError_reg : raisesBusError a 4 = false := by
  have hmod : regOffset r % 4 = 0 := by cases r <;> rfl
  have := regOffset_le r
  refine raisesBusError_of_not_bad ?_
  unfold BadAccess
  omega

/-- A register write that the busy filter lets pass is `writeReg`. -/
theorem step_writeReg {s : State} {v : Word} {rest : List Event} (hrst : s.rst = false)
    (hp : s.pending = .host (.write a 4 v) :: rest) (hbusy : busyRefuses s a = false) :
    step s = .next { writeReg { s with pending := rest } r v with resp := some .done } := by
  rw [step_write hrst hp (raisesBusError_reg ha) hbusy, regionWrite_reg ha]

/-- A register read that the busy filter lets pass answers `readReg`; the schedule is no part of a register. -/
theorem step_readReg {s : State} {rest : List Event} (hrst : s.rst = false)
    (hp : s.pending = .host (.read a 4) :: rest) (hbusy : busyRefuses s a = false) :
    step s = .next { s with pending := rest, resp := some (.data (readReg s r)) } := by
  have hread : readReg { s with pending := rest } r = readReg s r := by cases r <;> rfl
  rw [step_read hrst hp (raisesBusError_reg ha) hbusy, regionRead_reg ha, hread]

end

/-- The registers a host write does not change (10_state.md R22). -/
def isReadOnly : Reg → Bool
  | .id | .outLen | .result | .pmResLo | .pmResHi | .modLo | .modHi => true
  | .ctrl | .status | .cmd | .prefixLen | .inLen | .pmAccLo | .pmAccHi => false

theorem writeReg_readOnly (s : State) {r : Reg} (h : isReadOnly r = true) (v : Word) : writeReg s r v = s := by
  cases r with
  | id | outLen | result | pmResLo | pmResHi | modLo | modHi => rfl
  | ctrl | status | cmd | prefixLen | inLen | pmAccLo | pmAccHi => cases h

/-- CTRL with SRST is a soft reset (70_reset_and_hazards.md R341). -/
theorem writeCtrl_of_srst (s : State) {v : Word} (h : v.getLsbD 2 = true) : writeCtrl s v = resetCore s :=
  if_pos h

/-- CTRL without SRST stores IE and UCF (10_state.md R24). -/
theorem writeCtrl_of_not_srst (s : State) {v : Word} (h : v.getLsbD 2 = false) :
    writeCtrl s v = { s with ctrl := ⟨v.getLsbD 0, v.getLsbD 1⟩ } :=
  if_neg (Bool.eq_false_iff.mp h)

/-! ### Regions without effect -/

/-- Writes to OUT and to the reserved region are ignored (20_memory.md R68, R69). -/
theorem regionWrite_ignored (s : State) {a : HostAddr} (n : Nat) (v : Word)
    (h : (0x140 ≤ a.toNat ∧ a.toNat < 0x200) ∨ 0x300 ≤ a.toNat) : regionWrite s a n v = s := by
  rcases regionWrite_cases s a n v with ⟨hreg, _⟩ | ⟨hbuf, _⟩ | ⟨_, heq⟩
  · unfold prefixBase at hreg; omega
  · unfold prefixBase prefixEnd inBase outBase at hbuf; omega
  · exact heq

/-- Writes to reserved register offsets are ignored (20_memory.md R68). -/
theorem regionWrite_reserved (s : State) {a : HostAddr} (n : Nat) (v : Word)
    (h : 0x038 ≤ a.toNat ∧ a.toNat < 0x100) : regionWrite s a n v = s := by
  rw [regionWrite, if_pos h.2, csrWrite_reserved s h.1]

/-- Reserved register offsets and the reserved region read 0 (20_memory.md R68). -/
theorem regionRead_reserved (s : State) {a : HostAddr} (n : Nat)
    (h : (0x038 ≤ a.toNat ∧ a.toNat < 0x100) ∨ (0x140 ≤ a.toNat ∧ a.toNat < 0x200)) : regionRead s a n = 0 := by
  unfold regionRead prefixBase prefixEnd inBase
  rcases h with ⟨hlo, hhi⟩ | ⟨hlo, hhi⟩
  · rw [if_pos hhi, csrRead_reserved s hlo]
  · rw [if_neg (by omega), if_neg (by omega), if_pos hhi]

end Sys2Proof.Machine
end

section
/-! PROOFS. The fields of the register words, and the two words of a 40-bit register (10_state.md R24 to R31). -/

namespace Sys2Proof.Machine

/-! ### Fields of a word -/

/-- A field placed at bit `lo` is read back at its own bits. -/
theorem extractLsb'_field {w : Nat} (x : BitVec w) (lo : Nat) (h : lo + w ≤ 32) :
    (x.setWidth 32 <<< lo : Word).extractLsb' lo w = x := by
  apply BitVec.eq_of_getLsbD_eq
  intro i hi
  simp [hi, show lo + i < 32 by omega]

/-- A field placed at bit `lo` leaves the bits outside it 0. -/
theorem extractLsb'_field_outside {w : Nat} (x : BitVec w) (lo lo' n : Nat) (h : lo' + n ≤ lo ∨ lo + w ≤ lo') :
    (x.setWidth 32 <<< lo : Word).extractLsb' lo' n = 0#n := by
  apply BitVec.eq_of_getLsbD_eq
  intro i hi
  have hout : lo' + i < lo ∨ w ≤ lo' + i - lo := by omega
  rcases hout with hlow | hhigh
  · simp [BitVec.getLsbD_extractLsb', hlow]
  · simp [BitVec.getLsbD_extractLsb', BitVec.getLsbD_of_ge x _ hhigh]

/-- A one-bit field, read as a bit. -/
theorem getLsbD_of_extractLsb' {x : Word} {i : Nat} {b : Bool} (h : x.extractLsb' i 1 = BitVec.ofBool b) :
    x.getLsbD i = b := by
  simpa [BitVec.getLsbD_extractLsb'] using congrArg (BitVec.getLsbD · 0) h

/-- STATUS's fields at their bits and 0 at its reserved bits (10_state.md R25). -/
theorem statusWord_layout (st : Status) :
    (statusWord st).getLsbD 0 = st.busy ∧ (statusWord st).getLsbD 1 = st.done ∧ (statusWord st).getLsbD 2 = st.bviol ∧
    (statusWord st).extractLsb' 3 5 = 0 ∧ (statusWord st).extractLsb' 8 4 = errBits st.err ∧
    (statusWord st).extractLsb' 12 4 = 0 ∧ (statusWord st).extractLsb' 16 8 = st.op ∧
    (statusWord st).extractLsb' 24 8 = 0 := by
  refine ⟨getLsbD_of_extractLsb' ?_, getLsbD_of_extractLsb' ?_, getLsbD_of_extractLsb' ?_, ?_, ?_, ?_, ?_, ?_⟩ <;>
    simp (disch := omega) only [statusWord, bitAt, BitVec.extractLsb'_or, extractLsb'_field,
      extractLsb'_field_outside, BitVec.or_zero, BitVec.zero_or, BitVec.ofNat_eq_ofNat]

/-- CTRL's fields at their bits and 0 at SRST and its reserved bits (10_state.md R24). -/
theorem ctrlWord_layout (c : Ctrl) :
    (ctrlWord c).getLsbD 0 = c.ie ∧ (ctrlWord c).getLsbD 1 = c.ucf ∧ (ctrlWord c).extractLsb' 2 30 = 0 := by
  refine ⟨getLsbD_of_extractLsb' ?_, getLsbD_of_extractLsb' ?_, ?_⟩ <;>
    simp (disch := omega) only [ctrlWord, bitAt, BitVec.extractLsb'_or, extractLsb'_field,
      extractLsb'_field_outside, BitVec.or_zero, BitVec.zero_or, BitVec.ofNat_eq_ofNat]

/-- RESULT's fields at their bits and 0 at its reserved bits (10_state.md R30). -/
theorem resultWord_layout (vb : Byte) :
    (resultWord vb).extractLsb' 0 8 = vb ∧ (resultWord vb).extractLsb' 8 3 = vb.extractLsb' 3 3 ∧
    (resultWord vb).getLsbD 11 = false ∧ (resultWord vb).extractLsb' 12 3 = vb.extractLsb' 0 3 ∧
    (resultWord vb).extractLsb' 15 17 = 0 := by
  have hword : resultWord vb = vb.setWidth 32 <<< 0 ||| (vb.extractLsb' 3 3).setWidth 32 <<< 8 |||
      (vb.extractLsb' 0 3).setWidth 32 <<< 12 := by simp only [resultWord, BitVec.shiftLeft_zero]
  rw [hword]
  refine ⟨?_, ?_, getLsbD_of_extractLsb' ?_, ?_, ?_⟩ <;>
    simp (disch := omega) only [BitVec.extractLsb'_or, extractLsb'_field, extractLsb'_field_outside,
      BitVec.or_zero, BitVec.zero_or, BitVec.ofNat_eq_ofNat, BitVec.ofBool_false]

/-- Settles O16, from the layouts of the three words; the codes are a table of eleven values. -/
theorem registerWordLayouts : Obligations.RegisterWordLayouts :=
  ⟨statusWord_layout, ctrlWord_layout, resultWord_layout, by decide⟩

/-! ### The two words of a 40-bit register -/

theorem lowWord_eq (x : Acc) : x.extractLsb' 0 32 = x.setWidth 32 := by
  simp [BitVec.extractLsb']

theorem highByte_eq (x : Acc) : (x.extractLsb' 32 8).setWidth 32 = ((x >>> 32).setWidth 32 : Word) := by
  apply BitVec.eq_of_toNat_eq
  simp only [BitVec.toNat_setWidth, BitVec.extractLsb'_toNat, BitVec.toNat_ushiftRight]
  omega

/-- PM_RES and PM_ACC differ in bit 0 alone, so their high bytes agree (10_state.md R28). -/
theorem highByte_xor_one (x : Acc) : (x ^^^ 1).extractLsb' 32 8 = x.extractLsb' 32 8 := by
  rw [BitVec.extractLsb'_xor, show (1 : Acc).extractLsb' 32 8 = 0 by decide]
  exact BitVec.xor_zero

/-- A high byte and a low word joined, as a number. -/
theorem toNat_join (hi : Byte) (lo : Word) : (hi ++ lo : Acc).toNat = hi.toNat * 2 ^ 32 + lo.toNat := by
  rw [BitVec.toNat_append, ← Nat.shiftLeft_add_eq_or_of_lt lo.isLt, Nat.shiftLeft_eq]

/-- A write of the low word keeps the bits above it (10_state.md R27). -/
theorem toNat_replaceLow (x : Acc) (v : Word) :
    (x.extractLsb' 32 8 ++ v : Acc).toNat = x.toNat / 2 ^ 32 * 2 ^ 32 + v.toNat := by
  rw [toNat_join, BitVec.extractLsb'_toNat, Nat.shiftRight_eq_div_pow]
  omega

/-- A write of the high byte keeps the bits below it (10_state.md R27). -/
theorem toNat_replaceHigh (x : Acc) (v : Word) :
    (v.extractLsb' 0 8 ++ x.extractLsb' 0 32 : Acc).toNat = v.toNat % 2 ^ 8 * 2 ^ 32 + x.toNat % 2 ^ 32 := by
  rw [toNat_join, BitVec.extractLsb'_toNat, BitVec.extractLsb'_toNat, Nat.shiftRight_zero, Nat.shiftRight_zero]

/-- A length register keeps the low 16 bits (10_state.md R29). -/
theorem toNat_lowHalf (v : Word) : (v.extractLsb' 0 16).toNat = v.toNat % 2 ^ 16 := by
  rw [BitVec.extractLsb'_toNat, Nat.shiftRight_zero]

end Sys2Proof.Machine
end

section
/-! PROOFS. The statements on the registers' reads and writes (10_state.md R22 to R31). -/

namespace Sys2Proof.Machine

/-- Settles O15: the region or the register of the access has no write effect, and reserved space reads 0. -/
theorem ignoredWritesAndReservedReads : Obligations.IgnoredWritesAndReservedReads := by
  intro s a n rest hrst hidle hok
  have hbus := raisesBusError_of_not_bad hok
  have hbusy := busyRefuses_of_idle hidle a
  refine ⟨fun hplace v hp => ?_, fun hplace hp => ?_⟩
  · have hreadOnly (r : Reg) (hr : isReadOnly r = true) (ha : a.toNat = regOffset r) :
        regionWrite { s with pending := rest } a n v = { s with pending := rest } := by
      rw [regionWrite_reg ha, writeReg_readOnly _ hr]
    have hkeep : regionWrite { s with pending := rest } a n v = { s with pending := rest } := by
      rcases hplace with h | h | h | rfl | rfl | rfl | rfl | rfl | rfl | rfl
      · exact regionWrite_ignored _ n v (.inr h)
      · exact regionWrite_reserved _ n v h
      · exact regionWrite_ignored _ n v (.inl h)
      · exact hreadOnly .id rfl rfl
      · exact hreadOnly .outLen rfl rfl
      · exact hreadOnly .result rfl rfl
      · exact hreadOnly .pmResLo rfl rfl
      · exact hreadOnly .pmResHi rfl rfl
      · exact hreadOnly .modLo rfl rfl
      · exact hreadOnly .modHi rfl rfl
    rw [step_write hrst hp hbus hbusy, hkeep]
  · rw [step_read hrst hp hbus hbusy, regionRead_reserved _ n hplace]

/-- Settles O17: each row of the list is a register's offset and what `readReg` answers there. -/
theorem registerReadsReturnTheRegisters : Obligations.RegisterReadsReturnTheRegisters := by
  intro s a v rest hrst hidle hp hrow
  obtain ⟨r, ha, hv⟩ : ∃ r, a.toNat = regOffset r ∧ readReg s r = v := by
    simp only [List.mem_cons, Prod.mk.injEq, List.not_mem_nil, or_false] at hrow
    rcases hrow with ⟨rfl, rfl⟩ | ⟨rfl, rfl⟩ | ⟨rfl, rfl⟩ | ⟨rfl, rfl⟩ | ⟨rfl, rfl⟩ | ⟨rfl, rfl⟩ | ⟨rfl, rfl⟩ |
      ⟨rfl, rfl⟩ | ⟨rfl, rfl⟩ | ⟨rfl, rfl⟩ | ⟨rfl, rfl⟩ | ⟨rfl, rfl⟩ | ⟨rfl, rfl⟩ | ⟨rfl, rfl⟩
    · exact ⟨.id, rfl, rfl⟩
    · exact ⟨.ctrl, rfl, rfl⟩
    · exact ⟨.status, rfl, rfl⟩
    · exact ⟨.cmd, rfl, rfl⟩
    · exact ⟨.prefixLen, rfl, rfl⟩
    · exact ⟨.inLen, rfl, rfl⟩
    · exact ⟨.outLen, rfl, rfl⟩
    · exact ⟨.result, rfl, rfl⟩
    · exact ⟨.pmAccLo, rfl, lowWord_eq _⟩
    · exact ⟨.pmAccHi, rfl, highByte_eq _⟩
    · exact ⟨.pmResLo, rfl, lowWord_eq _⟩
    · exact ⟨.pmResHi, rfl, (congrArg _ (highByte_xor_one _)).trans (highByte_eq _)⟩
    · exact ⟨.modLo, rfl, lowWord_eq _⟩
    · exact ⟨.modHi, rfl, highByte_eq _⟩
  rw [step_readReg ha hrst hp (busyRefuses_of_idle hidle a), hv]

/-- Settles O18: each write is its register's `writeReg`, whose new value is read as a number. -/
theorem registerWritesChangeTheirRegister : Obligations.RegisterWritesChangeTheirRegister := by
  intro s v rest hrst hidle
  have hwrite (a : HostAddr) (r : Reg) (ha : a.toNat = regOffset r) (hp : s.pending = .host (.write a 4 v) :: rest) :=
    step_writeReg ha hrst hp (busyRefuses_of_idle hidle a)
  refine ⟨fun hp => ?_, fun hp => ?_, fun hp => ?_, fun hp => ?_, fun hsrst hp => ?_⟩
  · exact ⟨_, hwrite 0x010 .prefixLen rfl hp, toNat_lowHalf v⟩
  · exact ⟨_, hwrite 0x014 .inLen rfl hp, toNat_lowHalf v⟩
  · exact ⟨_, hwrite 0x020 .pmAccLo rfl hp, toNat_replaceLow s.pmAcc v⟩
  · exact ⟨_, hwrite 0x024 .pmAccHi rfl hp, toNat_replaceHigh s.pmAcc v⟩
  · rw [hwrite 0x004 .ctrl rfl hp, writeReg, writeCtrl_of_not_srst _ hsrst]

/-- Settles O19: STATUS is open while BUSY = 1, and its write is `clearStatus`. -/
theorem statusWriteOnlyClears : Obligations.StatusWriteOnlyClears := by
  intro s v rest hrst hp
  exact step_writeReg (r := .status) rfl hrst hp (busyRefuses_of_open s rfl)

end Sys2Proof.Machine
end

section
/-! PROOFS. The reset state (10_state.md R43, 70_reset_and_hazards.md R340, R341). -/

namespace Sys2Proof.Machine

theorem reset_isResetState : IsResetState State.reset where
  ctrl := rfl
  status := rfl
  cmd := rfl
  prefixLen := rfl
  inLen := rfl
  outLen := rfl
  result := rfl
  pmAcc := rfl
  mod := rfl
  bytes := read_nil
  ucfSnap := rfl

/-- What R43 lists does not depend on rst, SIZE_TABLE, the schedule or the last response. -/
theorem IsResetState.withRest {t : State} (h : IsResetState t) (rst : Bool) (st : Config.SizeTable)
    (evs : List Event) (resp : Option Response) :
    IsResetState { t with rst := rst, sizeTable := st, pending := evs, resp := resp } := { h with }

theorem resetCore_isResetState (s : State) : IsResetState (resetCore s) := reset_isResetState.withRest _ _ _ _

theorem releaseReset_isResetState (s : State) : IsResetState (releaseReset s) :=
  reset_isResetState.withRest _ _ _ _

/-- irq is deasserted in the reset state: DONE = 0 (60_exceptions.md R313). -/
theorem IsResetState.irq {t : State} (h : IsResetState t) : t.irq = false := by simp [State.irq, h.status]

/-- A CTRL write with SRST, busy or not, is a soft reset: CTRL is open while BUSY = 1 (70_reset_and_hazards.md
R341). -/
theorem step_softReset {s : State} {v : Word} {rest : List Event} (hrst : s.rst = false) (hsrst : v.getLsbD 2 = true)
    (hp : s.pending = .host (.write 0x004 4 v) :: rest) :
    step s = .next { resetCore { s with pending := rest } with resp := some .done } := by
  rw [step_writeReg (r := .ctrl) rfl hrst hp (busyRefuses_of_open s rfl), writeReg, writeCtrl_of_srst _ hsrst]

/-- Settles O20: the state after a soft reset and after the release of rst is the reset state but for what R43 does not
list. -/
theorem resetsGiveTheResetState : Obligations.ResetsGiveTheResetState := by
  refine ⟨reset_isResetState, rfl, reset_isResetState.irq, rfl, by decide, by decide, by decide, by decide, ?_, ?_⟩
  · intro s v rest hrst hsrst hp
    have hreset := (resetCore_isResetState { s with pending := rest }).withRest s.rst s.sizeTable rest (some .done)
    exact ⟨_, step_softReset hrst hsrst hp, hreset, hreset.irq, hrst, rfl, rfl⟩
  · intro s rest hp
    have hreset := releaseReset_isResetState { s with pending := rest }
    exact ⟨_, step_of_resetRelease hp, hreset, hreset.irq, rfl, rfl, rfl⟩

/-- Settles O26: memory is empty, every length is 0, RESULT is the word of version byte 0, and rst is released. -/
theorem resetHasTheInvariant : Obligations.ResetHasTheInvariant where
  memWf := nil_wf
  memMapped := nil_mapped
  outLenBound := by decide
  outTail := fun i _ _ => read_nil (outBase + i)
  resultShape := ⟨0, by decide, by decide⟩
  opIsCmd := by decide
  busyFresh := fun hbusy => by cases hbusy
  heldInReset := fun hrst => by cases hrst

end Sys2Proof.Machine
end

section
/-! PROOFS. What the port answers to an access that raises BusError or that the busy filter refuses (20_memory.md R62,
R66, R67), and the statements on the two checks. -/

namespace Sys2Proof.Machine

section
variable {s : State} {a : HostAddr} {n : Nat}

/-- ERROR, with the state as it was (20_memory.md R66). -/
theorem performAccess_busError {x : HostAccess} (hx : x = .read a n ∨ ∃ v, x = .write a n v)
    (hbus : raisesBusError a n = true) : performAccess s x = { s with resp := some .busError } := by
  rcases hx with rfl | ⟨v, rfl⟩
  · simp [performAccess, memRead, hbus]
  · simp [performAccess, memWrite, hbus]

/-- A refused read returns 0 and sets BVIOL (20_memory.md R67). -/
theorem performAccess_refusedRead (hbus : raisesBusError a n = false) (hbusy : busyRefuses s a = true) :
    performAccess s (.read a n) = { markViolation s with resp := some (.data 0) } := by
  simp [performAccess, memRead, hbus, hbusy]

/-- A refused write sets BVIOL (20_memory.md R67). -/
theorem performAccess_refusedWrite {v : Word} (hbus : raisesBusError a n = false) (hbusy : busyRefuses s a = true) :
    performAccess s (.write a n v) = { markViolation s with resp := some .done } := by
  simp [performAccess, memWrite, hbus, hbusy]

/-- An access that raises no BusError ends with an OK response, refused or not. -/
theorem performAccess_resp_ok {x : HostAccess} (hx : x = .read a n ∨ ∃ v, x = .write a n v)
    (hbus : raisesBusError a n = false) :
    (performAccess s x).resp ≠ some .busError ∧ (performAccess s x).resp ≠ none := by
  rcases hx with rfl | ⟨v, rfl⟩ <;> cases hbusy : busyRefuses s a
  · simp [performAccess_read hbus hbusy]
  · simp [performAccess_refusedRead hbus hbusy]
  · simp [performAccess_write hbus hbusy]
  · simp [performAccess_refusedWrite hbus hbusy]

theorem busyRefuses_of_closed (hbusy : s.status.busy = true) (hid : a ≠ 0x000) (hctrl : a ≠ 0x004)
    (hstatus : a ≠ 0x008) : busyRefuses s a = true := by
  have hclosed : openWhileBusy a = false := by simpa [openWhileBusy] using ⟨⟨hid, hctrl⟩, hstatus⟩
  rw [busyRefuses, hbusy, hclosed]
  rfl

end

/-- Settles O11: the port's three checks are `BadAccess`, and they come before the busy filter. -/
theorem busErrorExactlyForBadAccesses : Obligations.BusErrorExactlyForBadAccesses := by
  intro s x a n rest hrst hx hp
  have hstep := step_performs hrst hp
  refine ⟨fun hbad => ?_, fun hok => ?_⟩
  · rw [hstep, performAccess_busError hx ((raisesBusError_iff a n).mpr hbad)]
  · exact ⟨_, hstep, performAccess_resp_ok hx (raisesBusError_of_not_bad hok)⟩

/-- Settles O12: elsewhere the filter refuses; ID, CTRL and STATUS are open, so accesses are the registers' own. -/
theorem busyFilterRefusesAccesses : Obligations.BusyFilterRefusesAccesses := by
  intro s rest hrst hbusy
  refine ⟨fun a n hok hid hctrl hstatus => ?_, fun hp => ?_, fun hp => ?_, fun hp => ?_, fun v hp => ?_,
    fun v hsrst hp => ?_, fun v hsrst hp => ?_, fun v hp => ?_⟩
  · have hbus := raisesBusError_of_not_bad hok
    have hrefused : busyRefuses { s with pending := rest } a = true := busyRefuses_of_closed hbusy hid hctrl hstatus
    refine ⟨fun hp => ?_, fun v hp => ?_⟩
    · rw [step_performs hrst hp, performAccess_refusedRead hbus hrefused, markViolation]
    · rw [step_performs hrst hp, performAccess_refusedWrite hbus hrefused, markViolation]
  · exact step_readReg (r := .id) rfl hrst hp (busyRefuses_of_open s rfl)
  · exact step_readReg (r := .ctrl) rfl hrst hp (busyRefuses_of_open s rfl)
  · exact step_readReg (r := .status) rfl hrst hp (busyRefuses_of_open s rfl)
  · exact step_writeReg (r := .id) rfl hrst hp (busyRefuses_of_open s rfl)
  · rw [step_writeReg (r := .ctrl) rfl hrst hp (busyRefuses_of_open s rfl), writeReg, writeCtrl_of_not_srst _ hsrst]
  · exact ⟨_, step_softReset hrst hsrst hp, (resetCore_isResetState _).withRest _ _ _ (some .done)⟩
  · exact step_writeReg (r := .status) rfl hrst hp (busyRefuses_of_open s rfl)

end Sys2Proof.Machine
end

section
/-! PROOFS. Accesses to the buffers: byte order and what a write stores (20_memory.md R61 to R63). -/

namespace Sys2Proof.Machine

/-! ### Byte order -/

/-- Bit i of a word is bit i mod 8 of its byte i / 8, and a byte that is not there is 0 (20_memory.md R63). -/
theorem getLsbD_leWord (bs : List Byte) {i : Nat} (hi : i < 32) :
    (leWord bs).getLsbD i = (bs.getD (i / 8) 0).getLsbD (i % 8) := by
  induction bs generalizing i with
  | nil => simp [leWord]
  | cons b rest ih =>
    rw [leWord, BitVec.getLsbD_or, BitVec.getLsbD_setWidth, BitVec.getLsbD_shiftLeft]
    by_cases hlow : i < 8
    · simp [hi, hlow, Nat.div_eq_of_lt hlow, Nat.mod_eq_of_lt hlow]
    · obtain ⟨j, rfl⟩ : ∃ j, i = j + 8 := ⟨i - 8, by omega⟩
      simp [hi, ih (show j < 32 by omega)]

/-- Lane k of a word is its byte k. -/
theorem extractLsb'_leWord (bs : List Byte) {k : Nat} (hk : k < 4) :
    (leWord bs).extractLsb' (8 * k) 8 = bs.getD k 0 := by
  apply BitVec.eq_of_getLsbD_eq
  intro i hi
  rw [BitVec.getLsbD_extractLsb', getLsbD_leWord bs (by omega), show (8 * k + i) / 8 = k by omega,
    show (8 * k + i) % 8 = i by omega]
  simp [hi]

/-- The bits above a word's bytes are 0. -/
theorem getLsbD_leWord_above (bs : List Byte) {i : Nat} (hi : 8 * bs.length ≤ i) : (leWord bs).getLsbD i = false := by
  by_cases h32 : i < 32
  · rw [getLsbD_leWord bs h32, List.getD_eq_default _ _ (by omega)]
    exact BitVec.getLsbD_zero
  · exact BitVec.getLsbD_of_ge _ _ (by omega)

/-! ### The buffers' regions -/

/-- A read in PREFIX, IN or OUT is the word of the bytes there. -/
theorem regionRead_buffer (s : State) {a : HostAddr} (n : Nat)
    (h : (0x100 ≤ a.toNat ∧ a.toNat < 0x140) ∨ 0x200 ≤ a.toNat) :
    regionRead s a n = leWord (s.mem.load a.toNat n) := by
  unfold regionRead prefixBase prefixEnd inBase
  rw [if_neg (by omega)]
  rcases h with ⟨_, hend⟩ | hin
  · rw [if_pos hend]
  · rw [if_neg (by omega), if_neg (by omega)]

/-- A write in PREFIX or IN is a store of the data's lanes. -/
theorem regionWrite_buffer (s : State) {a : HostAddr} (n : Nat) (v : Word)
    (h : (0x100 ≤ a.toNat ∧ a.toNat < 0x140) ∨ (0x200 ≤ a.toNat ∧ a.toNat < 0x300)) :
    regionWrite s a n v = { s with mem := s.mem.store a.toNat (leBytes n v) } := by
  rcases regionWrite_cases s a n v with ⟨hreg, _⟩ | ⟨_, heq⟩ | ⟨hignored, _⟩
  · unfold prefixBase at hreg; omega
  · exact heq
  · unfold prefixEnd inBase outBase at hignored; omega

/-- Settles O13: the data are the word of the loaded bytes, at most four of them. -/
theorem bufferReadIsLittleEndian : Obligations.BufferReadIsLittleEndian := by
  intro s a n rest hrst hidle hok hplace hp
  have hbus := raisesBusError_of_not_bad hok
  obtain ⟨_, hsize, _, _⟩ := passes_checks hbus
  refine ⟨leWord (s.mem.load a.toNat n), ?_, fun k hk => ?_, fun i hi => ?_⟩
  · rw [step_read hrst hp hbus (busyRefuses_of_idle hidle a), regionRead_buffer _ n hplace]
  · rw [extractLsb'_leWord _ (by omega), load_getD _ _ _ _ hk]
  · exact getLsbD_leWord_above _ (by rwa [load_length])

/-- Settles O14: the new memory is the store of the data's lanes, read inside and outside its range. -/
theorem bufferWriteStoresItsLanes : Obligations.BufferWriteStoresItsLanes := by
  intro s a n v rest hrst hidle hok hplace hp
  have hbus := raisesBusError_of_not_bad hok
  refine ⟨s.mem.store a.toNat (leBytes n v), ?_, fun k hk => ?_, fun b hb => ?_⟩
  · rw [step_write hrst hp hbus (busyRefuses_of_idle hidle a), regionWrite_buffer _ n v hplace]
  · rw [read_store_inside _ _ _ _ (by rwa [leBytes_length]), leBytes_getD n k v hk]
  · exact read_store_outside _ _ _ _ (by rwa [leBytes_length])

end Sys2Proof.Machine
end

section
/-! PROOFS. A completion and the fields that an access in the busy window may change: the command in flight reads none
of them (40_command.md R122, R128; 70_reset_and_hazards.md R344). -/

namespace Sys2Proof.Machine

/-! ### A completion's frame -/

theorem exec_neverWritten {i : Instr} {s u : State} (h : exec i s = .next u) : NeverWritten s u := by
  obtain ⟨c, code, hexec, hc⟩ := exec_cases i s
  obtain rfl : completeWith c code = u := Host.Outcome.next.inj (hexec.symm.trans h)
  refine completeWith_neverWritten ?_ code
  have hs := NeverWritten.refl s
  rcases hc with rfl | ⟨acc, rfl⟩ | ⟨r, rfl⟩ | ⟨r, e, vb, rfl⟩ | ⟨r, m, rfl⟩ | ⟨r, m, e, vb, rfl⟩
  · exact hs
  · exact withPmAcc_neverWritten hs acc
  · exact writeOut_neverWritten hs r
  · exact writeResult_neverWritten (writeOut_neverWritten hs r) e vb
  · exact writeOut_neverWritten (writeMod_neverWritten hs m) r
  · exact writeResult_neverWritten (writeOut_neverWritten (writeMod_neverWritten hs m) r) e vb

theorem exec_completes (i : Instr) (s : State) : ∃ u, exec i s = .next u ∧ CompletedWith u u.status.err := by
  obtain ⟨c, code, hexec, _⟩ := exec_cases i s
  exact ⟨_, hexec, completeWith_completed c code⟩

/-- A completion always answers a completed state, with what no command writes as before. -/
theorem completeCommand_completes (s : State) :
    ∃ u, completeCommand s = .next u ∧ CompletedWith u u.status.err ∧ NeverWritten s u := by
  rcases completeCommand_cases s with ⟨i, _, hrun⟩ | ⟨_, _, hrun⟩
  · obtain ⟨u, hexec, hdone⟩ := exec_completes i s
    exact ⟨u, hrun.trans hexec, hdone, exec_neverWritten hexec⟩
  · exact ⟨_, hrun, completeWith_completed s .illegalCmd, completeWith_neverWritten (.refl s) .illegalCmd⟩

/-! ### The fields a busy-window access may change -/

/-- `s` with CTRL, STATUS, the schedule and the last response of `t`: what an access in the busy window, short of a soft
reset, may change (20_memory.md R67). -/
def State.withPortFields (s t : State) : State :=
  { s with ctrl := t.ctrl, status := t.status, pending := t.pending, resp := t.resp }

/-- A command reads none of those fields: it leaves the same results and completes with the same code. -/
theorem exec_withPortFields {i : Instr} {s u : State} (h : exec i s = .next u) (t : State) :
    exec i (s.withPortFields t) = .next (completeWith (u.withPortFields t) u.status.err) := by
  cases i with
  | pmRun =>
    obtain rfl := Host.Outcome.next.inj h
    have hval : pmRunValue (s.withPortFields t) = pmRunValue s := rfl
    rw [exec, execPmRun, hval]
    cases pmRunValue s <;> rfl
  | nop | pmInit | pmStep | cbRun | b32Map | b32Unmap | pack | checksum | encode | decode =>
    obtain rfl := Host.Outcome.next.inj h
    rfl

theorem completeCommand_withPortFields {s u : State} (h : completeCommand s = .next u) (t : State) :
    completeCommand (s.withPortFields t) = .next (completeWith (u.withPortFields t) u.status.err) := by
  have hcmd : (s.withPortFields t).cmd = s.cmd := rfl
  unfold completeCommand at h ⊢
  rw [hcmd]
  cases hd : decodeWord s.cmd with
  | ok i => rw [hd] at h; exact exec_withPortFields h t
  | error e => rw [hd] at h; obtain rfl := Host.Outcome.next.inj h; rfl

/-! ### A completion and a STATUS write, in either order -/

theorem run_succ {s t : State} (h : step s = .next t) (k : Nat) :
    Host.Core.run Sys2Proof.core (k + 1) s = Host.Core.run Sys2Proof.core k t := by
  simp only [Host.Core.run, show Sys2Proof.core.step s = .next t from h]

/-- The engine's turn completes the command in flight. -/
theorem step_completes {s : State} {rest : List Event} (hrst : s.rst = false) (hbusy : s.status.busy = true)
    (hp : s.pending = .engine :: rest) : step s = completeCommand { s with pending := rest } := by
  rw [step_of_engine hp, engineTurn]
  simp [hrst, hbusy]

/-- The state a STATUS write of `v` leaves, busy or not, with `evs` scheduled after it (10_state.md R25, 20_memory.md
R67). -/
def State.afterStatusWrite (s : State) (v : Word) (evs : List Event) : State :=
  { s with pending := evs, status := clearStatus s.status v, resp := some .done }

theorem step_writeStatus {s : State} {v : Word} {rest : List Event} (hrst : s.rst = false)
    (hp : s.pending = .host (.write 0x008 4 v) :: rest) : step s = .next (s.afterStatusWrite v rest) :=
  step_writeReg (r := .status) rfl hrst hp (busyRefuses_of_open s rfl)

section
variable {s u : State} {v : Word} {rest : List Event} (hrst : s.rst = false) (hbusy : s.status.busy = true)
include hrst hbusy

/-- The completion, then the write: the write acts on the completion's STATUS. -/
theorem run_completion_write (hp : s.pending = .engine :: .host (.write 0x008 4 v) :: rest)
    (hu : completeCommand { s with pending := .host (.write 0x008 4 v) :: rest } = .next u)
    (hframe : NeverWritten { s with pending := .host (.write 0x008 4 v) :: rest } u) :
    Host.Core.run Sys2Proof.core 2 s = .next (u.afterStatusWrite v rest) := by
  have hcomplete : step s = .next u := (step_completes hrst hbusy hp).trans hu
  have hwrite : step u = .next (u.afterStatusWrite v rest) :=
    step_writeStatus (hframe.rst.trans hrst) hframe.pending
  exact (run_succ hcomplete 1).trans (run_succ hwrite 0)

/-- The write, then the completion: the command completes as it does without the write, over the write's STATUS. -/
theorem run_write_completion (hp : s.pending = .host (.write 0x008 4 v) :: .engine :: rest) (evs : List Event)
    (hu : completeCommand { s with pending := evs } = .next u) :
    Host.Core.run Sys2Proof.core 2 s =
      .next (completeWith (u.withPortFields (s.afterStatusWrite v rest)) u.status.err) := by
  have hwrite : step s = .next (s.afterStatusWrite v (.engine :: rest)) := step_writeStatus hrst hp
  have hcomplete : step (s.afterStatusWrite v (.engine :: rest)) =
      .next (completeWith (u.withPortFields (s.afterStatusWrite v rest)) u.status.err) :=
    (step_completes (s := s.afterStatusWrite v (.engine :: rest)) hrst hbusy rfl).trans
      (completeCommand_withPortFields hu (s.afterStatusWrite v rest))
  exact (run_succ hwrite 1).trans (run_succ hcomplete 0)

end

/-- Settles O23: the completion does not read STATUS, so it has one code in both orders; which of the two comes last
decides DONE. -/
theorem completionAndClearInEitherOrder : Obligations.CompletionAndClearInEitherOrder := by
  intro s hrst hbusy
  obtain ⟨u, hu, hcompleted, hframe⟩ :=
    completeCommand_completes { s with pending := [.host (.write 0x008 4 0x2)] }
  have hfirst := run_completion_write (s := { s with pending := [.engine, .host (.write 0x008 4 0x2)] })
    hrst hbusy rfl hu hframe
  have hlast := run_write_completion (s := { s with pending := [.host (.write 0x008 4 0x2), .engine] })
    hrst hbusy rfl _ hu
  have hcleared : (u.afterStatusWrite 0x2 []).status.done = false := by simp [State.afterStatusWrite, clearStatus]
  exact ⟨_, _, hfirst, hlast, hcleared, rfl, hcompleted.idle, rfl, rfl, hframe.op⟩

end Sys2Proof.Machine
end

section
/-! PROOFS. Operand fields of a command word: the bits a field covers, and what is read from and placed in them
(30_encoding.md R91 to R95, R98). -/

namespace Sys2Proof.Machine

/-- The `n` bits of a word from bit `lo` up. -/
def fieldMask (lo n : Nat) : Word := (BitVec.allOnes n).setWidth 32 <<< lo

section
variable {v lo n : Nat}

theorem placeField_eq_field (hv : v < 2 ^ n) : placeField v lo = (BitVec.ofNat n v).setWidth 32 <<< lo := by
  have hval : (BitVec.ofNat n v).setWidth 32 = BitVec.ofNat 32 v := by
    apply BitVec.eq_of_toNat_eq
    simp [Nat.mod_eq_of_lt hv]
  rw [hval, placeField]

/-- A value that fits its field is read back from it. -/
theorem extractLsb'_placeField (hv : v < 2 ^ n) (h : lo + n ≤ 32) :
    (placeField v lo).extractLsb' lo n = BitVec.ofNat n v := by
  rw [placeField_eq_field hv, extractLsb'_field _ _ h]

/-- A value that fits its field leaves every other field 0. -/
theorem extractLsb'_placeField_outside {lo' n' : Nat} (hv : v < 2 ^ n) (h : lo' + n' ≤ lo ∨ lo + n ≤ lo') :
    (placeField v lo).extractLsb' lo' n' = 0#n' := by
  rw [placeField_eq_field hv, extractLsb'_field_outside _ _ _ _ h]

/-- An operand placed in a field that was 0 is the field's value. -/
theorem toNat_extractLsb'_or_placeField {x : Word} (hv : v < 2 ^ n) (h : lo + n ≤ 32)
    (hx : x.extractLsb' lo n = 0#n) : ((x ||| placeField v lo).extractLsb' lo n).toNat = v := by
  rw [BitVec.extractLsb'_or, hx, extractLsb'_placeField hv h, BitVec.zero_or, BitVec.toNat_ofNat,
    Nat.mod_eq_of_lt hv]

/-- A field's value placed at its own bits is the word with every other bit cleared. -/
theorem placeField_extractLsb' (w : Word) (lo n : Nat) :
    placeField (w.extractLsb' lo n).toNat lo = w &&& fieldMask lo n := by
  rw [placeField_eq_field (w.extractLsb' lo n).isLt, BitVec.ofNat_toNat, BitVec.setWidth_eq]
  apply BitVec.eq_of_getLsbD_eq
  intro i hi
  by_cases hlow : i < lo
  · simp [fieldMask, hlow]
  · simp [fieldMask, hlow, hi, show lo + (i - lo) = i by omega, Bool.and_comm]

/-- A value that fits its field sets no bit outside it. -/
theorem placeField_and_eq_zero {m : Word} (hv : v < 2 ^ n) (h : lo + n ≤ 32) (hm : fieldMask lo n &&& m = 0) :
    placeField v lo &&& m = 0 := by
  have hinside : placeField v lo &&& fieldMask lo n = placeField v lo := by
    rw [← placeField_extractLsb', extractLsb'_placeField hv h, BitVec.toNat_ofNat, Nat.mod_eq_of_lt hv]
  rw [← hinside, BitVec.and_assoc, hm]
  exact BitVec.and_zero

end

/-- PAD as the value of a one-bit field. -/
theorem toNat_fieldPad (w : Word) : (fieldPad w).toNat = (w.extractLsb' 16 1).toNat := by
  have hbit : w.extractLsb' 16 1 = BitVec.ofBool (fieldPad w) := by
    apply BitVec.eq_of_getLsbD_eq
    intro i hi
    obtain rfl : i = 0 := by omega
    simp [fieldPad]
  rw [hbit, BitVec.toNat_ofBool]

end Sys2Proof.Machine
end

section
/-! PROOFS. The opcode map and the decoder: the rows have distinct OP bytes, so a word has at most one row, and the
decoder answers that row's command (30_encoding.md R96, R97). -/

namespace Sys2Proof.Machine

/-! ### Rows and OP bytes -/

/-- The OP bytes of the rows are the eleven values, each once (30_encoding.md R96). -/
theorem opcodeTable_ops_nodup : (opcodeTable.map (fun r => fieldOp r.fixed)).Nodup := by
  have hops : opcodeTable.map (fun r => fieldOp r.fixed) = definedOpcodes := rfl
  rw [hops]
  decide

theorem opcodeTable_masks_op : ∀ r ∈ opcodeTable, fieldOp r.mask = BitVec.allOnes 8 := by decide

/-- A row selects words of its own OP byte only: every mask holds bits 7 to 0. -/
theorem fieldOp_of_rowSelects {r : OpcodeRow} {w : Word} (hr : r ∈ opcodeTable) (hsel : rowSelects r w = true) :
    fieldOp r.fixed = fieldOp w := by
  have hfixed : w &&& r.mask = r.fixed := beq_iff_eq.mp hsel
  have hmask : r.mask.extractLsb' 0 8 = BitVec.allOnes 8 := opcodeTable_masks_op r hr
  rw [fieldOp, ← hfixed, BitVec.extractLsb'_and, hmask, BitVec.and_allOnes, fieldOp]

/-- At most one row selects a word. -/
theorem row_unique {r r' : OpcodeRow} {w : Word} (hr : r ∈ opcodeTable) (hr' : r' ∈ opcodeTable)
    (hsel : rowSelects r w = true) (hsel' : rowSelects r' w = true) : r = r' :=
  List.inj_on_of_nodup_map opcodeTable_ops_nodup hr hr'
    ((fieldOp_of_rowSelects hr hsel).trans (fieldOp_of_rowSelects hr' hsel').symm)

/-! ### The decoder -/

/-- The decoder answers the command of the row that selects the word. -/
theorem decodeWord_of_row {r : OpcodeRow} {w : Word} (hr : r ∈ opcodeTable) (hsel : rowSelects r w = true) :
    decodeWord w = .ok (r.command w) := by
  unfold decodeWord
  cases hfind : opcodeTable.find? (fun r => rowSelects r w) with
  | none => exact absurd hsel (List.find?_eq_none.mp hfind r hr)
  | some r' =>
    have hsel' : rowSelects r' w = true := List.find?_some (p := fun r => rowSelects r w) hfind
    rw [row_unique (List.mem_of_find?_eq_some hfind) hr hsel' hsel]

/-- Where no row selects the word the decoder answers an error, of the one kind or the other. -/
theorem decodeWord_of_no_row {w : Word} (h : ¬ ∃ r ∈ opcodeTable, rowSelects r w = true) :
    ∃ e, decodeWord w = .error e := by
  have hfind : opcodeTable.find? (fun r => rowSelects r w) = none :=
    List.find?_eq_none.mpr fun r hr hsel => h ⟨r, hr, hsel⟩
  unfold decodeWord
  rw [hfind]
  by_cases hop : definedOpcodes.contains (fieldOp w) = true
  · exact ⟨_, if_pos hop⟩
  · exact ⟨_, if_neg hop⟩

theorem decodeWord_eq_ok_iff {w : Word} {i : Instr} :
    decodeWord w = .ok i ↔ ∃ r ∈ opcodeTable, rowSelects r w = true ∧ r.command w = i := by
  constructor
  · intro hok
    by_cases hrow : ∃ r ∈ opcodeTable, rowSelects r w = true
    · obtain ⟨r, hr, hsel⟩ := hrow
      exact ⟨r, hr, hsel, Except.ok.inj ((decodeWord_of_row hr hsel).symm.trans hok)⟩
    · obtain ⟨e, herr⟩ := decodeWord_of_no_row hrow
      cases herr.symm.trans hok
  · rintro ⟨r, hr, hsel, rfl⟩
    exact decodeWord_of_row hr hsel

/-- A word is legal exactly when the decoder reads a command (30_encoding.md R97). -/
theorem legalWord_eq_true_iff {w : Word} : legalWord w = true ↔ ∃ i, decodeWord w = .ok i := by
  unfold legalWord
  cases decodeWord w <;> simp

theorem legalWord_eq_false_iff {w : Word} : legalWord w = false ↔ ∃ e, decodeWord w = .error e := by
  unfold legalWord
  cases decodeWord w <;> simp

/-! ### The rows that select a word -/

theorem legalWord_iff_row {w : Word} : legalWord w = true ↔ ∃ r ∈ opcodeTable, rowSelects r w = true := by
  rw [legalWord_eq_true_iff]
  constructor
  · rintro ⟨i, hi⟩
    obtain ⟨r, hr, hsel, _⟩ := decodeWord_eq_ok_iff.mp hi
    exact ⟨r, hr, hsel⟩
  · rintro ⟨r, hr, hsel⟩
    exact ⟨_, decodeWord_of_row hr hsel⟩

/-- The selecting rows are at most one: their OP bytes are distinct and all the word's own. -/
theorem selectingRows_length_le_one (w : Word) : (opcodeTable.filter (fun r => rowSelects r w)).length ≤ 1 := by
  have hnodup : ((opcodeTable.filter (fun r => rowSelects r w)).map (fun r => fieldOp r.fixed)).Nodup :=
    opcodeTable_ops_nodup.sublist (List.filter_sublist.map _)
  have hsame : (opcodeTable.filter (fun r => rowSelects r w)).map (fun r => fieldOp r.fixed) =
      List.replicate (opcodeTable.filter (fun r => rowSelects r w)).length (fieldOp w) := by
    rw [List.map_eq_replicate_iff]
    intro r hr
    obtain ⟨hmem, hsel⟩ := List.mem_filter.mp hr
    exact fieldOp_of_rowSelects hmem hsel
  rw [hsame] at hnodup
  exact List.nodup_replicate.mp hnodup

/-- The written-out match and mask columns are the decoder's table (30_encoding.md R96). -/
theorem opcodeMap_eq : opcodeMap = opcodeTable.map (fun r => (r.fixed, r.mask)) := rfl

theorem opcodeMap_filter_length (w : Word) :
    (opcodeMap.filter (fun r => w &&& r.2 == r.1)).length = (opcodeTable.filter (fun r => rowSelects r w)).length := by
  rw [opcodeMap_eq, List.filter_map, List.length_map]
  rfl

/-- Settles O3: a row that selects the word is there exactly when it is legal, and there are never two. -/
theorem legalWordsAreTheOpcodeMaps : Obligations.LegalWordsAreTheOpcodeMaps := by
  intro w
  have hle := selectingRows_length_le_one w
  rw [legalWord_iff_row, ← List.length_filter_pos_iff, opcodeMap_filter_length]
  omega

/-- Settles O4: fourteen fixed words, each evaluated by the decoder. -/
theorem specWordsDecode : Obligations.SpecWordsDecode := by
  unfold Obligations.SpecWordsDecode
  decide

end Sys2Proof.Machine
end

section
/-! PROOFS. The round trips between commands and words, format by format (30_encoding.md R92 to R98). -/

namespace Sys2Proof.Machine

/-! ### From the command to its word and back -/

/-- The fixed bits with operands outside the mask make a word that the row selects. -/
theorem rowSelects_or {r : OpcodeRow} {x : Word} (hfixed : r.fixed &&& r.mask = r.fixed) (hx : x &&& r.mask = 0) :
    rowSelects r (r.fixed ||| x) = true := by
  rw [rowSelects, BitVec.and_or_distrib_right, hfixed, hx]
  simp

/-- Formats S and T: a row whose one operand takes the `n` bits from bit 8 up, all that its mask leaves free. -/
theorem decodeWord_operandWord {name : String} {f m : Word} {c : Nat → Instr} {n v : Nat}
    (hr : ⟨name, f, m, fun w => c (w.extractLsb' 8 n).toNat⟩ ∈ opcodeTable) (hv : v < 2 ^ n) (hn : 8 + n ≤ 32)
    (hfixed : f &&& m = f) (hmask : fieldMask 8 n &&& m = 0) (hfree : f.extractLsb' 8 n = 0#n) :
    decodeWord (f ||| placeField v 8) = .ok (c v) := by
  have hsel : rowSelects ⟨name, f, m, fun w => c (w.extractLsb' 8 n).toNat⟩ (f ||| placeField v 8) = true :=
    rowSelects_or hfixed (placeField_and_eq_zero hv hn hmask)
  have hread : ((f ||| placeField v 8).extractLsb' 8 n).toNat = v := toNat_extractLsb'_or_placeField hv hn hfree
  simp only [decodeWord_of_row hr hsel, hread]

section
variable {f t : Nat} (hf : f < 2 ^ 4) (ht : t < 2 ^ 4) (pad : Bool)
include hf ht

/-- Format C: each field is read back past the two others. -/
theorem fields_encode_cbRun : fieldFrom (encode (.cbRun f t pad)) = f ∧ fieldTo (encode (.cbRun f t pad)) = t ∧
    fieldPad (encode (.cbRun f t pad)) = pad := by
  have hp : pad.toNat < 2 ^ 1 := pad.toNat_lt
  refine ⟨?_, ?_, ?_⟩
  · have hread := toNat_extractLsb'_or_placeField (x := 0x10) hf (by omega : 8 + 4 ≤ 32) (by decide)
    rw [fieldFrom, encode, BitVec.extractLsb'_or, BitVec.extractLsb'_or,
      extractLsb'_placeField_outside ht (by omega), extractLsb'_placeField_outside hp (by omega),
      BitVec.or_zero, BitVec.or_zero, hread]
  · have hfree : (0x10 ||| placeField f 8 : Word).extractLsb' 12 4 = 0#4 := by
      rw [BitVec.extractLsb'_or, extractLsb'_placeField_outside hf (by omega)]
      decide
    rw [fieldTo, encode, BitVec.extractLsb'_or, extractLsb'_placeField_outside hp (by omega), BitVec.or_zero,
      toNat_extractLsb'_or_placeField ht (by omega) hfree]
  · have hfree : (0x10 ||| placeField f 8 ||| placeField t 12 : Word).extractLsb' 16 1 = 0#1 := by
      rw [BitVec.extractLsb'_or, BitVec.extractLsb'_or, extractLsb'_placeField_outside hf (by omega),
        extractLsb'_placeField_outside ht (by omega)]
      decide
    refine getLsbD_of_extractLsb' (BitVec.eq_of_toNat_eq ?_)
    rw [encode, toNat_extractLsb'_or_placeField hp (by omega) hfree, BitVec.toNat_ofBool]

/-- CB_RUN's row, the fifth, selects its words: its mask leaves the three fields free. -/
theorem rowSelects_encode_cbRun : rowSelects opcodeTable[4] (encode (.cbRun f t pad)) = true := by
  have hp : pad.toNat < 2 ^ 1 := pad.toNat_lt
  have hclear : (placeField f 8 ||| placeField t 12 ||| placeField pad.toNat 16) &&& 0xFFFE00FF = 0 := by
    rw [BitVec.and_or_distrib_right, BitVec.and_or_distrib_right,
      placeField_and_eq_zero hf (by omega) (by decide), placeField_and_eq_zero ht (by omega) (by decide),
      placeField_and_eq_zero hp (by omega) (by decide)]
    decide
  rw [encode, BitVec.or_assoc, BitVec.or_assoc, ← BitVec.or_assoc (placeField f 8)]
  exact rowSelects_or (r := opcodeTable[4]) (by decide) hclear

theorem decodeWord_encode_cbRun : decodeWord (encode (.cbRun f t pad)) = .ok (.cbRun f t pad) := by
  obtain ⟨hfrom, hto, hpad⟩ := fields_encode_cbRun hf ht pad
  calc decodeWord (encode (.cbRun f t pad))
    _ = .ok (.cbRun (fieldFrom (encode (.cbRun f t pad))) (fieldTo (encode (.cbRun f t pad)))
          (fieldPad (encode (.cbRun f t pad)))) :=
      decodeWord_of_row (List.getElem_mem _) (rowSelects_encode_cbRun hf ht pad)
    _ = .ok (.cbRun f t pad) := by rw [hfrom, hto, hpad]

end

/-- Settles O1, format by format: format N words are single words; the operand rows read back their operands. -/
theorem encodedCommandDecodesBack : Obligations.EncodedCommandDecodesBack := by
  intro i hwf
  cases i with
  | nop | pmInit | pmRun | b32Map | b32Unmap | checksum | decode => rfl
  | pmStep sym =>
    exact decodeWord_operandWord (List.getElem_mem (n := 2) (by decide)) (of_decide_eq_true hwf)
      (by omega) (by decide) (by decide) (by decide)
  | cbRun f t pad =>
    obtain ⟨hf, ht⟩ := Bool.and_eq_true_iff.mp hwf
    exact decodeWord_encode_cbRun (of_decide_eq_true hf) (of_decide_eq_true ht) pad
  | pack ty =>
    exact decodeWord_operandWord (List.getElem_mem (n := 7) (by decide)) (of_decide_eq_true hwf)
      (by omega) (by decide) (by decide) (by decide)
  | encode ty =>
    exact decodeWord_operandWord (List.getElem_mem (n := 9) (by decide)) (of_decide_eq_true hwf)
      (by omega) (by decide) (by decide) (by decide)

/-! ### From the word to its command and back -/

/-- The words a row selects are the words of well-formed commands (30_encoding.md R96). -/
def RowReencodes (r : OpcodeRow) : Prop :=
  ∀ w, rowSelects r w = true → (r.command w).WellFormed ∧ encode (r.command w) = w

/-- Format N: a row with every bit fixed selects one word. -/
theorem rowReencodes_fixedWord {name : String} {i : Instr} (hwf : i.WellFormed) :
    RowReencodes ⟨name, encode i, 0xFFFFFFFF, fun _ => i⟩ := by
  intro w hsel
  have hword : w &&& BitVec.allOnes 32 = encode i := beq_iff_eq.mp hsel
  exact ⟨hwf, by rw [← hword, BitVec.and_allOnes]⟩

/-- Formats S and T: mask and operand field together are the whole word. -/
theorem rowReencodes_operandWord {name : String} {f m : Word} {c : Nat → Instr} {n : Nat}
    (hwf : ∀ v < 2 ^ n, (c v).WellFormed) (henc : ∀ v, encode (c v) = f ||| placeField v 8)
    (hcover : m ||| fieldMask 8 n = BitVec.allOnes 32) :
    RowReencodes ⟨name, f, m, fun w => c (w.extractLsb' 8 n).toNat⟩ := by
  intro w hsel
  have hfixed : w &&& m = f := beq_iff_eq.mp hsel
  refine ⟨hwf _ (w.extractLsb' 8 n).isLt, ?_⟩
  calc encode (c (w.extractLsb' 8 n).toNat)
    _ = (w &&& m) ||| (w &&& fieldMask 8 n) := by rw [henc, placeField_extractLsb', hfixed]
    _ = w &&& (m ||| fieldMask 8 n) := BitVec.and_or_distrib_left.symm
    _ = w := by rw [hcover, BitVec.and_allOnes]

/-- Format C: mask and the three fields together are the whole word. -/
theorem rowReencodes_cbRun : RowReencodes opcodeTable[4] := by
  intro w hsel
  have hfixed : w &&& 0xFFFE00FF = 0x10 := beq_iff_eq.mp hsel
  have hwf : (Instr.cbRun (fieldFrom w) (fieldTo w) (fieldPad w)).WellFormed :=
    Bool.and_eq_true_iff.mpr ⟨decide_eq_true (w.extractLsb' 8 4).isLt, decide_eq_true (w.extractLsb' 12 4).isLt⟩
  have hcover : 0xFFFE00FF ||| fieldMask 8 4 ||| fieldMask 12 4 ||| fieldMask 16 1 = BitVec.allOnes 32 := by decide
  refine ⟨hwf, ?_⟩
  calc encode (.cbRun (fieldFrom w) (fieldTo w) (fieldPad w))
    _ = (w &&& 0xFFFE00FF) ||| (w &&& fieldMask 8 4) ||| (w &&& fieldMask 12 4) ||| (w &&& fieldMask 16 1) := by
      rw [encode, toNat_fieldPad, fieldFrom, fieldTo, placeField_extractLsb', placeField_extractLsb',
        placeField_extractLsb', hfixed]
    _ = w &&& (0xFFFE00FF ||| fieldMask 8 4 ||| fieldMask 12 4 ||| fieldMask 16 1) := by
      simp only [BitVec.and_or_distrib_left]
    _ = w := by rw [hcover, BitVec.and_allOnes]

/-- Row by row: seven of format N, PM_STEP, CB_RUN, PACK and ENCODE. -/
theorem opcodeTable_reencodes : ∀ r ∈ opcodeTable, RowReencodes r := by
  unfold opcodeTable
  simp only [List.forall_mem_cons]
  exact ⟨rowReencodes_fixedWord (i := .nop) rfl,
    rowReencodes_fixedWord (i := .pmInit) rfl,
    rowReencodes_operandWord (c := .pmStep) (fun _ hv => decide_eq_true hv) (fun _ => rfl) (by decide),
    rowReencodes_fixedWord (i := .pmRun) rfl,
    rowReencodes_cbRun,
    rowReencodes_fixedWord (i := .b32Map) rfl,
    rowReencodes_fixedWord (i := .b32Unmap) rfl,
    rowReencodes_operandWord (c := .pack) (fun _ hv => decide_eq_true hv) (fun _ => rfl) (by decide),
    rowReencodes_fixedWord (i := .checksum) rfl,
    rowReencodes_operandWord (c := .encode) (fun _ hv => decide_eq_true hv) (fun _ => rfl) (by decide),
    rowReencodes_fixedWord (i := .decode) rfl,
    List.forall_mem_nil _⟩

/-- Settles O2: an accepted word is selected by a row, and every row's words are those of its commands. -/
theorem decodedWordEncodesBack : Obligations.DecodedWordEncodesBack := by
  intro w i hok
  obtain ⟨r, hr, hsel, rfl⟩ := decodeWord_eq_ok_iff.mp hok
  exact opcodeTable_reencodes r hr w hsel

/-! ### The assembler and the disassembler -/

theorem disassemble_of_ok {w : Word} {i : Instr} (h : decodeWord w = .ok i) : disassemble w = .command i := by
  rw [disassemble, h]

theorem disassemble_of_error {w : Word} {e : DecodeError} (h : decodeWord w = .error e) : disassemble w = .word w := by
  rw [disassemble, h]

/-- A well-formed command assembles to its word (30_encoding.md R100). -/
theorem assemble_command {i : Instr} (h : i.WellFormed) : assemble (.command i) = some (encode i) := if_pos h

/-- A disassembled word assembles to itself, legal or not (30_encoding.md R100). -/
theorem assemble_disassemble (w : Word) : assemble (disassemble w) = some w := by
  cases hd : decodeWord w with
  | ok i =>
    obtain ⟨hwf, henc⟩ := decodedWordEncodesBack w i hd
    rw [disassemble_of_ok hd, assemble_command hwf, henc]
  | error e => rw [disassemble_of_error hd, assemble]

/-- Settles O5: a legal word comes back through its command's word (O2), an illegal one as it is. -/
theorem disassembledWordAssembles : Obligations.DisassembledWordAssembles := by
  intro w
  refine ⟨assemble_disassemble w, fun hlegal => ?_, fun hillegal => ?_⟩
  · obtain ⟨i, hi⟩ := legalWord_eq_true_iff.mp hlegal
    exact ⟨i, hi, disassemble_of_ok hi⟩
  · obtain ⟨e, he⟩ := legalWord_eq_false_iff.mp hillegal
    exact disassemble_of_error he

end Sys2Proof.Machine
end

section
/-! PROOFS. An illegal word in flight at the engine's turn (30_encoding.md R97, 40_command.md R122, R128). -/

namespace Sys2Proof.Machine

/-- With nothing scheduled and rst released the engine completes the command in flight. -/
theorem step_completes_of_nil {s : State} (hrst : s.rst = false) (hbusy : s.status.busy = true)
    (hp : s.pending = []) : step s = completeCommand s := by
  rw [step_of_nil hp, engineTurn]
  simp [hrst, hbusy]

/-- An illegal word completes with ILLEGAL_CMD (40_command.md R122). -/
theorem completeCommand_of_illegal {s : State} (h : legalWord s.cmd = false) :
    completeCommand s = .next (completeIllegal s) := by
  obtain ⟨e, he⟩ := legalWord_eq_false_iff.mp h
  rw [completeCommand, he]

/-- A completion by itself leaves OUT: it writes STATUS alone. -/
theorem completeWith_outUnchanged (s : State) (e : ErrCode) : OutUnchanged s (completeWith s e) :=
  ⟨fun _ => rfl, rfl⟩

/-- Settles O7: the engine's turn is `completeIllegal`, which writes STATUS alone. -/
theorem illegalWordCompletesWithoutEffect : Obligations.IllegalWordCompletesWithoutEffect := by
  intro s hrst hbusy hp hillegal
  have hstep : step s = .next (completeIllegal s) :=
    (step_completes_of_nil hrst hbusy hp).trans (completeCommand_of_illegal hillegal)
  exact ⟨_, hstep, completeWith_completed s .illegalCmd, completeWith_neverWritten (.refl s) .illegalCmd,
    completeWith_outUnchanged s .illegalCmd, rfl, rfl, rfl⟩

end Sys2Proof.Machine
end

section
/-! PROOFS. What each command writes: the columns of the frame table (40_command.md R128), the OUT rule and the RESULT
rule (R124, R125), and the length checks (R123). -/

namespace Sys2Proof.Machine

/-! ### PM_RUN, all or nothing -/

/-- PM_RUN writes PM_ACC alone besides STATUS, and not where it fails (41_polymod.md R156). -/
theorem exec_pmRun_writes {s t : State} (h : exec .pmRun s = .next t) :
    ∃ c e, t = completeWith { s with pmAcc := c } e ∧ (e ≠ .ok → c = s.pmAcc) := by
  obtain rfl := Host.Outcome.next.inj h
  cases pmRunValue s with
  | ok c => exact ⟨c, .ok, rfl, fun herr => absurd rfl herr⟩
  | error e => exact ⟨s.pmAcc, e, rfl, fun _ => rfl⟩

/-! ### The frame table, column by column -/

section
variable {i : Instr} {s t : State} (h : exec i s = .next t)
include h

theorem exec_completed : CompletedWith t t.status.err := by
  obtain ⟨u, hu, hdone⟩ := exec_completes i s
  obtain rfl : u = t := Host.Outcome.next.inj (hu.symm.trans h)
  exact hdone

theorem exec_pmAcc_unchanged (hcol : writesPmAcc i = false) : t.pmAcc = s.pmAcc := by
  cases i with
  | pmInit | pmStep | pmRun => cases hcol
  | nop | cbRun | b32Map | b32Unmap | pack | checksum | encode | decode =>
    obtain rfl := Host.Outcome.next.inj h
    rfl

theorem exec_outUnchanged (hcol : writesOut i = false) : OutUnchanged s t := by
  cases i with
  | nop | pmInit | pmStep =>
    obtain rfl := Host.Outcome.next.inj h
    exact ⟨fun _ => rfl, rfl⟩
  | pmRun =>
    obtain ⟨c, e, rfl, _⟩ := exec_pmRun_writes h
    exact ⟨fun _ => rfl, rfl⟩
  | cbRun | b32Map | b32Unmap | pack | checksum | encode | decode => cases hcol

theorem exec_result_unchanged (hcol : writesResult i = false) : t.result = s.result := by
  cases i with
  | pmRun =>
    obtain ⟨c, e, rfl, _⟩ := exec_pmRun_writes h
    rfl
  | nop | pmInit | pmStep | cbRun | b32Map | b32Unmap | checksum =>
    obtain rfl := Host.Outcome.next.inj h
    rfl
  | pack | encode | decode => cases hcol

theorem exec_mod_unchanged (hcol : writesMod i = false) : t.mod = s.mod := by
  cases i with
  | pmRun =>
    obtain ⟨c, e, rfl, _⟩ := exec_pmRun_writes h
    rfl
  | nop | pmInit | pmStep | cbRun | b32Map | b32Unmap | pack =>
    obtain rfl := Host.Outcome.next.inj h
    rfl
  | checksum | encode | decode => cases hcol

end

theorem exec_pmRun_failed {s t : State} (h : exec .pmRun s = .next t) (herr : t.status.err ≠ .ok) :
    t.pmAcc = s.pmAcc := by
  obtain ⟨c, e, rfl, hkeeps⟩ := exec_pmRun_writes h
  exact hkeeps herr

/-- Settles O28: column by column of the frame table; an illegal word's completion writes STATUS alone. -/
theorem commandsWriteOnlyTheirColumns : Obligations.CommandsWriteOnlyTheirColumns := by
  refine ⟨fun i s t h => ?_, fun s t e herr h => ?_⟩
  · exact ⟨exec_completed h, exec_neverWritten h, exec_pmAcc_unchanged h, fun hrun => exec_pmRun_failed (hrun ▸ h),
      exec_outUnchanged h, exec_result_unchanged h, exec_mod_unchanged h⟩
  · have hrun := completeCommand_of_illegal (legalWord_eq_false_iff.mpr ⟨e, herr⟩)
    obtain rfl := Host.Outcome.next.inj (hrun.symm.trans h)
    exact ⟨completeWith_completed s .illegalCmd, completeWith_neverWritten (.refl s) .illegalCmd,
      completeWith_outUnchanged s .illegalCmd, rfl, rfl, rfl⟩

/-! ### The OUT rule -/

/-- A command of the OUT column leaves OUT and OUT_LEN as WriteOut of its settled result does, and completes with that
result's code (40_command.md R124). -/
theorem exec_writesOut {i : Instr} {s t : State} (h : exec i s = .next t) (hcol : writesOut i = true) :
    ∃ r, t.mem = (writeOut s (settleOut r)).mem ∧ t.outLen = (writeOut s (settleOut r)).outLen ∧
      t.status.err = codeOf (settleOut r) := by
  cases i with
  | nop | pmInit | pmStep | pmRun => cases hcol
  | cbRun | b32Map | b32Unmap | pack | checksum | encode | decode =>
    obtain rfl := Host.Outcome.next.inj h
    exact ⟨_, rfl, rfl, rfl⟩

/-- A result whose code is not OK leaves no byte in OUT. -/
theorem outBytesOf_of_failed {r : Except ErrCode (List Byte)} (h : codeOf r ≠ .ok) : outBytesOf r = [] := by
  cases r with
  | ok bs => exact absurd rfl h
  | error e => rfl

/-- The OUT rule: the result, zeros behind it, and nothing after a failure (40_command.md R124). -/
theorem exec_outHolds {i : Instr} {s t : State} (h : exec i s = .next t) (hcol : writesOut i = true) :
    ∃ bs, bs.length ≤ 256 ∧ OutHolds t bs ∧ (t.status.err ≠ .ok → bs = []) := by
  obtain ⟨r, hmem, hlen, herr⟩ := exec_writesOut h hcol
  exact ⟨_, outBytesOf_settleOut_length r, (settled_holds s r).congr hmem hlen,
    fun hfail => outBytesOf_of_failed (herr ▸ hfail)⟩

/-! ### The RESULT rule: every version byte a command carries has bits 7 and 6 zero -/

/-- A failure carries byte 0. -/
theorem versionOf_error_reserved {α : Type} (e : ErrCode) :
    (versionOf (.error e : Except ErrCode (α × Byte))).extractLsb' 6 2 = 0 := by
  rw [versionOf_error]
  rfl

/-- VersionByte of a type tag up to 7 (43_packer.md R211). -/
theorem versionByte_reserved_zero {ty : Nat} (c : Fin 8) (hty : ty ≤ 7) :
    (versionByte ty c).extractLsb' 6 2 = 0 := by
  have hval := versionByte_toNat ty c (by omega)
  by_contra hne
  have := (versionByte_reserved _).mp hne
  omega

theorem packPayload_version (st : Config.SizeTable) (p : List Byte) (ty : Nat) :
    (versionOf (packPayload st p ty)).extractLsb' 6 2 = 0 := by
  unfold packPayload
  split
  · exact versionOf_error_reserved _
  · next hty =>
    split
    · exact versionOf_error_reserved _
    · next c _ =>
      split
      · exact versionOf_error_reserved _
      · exact versionByte_reserved_zero c (by omega)

theorem packValue_version (ty : Nat) (s : State) : (versionOf (packValue ty s)).extractLsb' 6 2 = 0 := by
  unfold packValue
  split
  · exact versionOf_error_reserved _
  · exact packPayload_version _ _ _

/-- ENCODE carries its payload's version byte (46_codec.md R270). -/
theorem encodeAddress_version (st : Config.SizeTable) (q p : List Byte) (ty : Nat) :
    versionOf (encodeAddress st q p ty).value = versionOf (packPayload st p ty) := by
  unfold encodeAddress
  cases packPayload st p ty with
  | error e => rfl
  | ok x => rfl

theorem encodeCommand_version (ty : Nat) (s : State) :
    (versionOf (encodeCommand ty s).value).extractLsb' 6 2 = 0 := by
  unfold encodeCommand
  split
  · exact versionOf_error_reserved _
  · rw [encodeAddress_version]
    exact packPayload_version _ _ _

/-- Step 7 of Decode rejects a version byte whose bits 7 and 6 are not zero (46_codec.md R273). -/
theorem splitVersion_version (st : Config.SizeTable) (bytes : List Byte) :
    (versionOf (splitVersion st bytes)).extractLsb' 6 2 = 0 := by
  cases bytes with
  | nil => exact versionOf_error_reserved _
  | cons vb payload =>
    rw [splitVersion]
    split
    · exact versionOf_error_reserved _
    · next hvb =>
      split
      · exact not_not.mp hvb
      · exact versionOf_error_reserved _

theorem unpackSymbols_version (st : Config.SizeTable) (ds : List Symbol) :
    (versionOf (unpackSymbols st ds)).extractLsb' 6 2 = 0 := by
  unfold unpackSymbols
  split
  · exact versionOf_error_reserved _
  · exact splitVersion_version _ _

theorem decodeSymbols_version (st : Config.SizeTable) (q : List Byte) (ds : List Symbol) :
    (versionOf (decodeSymbols st q ds).value).extractLsb' 6 2 = 0 := by
  unfold decodeSymbols
  split
  · exact versionOf_error_reserved _
  · dsimp only
    split
    · exact versionOf_error_reserved _
    · exact unpackSymbols_version _ _

theorem decodeAddress_version (st : Config.SizeTable) (a dq : List Byte) (u : Bool) :
    (versionOf (decodeAddress st a dq u).value).extractLsb' 6 2 = 0 := by
  unfold decodeAddress
  split
  · exact versionOf_error_reserved _
  · split
    · exact versionOf_error_reserved _
    · split
      · exact versionOf_error_reserved _
      · exact decodeSymbols_version _ _ _

theorem decodeCommand_version (s : State) : (versionOf (decodeCommand s).value).extractLsb' 6 2 = 0 := by
  unfold decodeCommand
  split
  · exact versionOf_error_reserved _
  · exact decodeAddress_version _ _ _ _

/-- A command of the RESULT column leaves a version byte's fields where it completes with OK, else 0 (40_command.md
R125). -/
theorem exec_writesResult {i : Instr} {s t : State} (h : exec i s = .next t) (hcol : writesResult i = true) :
    ∃ vb : Byte, vb.extractLsb' 6 2 = 0 ∧ t.result = if t.status.err = .ok then resultWord vb else 0 := by
  cases i with
  | pack ty =>
    obtain rfl := Host.Outcome.next.inj h
    exact ⟨_, packValue_version ty s, rfl⟩
  | encode ty =>
    obtain rfl := Host.Outcome.next.inj h
    exact ⟨_, encodeCommand_version ty s, rfl⟩
  | decode =>
    obtain rfl := Host.Outcome.next.inj h
    exact ⟨_, decodeCommand_version s, rfl⟩
  | nop | pmInit | pmStep | pmRun | cbRun | b32Map | b32Unmap | checksum => cases hcol

/-- RESULT = 0 holds the fields of byte 0. -/
theorem resultWord_zero : resultWord 0 = 0 := by decide

/-- The RESULT rule: one version byte's fields, byte 0's after a failure (40_command.md R125). -/
theorem exec_resultHolds {i : Instr} {s t : State} (h : exec i s = .next t) (hcol : writesResult i = true) :
    ∃ vb : Byte, vb.extractLsb' 6 2 = 0 ∧ t.result = resultWord vb ∧ (t.status.err ≠ .ok → vb = 0) := by
  obtain ⟨vb, hvb, hresult⟩ := exec_writesResult h hcol
  by_cases herr : t.status.err = .ok
  · exact ⟨vb, hvb, by rw [hresult, if_pos herr], fun hfail => absurd herr hfail⟩
  · exact ⟨0, by decide, by rw [hresult, if_neg herr, resultWord_zero], fun _ => rfl⟩

/-- Settles O29: the OUT rule and the RESULT rule. -/
theorem failedCommandLeavesNoResult : Obligations.FailedCommandLeavesNoResult :=
  fun _ _ _ h => ⟨exec_outHolds h, exec_resultHolds h⟩

/-! ### The length checks -/

/-- A length the command reads is out of range (40_command.md R123). -/
def lengthFails (i : Instr) (s : State) : Bool :=
  (readsIn i && inLenBad s) || (readsPrefix i && prefixLenBad s)

theorem lengthFails_iff {i : Instr} {s : State} : lengthFails i s = true ↔
    (readsIn i = true ∧ 256 < s.inLen.toNat) ∨ (readsPrefix i = true ∧ 64 < s.prefixLen.toNat) := by
  simp only [lengthFails, Bool.or_eq_true, Bool.and_eq_true, inLenBad_eq_true, prefixLenBad_eq_true]

/-- A command that reads IN alone checks IN_LEN alone. -/
theorem inLenBad_of_lengthFails {i : Instr} {s : State} (hprefix : readsPrefix i = false)
    (h : lengthFails i s = true) : inLenBad s = true := by
  simp only [lengthFails, hprefix, Bool.false_and, Bool.or_false, Bool.and_eq_true] at h
  exact h.2

theorem codeOf_settleOut_of_error {r : Except ErrCode (List Byte)} {e : ErrCode} (h : r = .error e) :
    codeOf (settleOut r) = e := by
  rw [h, settleOut_error, codeOf_error]

theorem codeOf_settleOut_map_of_error {α : Type} {p : Except ErrCode α} {e : ErrCode} (f : α → List Byte)
    (h : p = .error e) : codeOf (settleOut (p.map f)) = e :=
  codeOf_settleOut_of_error (h ▸ rfl)

/-- A command that fails a length check completes with BAD_PARAM: that check decides its value before any other. -/
theorem exec_of_lengthFails {i : Instr} {s t : State} (h : exec i s = .next t) (hlen : lengthFails i s = true) :
    t.status.err = .badParam := by
  cases i with
  | nop | pmInit | pmStep => cases hlen
  | pmRun =>
    obtain rfl := Host.Outcome.next.inj h
    have hval : pmRunValue s = .error .badParam := if_pos (inLenBad_of_lengthFails rfl hlen)
    exact congrArg codeOf hval
  | cbRun | b32Map | b32Unmap =>
    obtain rfl := Host.Outcome.next.inj h
    exact codeOf_settleOut_of_error (if_pos (inLenBad_of_lengthFails rfl hlen))
  | pack =>
    obtain rfl := Host.Outcome.next.inj h
    exact codeOf_settleOut_map_of_error _ (if_pos (inLenBad_of_lengthFails rfl hlen))
  | checksum =>
    obtain rfl := Host.Outcome.next.inj h
    exact codeOf_settleOut_map_of_error _ (if_pos hlen)
  | encode | decode =>
    obtain rfl := Host.Outcome.next.inj h
    exact codeOf_settleOut_map_of_error _ (congrArg CodecOutcome.value (if_pos hlen))

/-- NOP, PM_INIT and PM_STEP read no length and cannot fail (40_command.md R123). -/
theorem exec_of_not_readsIn {i : Instr} {s t : State} (h : exec i s = .next t) (hin : readsIn i = false) :
    t.status.err = .ok := by
  cases i with
  | nop | pmInit | pmStep =>
    obtain rfl := Host.Outcome.next.inj h
    rfl
  | pmRun | cbRun | b32Map | b32Unmap | pack | checksum | encode | decode => cases hin

/-- Settles O31: every command completes, with the code the two lemmas above give. -/
theorem lengthChecksComeFirst : Obligations.LengthChecksComeFirst := by
  intro i s
  obtain ⟨t, hexec, hdone⟩ := exec_completes i s
  refine ⟨fun hlen => ⟨t, hexec, ?_⟩, fun hin => ⟨t, hexec, ?_⟩⟩
  · rwa [exec_of_lengthFails hexec (lengthFails_iff.mpr hlen)] at hdone
  · rwa [exec_of_not_readsIn hexec hin] at hdone

end Sys2Proof.Machine
end

section
/-! PROOFS. The life of a command: acceptance, the engine's turn, and NOP (40_command.md R120, R122, R127). -/

namespace Sys2Proof.Machine

/-- A legal word in flight completes with its command's meaning (40_command.md R122). -/
theorem completeCommand_of_ok {s : State} {i : Instr} (h : decodeWord s.cmd = .ok i) :
    completeCommand s = exec i s := by
  rw [completeCommand, h]

/-- Settles O6: the engine's turn is the completion, in both forms of the schedule. -/
theorem stepRunsDecodedCommand : Obligations.StepRunsDecodedCommand := by
  intro s i hrst hbusy hdecode
  refine ⟨fun hp => ?_, fun rest hp => ?_⟩
  · exact (step_completes_of_nil hrst hbusy hp).trans (completeCommand_of_ok hdecode)
  · exact (step_completes hrst hbusy hp).trans (completeCommand_of_ok (s := { s with pending := rest }) hdecode)

/-- Settles O8: while BUSY = 0 the write is `accept`; while BUSY = 1 the busy filter refuses it (O12). -/
theorem cmdWriteAcceptsEveryWord : Obligations.CmdWriteAcceptsEveryWord := by
  intro s w rest hrst hp
  refine ⟨fun hidle => ?_, fun hbusy => ?_⟩
  · exact step_writeReg (r := .cmd) rfl hrst hp (busyRefuses_of_idle hidle 0x00C)
  · obtain ⟨hrefused, _⟩ := busyFilterRefusesAccesses s rest hrst hbusy
    have hok : ¬ BadAccess 0x00C 4 := by unfold BadAccess; decide
    obtain ⟨_, hwrite⟩ := hrefused 0x00C 4 hok (by decide) (by decide) (by decide)
    exact hwrite w hp

/-- Settles O32: NOP writes STATUS alone; accepted at reset, the engine's turn runs it (O6). -/
theorem nopCompletesWithoutEffect : Obligations.NopCompletesWithoutEffect := by
  refine ⟨fun s => ?_, ?_⟩
  · exact ⟨_, rfl, completeWith_completed s .ok, completeWith_neverWritten (.refl s) .ok,
      completeWith_outUnchanged s .ok, rfl, rfl, rfl⟩
  · obtain ⟨hnop, _⟩ := specWordsDecode
    obtain ⟨hstep, _⟩ := stepRunsDecodedCommand (accept State.reset 0x00000000) .nop rfl rfl hnop
    exact ⟨_, hstep rfl, by decide⟩

end Sys2Proof.Machine
end

section
/-! PROOFS. The invariant, kept by every event of the schedule: an access, a completion, an edge of rst
(20_memory.md R75, 40_command.md R124; 70_reset_and_hazards.md R340). -/

namespace Sys2Proof.Machine

/-! ### The schedule, the response and the resets -/

/-- The schedule and the last response are no part of the invariant. -/
theorem Inv.withSchedule {s : State} (h : Inv s) (evs : List Event) (resp : Option Response) :
    Inv { s with pending := evs, resp := resp } :=
  { h with
    heldInReset := fun hrst =>
      congrArg (fun u : State => { u with pending := evs, resp := resp }) (h.heldInReset hrst) }

/-- The reset state has the invariant at either level of rst. -/
theorem resetCore_inv (s : State) : Inv (resetCore s) :=
  { (resetHasTheInvariant : Inv State.reset) with heldInReset := fun _ => rfl }

theorem assertReset_inv (s : State) : Inv (assertReset s) := resetCore_inv (assertReset s)

theorem releaseReset_inv (s : State) : Inv (releaseReset s) := resetCore_inv (releaseReset s)

/-! ### Host accesses -/

/-- While rst is released nothing holds the machine in reset. -/
theorem not_held {s : State} (hrst : s.rst = false) {p : Prop} (hheld : s.rst = true) : p := by
  rw [hrst] at hheld
  cases hheld

section
variable {s : State} (h : Inv s) (hrst : s.rst = false)
include h hrst

theorem markViolation_inv : Inv (markViolation s) := { h with heldInReset := not_held hrst }

/-- A register write keeps the invariant: of what it speaks of, only an acceptance and a soft reset write CMD and OP, and
a STATUS write only clears. -/
theorem csrWrite_inv (off : Nat) (v : Word) : Inv (csrWrite s off v) := by
  rcases csrWrite_cases s off v with
    hw | ⟨_, _, hw⟩ | ⟨_, _, hw⟩ | ⟨_, hw⟩ | ⟨_, hw⟩ | ⟨_, hw⟩ | ⟨_, hw⟩ | ⟨_, hw⟩ | ⟨_, hw⟩ <;> rw [hw]
  · exact h
  · exact resetCore_inv s
  · exact { h with heldInReset := not_held hrst }
  · refine { h with busyFresh := fun hbusy => ?_, heldInReset := not_held hrst }
    obtain ⟨hdone, herr⟩ := h.busyFresh hbusy
    exact ⟨by simp [clearStatus, hdone], herr⟩
  · exact { h with opIsCmd := rfl, busyFresh := fun _ => ⟨rfl, rfl⟩, heldInReset := not_held hrst }
  all_goals exact { h with heldInReset := not_held hrst }

/-- A store inside PREFIX or IN keeps the invariant: it ends below OUT. -/
theorem bufferStore_inv {base : Nat} {bs : List Byte}
    (hin : (prefixBase ≤ base ∧ base + bs.length ≤ prefixEnd) ∨ (inBase ≤ base ∧ base + bs.length ≤ outBase)) :
    Inv { s with mem := s.mem.store base bs } where
  memWf := store_wf h.memWf base bs
  memMapped := store_mapped h.memMapped base bs fun i hi => by
    simp only [isBufferAddr, prefixBase, prefixEnd, inBase, outBase, unmappedBase, Bool.or_eq_true, Bool.and_eq_true,
      decide_eq_true_eq] at hin ⊢
    omega
  outLenBound := h.outLenBound
  outTail := fun i hlo hhi => by
    have hread : (s.mem.store base bs).read (outBase + i) = s.mem.read (outBase + i) :=
      read_store_outside _ _ _ _ (by simp only [prefixEnd, outBase] at hin ⊢; omega)
    exact hread.trans (h.outTail i hlo hhi)
  resultShape := h.resultShape
  opIsCmd := h.opIsCmd
  busyFresh := h.busyFresh
  heldInReset := not_held hrst

/-- A write that passed the BusError checks stays inside its region. -/
theorem regionWrite_inv {a : HostAddr} {n : Nat} (hbus : raisesBusError a n = false) (v : Word) :
    Inv (regionWrite s a n v) := by
  rcases regionWrite_cases s a n v with ⟨_, hw⟩ | ⟨hbuf, hw⟩ | ⟨_, hw⟩ <;> rw [hw]
  · exact csrWrite_inv h hrst _ _
  · refine bufferStore_inv h hrst ?_
    rw [leBytes_length]
    exact hbuf.imp (fun hp => ⟨hp.1, passes_inside hbus prefixEnd rfl hp.2⟩)
      (fun hi => ⟨hi.1, passes_inside hbus outBase rfl hi.2⟩)
  · exact h

theorem performAccess_inv (x : HostAccess) : Inv (performAccess s x) := by
  obtain ⟨r, hw | ⟨hw, _⟩ | ⟨a, n, v, _, hbus, _, hw⟩⟩ := performAccess_cases s x <;> rw [hw]
  · exact h.withSchedule _ _
  · exact (markViolation_inv h hrst).withSchedule _ _
  · exact (regionWrite_inv h hrst hbus v).withSchedule _ _

end

theorem portAccess_inv {s : State} (h : Inv s) (x : HostAccess) : Inv (portAccess s x) := by
  cases hrst : s.rst with
  | true =>
    rw [portAccess_of_rst hrst]
    exact h.withSchedule _ _
  | false =>
    rw [portAccess_of_not_rst hrst]
    exact performAccess_inv h hrst x

/-! ### Completion -/

/-- A command stores in OUT alone, so the memory keeps its form. -/
theorem exec_mem {i : Instr} {s t : State} (h : exec i s = .next t) (hwf : s.mem.wf) (hmapped : s.mem.mapped) :
    t.mem.wf ∧ t.mem.mapped := by
  obtain ⟨c, code, hexec, hc⟩ := exec_cases i s
  obtain rfl : completeWith c code = t := Host.Outcome.next.inj (hexec.symm.trans h)
  have hstore (r : Except ErrCode (List Byte)) :
      (writeOut s (settleOut r)).mem.wf ∧ (writeOut s (settleOut r)).mem.mapped :=
    ⟨writeOut_wf hwf _, writeOut_mapped hmapped _ (outBytesOf_settleOut_length r)⟩
  rcases hc with rfl | ⟨acc, rfl⟩ | ⟨r, rfl⟩ | ⟨r, e, vb, rfl⟩ | ⟨r, m, rfl⟩ | ⟨r, m, e, vb, rfl⟩
  · exact ⟨hwf, hmapped⟩
  · exact ⟨hwf, hmapped⟩
  all_goals exact hstore r

/-- OUT_LEN and OUT's tail: from the OUT rule where the command writes OUT, as before elsewhere. -/
theorem exec_outTail {i : Instr} {s t : State} (h : exec i s = .next t) (hs : Inv s) :
    t.outLen.toNat ≤ 256 ∧ ∀ j, t.outLen.toNat ≤ j → j < 256 → t.mem.read (outBase + j) = 0 := by
  cases hcol : writesOut i with
  | true =>
    obtain ⟨bs, hfits, hout, _⟩ := exec_outHolds h hcol
    rw [hout.outLen]
    exact ⟨hfits, hout.tail⟩
  | false =>
    obtain ⟨hbytes, hlen⟩ := exec_outUnchanged h hcol
    rw [hlen]
    exact ⟨hs.outLenBound, fun j hlo hhi => (hbytes _).trans (hs.outTail j hlo hhi)⟩

/-- RESULT's shape: from the RESULT rule where the command writes RESULT, as before elsewhere. -/
theorem exec_resultShape {i : Instr} {s t : State} (h : exec i s = .next t) (hs : Inv s) :
    ∃ vb : Byte, vb.extractLsb' 6 2 = 0 ∧ t.result = resultWord vb := by
  cases hcol : writesResult i with
  | true =>
    obtain ⟨vb, hvb, hresult, _⟩ := exec_resultHolds h hcol
    exact ⟨vb, hvb, hresult⟩
  | false =>
    rw [exec_result_unchanged h hcol]
    exact hs.resultShape

/-- A command's completion keeps the invariant while rst is released. -/
theorem exec_inv {i : Instr} {s t : State} (hs : Inv s) (hrst : s.rst = false) (h : exec i s = .next t) : Inv t := by
  have hframe := exec_neverWritten h
  obtain ⟨hwf, hmapped⟩ := exec_mem h hs.memWf hs.memMapped
  obtain ⟨hlen, htail⟩ := exec_outTail h hs
  exact {
    memWf := hwf
    memMapped := hmapped
    outLenBound := hlen
    outTail := htail
    resultShape := exec_resultShape h hs
    opIsCmd := by rw [hframe.op, hframe.cmd, hs.opIsCmd]
    busyFresh := fun hbusy => by rw [(exec_completed h).idle] at hbusy; cases hbusy
    heldInReset := not_held (hframe.rst.trans hrst) }

theorem completeIllegal_inv {s : State} (h : Inv s) (hrst : s.rst = false) : Inv (completeIllegal s) :=
  { h with busyFresh := nofun, heldInReset := not_held hrst }

theorem engineTurn_inv {s t : State} (hs : Inv s) (h : engineTurn s = .next t) : Inv t := by
  rcases engineTurn_cases s with ⟨_, hidle⟩ | ⟨_, hrst, hturn⟩
  · obtain rfl := Host.Outcome.next.inj (hidle.symm.trans h)
    exact hs
  · rw [hturn] at h
    rcases completeCommand_cases s with ⟨i, _, hrun⟩ | ⟨e, _, hrun⟩
    · exact exec_inv hs hrst (hrun.symm.trans h)
    · obtain rfl := Host.Outcome.next.inj (hrun.symm.trans h)
      exact completeIllegal_inv hs hrst

/-- Settles O25: by the head of the schedule. -/
theorem stepKeepsTheInvariant : Obligations.StepKeepsTheInvariant := by
  intro s t hs hstep
  cases hp : s.pending with
  | nil => exact engineTurn_inv hs ((step_of_nil hp).symm.trans hstep)
  | cons ev rest =>
    have hrest : Inv { s with pending := rest } := hs.withSchedule rest s.resp
    cases ev with
    | host x =>
      obtain rfl := Host.Outcome.next.inj ((step_of_host hp).symm.trans hstep)
      exact portAccess_inv hrest x
    | engine => exact engineTurn_inv hrest ((step_of_engine hp).symm.trans hstep)
    | resetAssert =>
      obtain rfl := Host.Outcome.next.inj ((step_of_resetAssert hp).symm.trans hstep)
      exact assertReset_inv _
    | resetRelease =>
      obtain rfl := Host.Outcome.next.inj ((step_of_resetRelease hp).symm.trans hstep)
      exact releaseReset_inv _

end Sys2Proof.Machine
end

section
/-! PROOFS. The PolyMod engine: PolyStep and PolyMod against their readings on natural numbers, linearity, and the
commands PM_INIT, PM_STEP and PM_RUN (41_polymod.md R151 to R157). -/

namespace Sys2Proof.Machine

/-! ### PolyStep and PolyMod on natural numbers -/

/-- PolyStep of numbers that fit the two widths. -/
theorem polyStep_ofNat_toNat {c d : Nat} (hc : c < 2 ^ 40) (hd : d < 32) :
    (polyStep (BitVec.ofNat 40 c) (BitVec.ofNat 5 d)).toNat = polyStepNat c d := by
  rw [polyStep_toNat, BitVec.toNat_ofNat, BitVec.toNat_ofNat, Nat.mod_eq_of_lt hc, Nat.mod_eq_of_lt hd]

/-- The empty accumulator takes the symbol itself (41_polymod.md R155). -/
theorem polyStep_zero (d : Symbol) : polyStep 0 d = d.setWidth 40 := by
  simp [polyStep_eq]

theorem polyFold_toNat (c : Acc) (ds : List Symbol) :
    (polyFold c ds).toNat = (ds.map BitVec.toNat).foldl polyStepNat c.toNat := by
  rw [List.foldl_map]
  exact (List.foldl_hom BitVec.toNat fun c d => (polyStep_toNat c d).symm).symm

theorem polyMod_toNat (ds : List Symbol) : (polyMod ds).toNat = polyModNat (ds.map BitVec.toNat) := by
  rw [polyMod, BitVec.toNat_xor, polyFold_toNat]
  rfl

/-- Settles O35: what the 40-bit functions compute is the reading on naturals, and a 40-bit value is below 2^40. -/
theorem fortyBitAccumulatorSuffices : Obligations.FortyBitAccumulatorSuffices := by
  refine ⟨fun c d hc hd => ?_, fun ds => ?_⟩
  · have hstep := polyStep_ofNat_toNat hc hd
    have hfive : c >>> 35 < 32 := by
      rw [Nat.shiftRight_eq_div_pow]
      omega
    exact ⟨hstep ▸ BitVec.isLt _, hfive, hstep⟩
  · have hmod := polyMod_toNat ds
    exact ⟨hmod, hmod ▸ BitVec.isLt _⟩

/-! ### Linearity -/

theorem zipWith_xor_zeros (ds : List Symbol) :
    List.zipWith (· ^^^ ·) ds (List.replicate ds.length 0) = ds := by
  induction ds with
  | nil => rfl
  | cons d ds ih =>
    rw [List.length_cons, List.replicate_succ, List.zipWith_cons_cons, ih]
    exact congrArg (· :: ds) BitVec.xor_zero

/-- An odd number of sequences starts from the one initial accumulator, 1 = 1 ^ 1 ^ 1, so the zeros of R157 make
PolyMod's fold linear. -/
theorem polyFold_one_xor (ds es : List Symbol) (h : ds.length = es.length) :
    polyFold 1 (List.zipWith (· ^^^ ·) ds es) =
      polyFold 1 ds ^^^ polyFold 1 es ^^^ polyFold 1 (List.replicate ds.length 0) := by
  have hlen : (List.zipWith (· ^^^ ·) ds es).length = ds.length := by simp [h]
  calc polyFold 1 (List.zipWith (· ^^^ ·) ds es)
      = polyFold (1 ^^^ 1 ^^^ 1) (List.zipWith (· ^^^ ·) (List.zipWith (· ^^^ ·) ds es)
          (List.replicate ds.length 0)) := by
        rw [← hlen, zipWith_xor_zeros]
        rfl
    _ = polyFold (1 ^^^ 1) (List.zipWith (· ^^^ ·) ds es) ^^^ polyFold 1 (List.replicate ds.length 0) :=
        polyFold_xor _ _ (by simp [h]) _ _
    _ = _ := by rw [polyFold_xor ds es h]

/-- Settles O38: PolyMod is the fold from 1 with a final XOR of 1, and three of those XORs are one. -/
theorem polyModIsAffine : Obligations.PolyModIsAffine := by
  refine ⟨polyStep_xor, fun ds es h => ?_⟩
  have hones (x y z : Acc) : (x ^^^ 1) ^^^ (y ^^^ 1) ^^^ (z ^^^ 1) = x ^^^ y ^^^ z ^^^ 1 :=
    calc (x ^^^ 1) ^^^ (y ^^^ 1) ^^^ (z ^^^ 1) = x ^^^ y ^^^ z ^^^ (1 ^^^ 1 ^^^ 1) := by ac_rfl
      _ = x ^^^ y ^^^ z ^^^ 1 := rfl
  simp only [polyMod, hones, polyFold_one_xor ds es h]

/-! ### PM_RES and the three commands -/

/-- PM_RES_LO reads the low word of PM_ACC ^ 1 (10_state.md R28). -/
theorem readReg_pmResLo (s : State) : readReg s .pmResLo = (s.pmAcc ^^^ 1).setWidth 32 := lowWord_eq _

/-- PM_RES_HI reads the high byte of PM_ACC ^ 1 (10_state.md R28). -/
theorem readReg_pmResHi (s : State) : readReg s .pmResHi = ((s.pmAcc ^^^ 1) >>> 32).setWidth 32 := highByte_eq _

theorem exec_pmInit (s : State) : exec .pmInit s = .next (completeWith { s with pmAcc := 1 } .ok) := rfl

theorem exec_pmStep (sym : Nat) (s : State) : exec (.pmStep sym) s =
    .next (completeWith { s with pmAcc := polyStep s.pmAcc (BitVec.ofNat 5 sym) } .ok) := rfl

theorem exec_pmRun (s : State) :
    exec .pmRun s = .next (completeWith (writePmAcc s (pmRunValue s)) (codeOf (pmRunValue s))) := rfl

/-- A command of the PM_ACC column writes no other column (40_command.md R128). -/
theorem exec_frame_of_writesPmAcc {i : Instr} {s t : State} (h : exec i s = .next t) (hcol : writesPmAcc i = true) :
    NeverWritten s t ∧ OutUnchanged s t ∧ t.result = s.result ∧ t.mod = s.mod := by
  have hothers : writesOut i = false ∧ writesResult i = false ∧ writesMod i = false := by
    cases i with
    | pmInit | pmStep | pmRun => exact ⟨rfl, rfl, rfl⟩
    | nop | cbRun | b32Map | b32Unmap | pack | checksum | encode | decode => cases hcol
  obtain ⟨hout, hresult, hmod⟩ := hothers
  exact ⟨exec_neverWritten h, exec_outUnchanged h hout, exec_result_unchanged h hresult, exec_mod_unchanged h hmod⟩

/-- Settles O33: PM_RES reads 1 ^ 1. -/
theorem pmInitSetsTheAccumulatorToOne : Obligations.PmInitSetsTheAccumulatorToOne := by
  intro s
  have hexec := exec_pmInit s
  have hlow : ((1 ^^^ 1 : Acc).setWidth 32 : Word) = 0 := by decide
  have hhigh : (((1 ^^^ 1 : Acc) >>> 32).setWidth 32 : Word) = 0 := by decide
  exact ⟨_, hexec, completeWith_completed _ .ok, rfl, (readReg_pmResLo _).trans hlow, (readReg_pmResHi _).trans hhigh,
    exec_frame_of_writesPmAcc hexec rfl⟩

/-- Settles O34, from PolyStep on naturals. -/
theorem pmStepAppliesPolyStep : Obligations.PmStepAppliesPolyStep := by
  intro sym s hsym
  have hsymbol : (BitVec.ofNat 5 sym).toNat = sym := Nat.mod_eq_of_lt hsym
  have hexec := exec_pmStep sym s
  refine ⟨_, hexec, completeWith_completed _ .ok, ?_, fun hzero => ?_, exec_frame_of_writesPmAcc hexec rfl⟩
  · rw [completeWith_pmAcc, polyStep_toNat, hsymbol]
  · rw [completeWith_pmAcc, hzero, polyStep_zero, BitVec.toNat_setWidth_of_le (by decide), hsymbol]

/-! ### A sequence of PM_STEPs -/

theorem execAll_cons_of_next {i : Instr} {s t : State} (h : exec i s = .next t) (rest : List Instr) :
    execAll (i :: rest) s = execAll rest t := by
  rw [execAll, h]

/-- PM_STEP for each symbol folds PM_ACC and otherwise touches STATUS alone. -/
theorem execAll_pmSteps (ds : List Symbol) (s : State) :
    ∃ st, execAll (ds.map fun d => .pmStep d.toNat) s =
      .next { s with pmAcc := polyFold s.pmAcc ds, status := st } := by
  induction ds generalizing s with
  | nil => exact ⟨s.status, rfl⟩
  | cons d ds ih =>
    have hexec := exec_pmStep d.toNat s
    rw [BitVec.ofNat_toNat, BitVec.setWidth_eq] at hexec
    obtain ⟨st, hrest⟩ := ih (completeWith { s with pmAcc := polyStep s.pmAcc d } .ok)
    exact ⟨st, (execAll_cons_of_next hexec _).trans hrest⟩

/-- Settles O36: PM_INIT starts the fold at 1, and PM_RES reads the final XOR with 1. -/
theorem pmStepsComputePolyMod : Obligations.PmStepsComputePolyMod := by
  intro ds s
  obtain ⟨st, hsteps⟩ := execAll_pmSteps ds (completeWith { s with pmAcc := 1 } .ok)
  exact ⟨_, (execAll_cons_of_next (exec_pmInit s) _).trans hsteps, readReg_pmResLo _, readReg_pmResHi _,
    rfl, rfl, rfl, rfl⟩

/-! ### PM_RUN's value, check by check -/

theorem pmRunValue_of_long {s : State} (h : 256 < s.inLen.toNat) : pmRunValue s = .error .badParam :=
  if_pos (inLenBad_eq_true.mpr h)

theorem pmRunValue_of_fits {s : State} (h : s.inLen.toNat ≤ 256) :
    pmRunValue s = (readSymbols s.inOperand).map (polyFold s.pmAcc) := by
  rw [pmRunValue, if_neg (by simp [inLenBad_eq_false.mpr h]), inBytes_eq_inOperand]
  cases readSymbols s.inOperand <;> rfl

/-- A byte that holds a symbol keeps its value as a symbol (20_memory.md R70). -/
theorem map_setWidth_toNat {bs : List Byte} (h : ∀ b ∈ bs, b.toNat < 32) :
    (bs.map fun b => (b.setWidth 5 : Symbol)).map BitVec.toNat = bs.map BitVec.toNat := by
  rw [List.map_map]
  exact List.map_congr_left fun b hb => (BitVec.toNat_setWidth 5 b).trans (Nat.mod_eq_of_lt (h b hb))

/-- PM_RUN's failure writes STATUS alone. -/
theorem exec_pmRun_of_error {s : State} {e : ErrCode} (h : pmRunValue s = .error e) :
    exec .pmRun s = .next (completeWith s e) := by
  rw [exec_pmRun, h, writePmAcc_error, codeOf_error]

theorem exec_pmRun_of_ok {s : State} {c : Acc} (h : pmRunValue s = .ok c) :
    exec .pmRun s = .next (completeWith { s with pmAcc := c } .ok) := by
  rw [exec_pmRun, h, writePmAcc_ok, codeOf_ok]

/-- Settles O37: the value of PM_RUN, check by check. -/
theorem pmRunStepsOverInAllOrNothing : Obligations.PmRunStepsOverInAllOrNothing := by
  intro s
  obtain ⟨t, hexec, _⟩ := exec_completes .pmRun s
  have hfailed {e : ErrCode} (hval : pmRunValue s = .error e) : CompletedWith t e ∧ t.pmAcc = s.pmAcc := by
    obtain rfl := Host.Outcome.next.inj ((exec_pmRun_of_error hval).symm.trans hexec)
    exact ⟨completeWith_completed s e, rfl⟩
  obtain ⟨hnever, hout, hresult, hmod⟩ := exec_frame_of_writesPmAcc hexec rfl
  refine ⟨t, hexec, hnever, hout, hresult, hmod, fun hlong => ?_, fun hfits hbad => ?_, fun hfits hgood => ?_⟩
  · exact hfailed (pmRunValue_of_long hlong)
  · exact hfailed (by rw [pmRunValue_of_fits hfits, readSymbols_error hbad]; rfl)
  · have hval : pmRunValue s = .ok (polyFold s.pmAcc (s.inOperand.map fun b => b.setWidth 5)) := by
      rw [pmRunValue_of_fits hfits, readSymbols_ok hgood]
      rfl
    obtain rfl := Host.Outcome.next.inj ((exec_pmRun_of_ok hval).symm.trans hexec)
    refine ⟨completeWith_completed _ .ok, ?_⟩
    rw [completeWith_pmAcc, polyFold_toNat, map_setWidth_toNat hgood]

end Sys2Proof.Machine
end

section
/-! PROOFS. ConvertBits as a repacking of the bit stream, its output lengths, the round trip and CB_RUN (42_repacker.md
R180 to R185). -/

namespace Sys2Proof.Machine

/-! ### Streams in whole units -/

/-- A stream splits in one way into whole units and a rest shorter than a unit. -/
theorem bitStream_append_inj {w : Nat} {u v : List Nat} {r r' : List Bool} (hu : ∀ x ∈ u, x < 2 ^ w)
    (hv : ∀ x ∈ v, x < 2 ^ w) (hr : r.length < w) (hr' : r'.length < w)
    (h : bitStream w u ++ r = bitStream w v ++ r') : u = v ∧ r = r' := by
  have htotal : r.length + w * u.length = r'.length + w * v.length := by
    have hlen := congrArg List.length h
    simp only [List.length_append, bitStream_length] at hlen
    linarith
  have hcount : u.length = v.length := by
    calc u.length = (r.length + w * u.length) / w := by
          rw [Nat.add_mul_div_left _ _ (by omega), Nat.div_eq_of_lt hr, Nat.zero_add]
      _ = v.length := by
          rw [htotal, Nat.add_mul_div_left _ _ (by omega), Nat.div_eq_of_lt hr', Nat.zero_add]
  obtain ⟨hstream, hrest⟩ := List.append_inj h (by rw [bitStream_length, bitStream_length, hcount])
  exact ⟨bitStream_inj w u v hcount hu hv hstream, hrest⟩

theorem bitStream_singleton (w x : Nat) : bitStream w [x] = bitsMsb w x := List.append_nil _

theorem bitStream_replicate_zero (w k : Nat) :
    bitStream w (List.replicate k 0) = List.replicate (k * w) false := by
  induction k with
  | zero => simp [bitStream]
  | succ k ih =>
    rw [List.replicate_succ', bitStream_append, bitStream_singleton, ih, bitsMsb_zero,
      List.replicate_append_replicate, Nat.succ_mul]

/-! ### The end of the conversion, with and without pad -/

theorem padGroup_lt (acc t b : Nat) : (acc <<< (t - b)) &&& ((1 <<< t) - 1) < 2 ^ t := by
  rw [and_ones]
  exact Nat.mod_lt _ (Nat.two_pow_pos t)

/-- With pad the bits left over go out with fewer than t zeros behind them: none where no bit was left. -/
theorem finishConvert_pad (f : Nat) {t bits : Nat} (acc : Nat) {out : List Nat} (hbits : bits < t)
    (hout : ∀ y ∈ out, y < 2 ^ t) :
    ∃ v p, finishConvert f t true out acc bits = .ok v ∧ (∀ y ∈ v, y < 2 ^ t) ∧ p < t ∧
      bitStream t v = (bitStream t out ++ bitsMsb bits acc) ++ List.replicate p false := by
  rcases Nat.eq_zero_or_pos bits with rfl | hpos
  · exact ⟨out, 0, rfl, hout, hbits, by simp [bitsMsb]⟩
  · refine ⟨_, t - bits, if_pos (Nat.ne_of_gt hpos), ?_, by omega, ?_⟩
    · intro y hy
      rcases List.mem_append.mp hy with hy | hy
      · exact hout y hy
      · rw [List.mem_singleton.mp hy]
        exact padGroup_lt acc t bits
    · rw [bitStream_append, bitStream_singleton, bitsMsb_padGroup acc t bits hbits, List.append_assoc]

/-- Without pad the groups alone are the answer, where fewer than f zero bits were left over. -/
theorem finishConvert_noPad (f : Nat) {t bits : Nat} (acc : Nat) (out : List Nat) (hbits : bits < t) :
    finishConvert f t false out acc bits =
      if bits < f ∧ bitsMsb bits acc = List.replicate bits false then .ok out else .error .padding := by
  have hcanonical : (f ≤ bits ∨ (acc <<< (t - bits)) &&& ((1 <<< t) - 1) ≠ 0) ↔
      ¬ (bits < f ∧ bitsMsb bits acc = List.replicate bits false) := by
    rw [Ne, padGroup_eq_zero acc t bits hbits, not_and_or, Nat.not_lt]
  rw [finishConvert, if_neg Bool.false_ne_true]
  simp only [hcanonical, ite_not]

/-! ### ConvertBits -/

/-- A unit that does not fit f bits fails the range check (42_repacker.md R183). -/
theorem convertBits_of_wide {f : Nat} (t : Nat) {u : List Nat} (h : ∃ x ∈ u, 2 ^ f ≤ x) (pad : Bool) :
    convertBits f t pad u = .error .symbolRange := by
  obtain ⟨x, hx, hwide⟩ := h
  have hshift : x >>> f ≠ 0 := by
    rw [Nat.shiftRight_eq_div_pow]
    exact Nat.ne_of_gt (Nat.div_pos hwide (Nat.two_pow_pos f))
  exact if_pos (List.any_eq_true.mpr ⟨x, hx, by simpa only [bne_iff_ne] using hshift⟩)

theorem fits_of_convertBits_ok {f t : Nat} {pad : Bool} {u v : List Nat} (h : convertBits f t pad u = .ok v) :
    ∀ x ∈ u, x < 2 ^ f := by
  by_contra hnot
  push Not at hnot
  rw [convertBits_of_wide t hnot] at h
  cases h

section
variable {f t : Nat} {u : List Nat} (ht : 1 ≤ t) (hu : ∀ x ∈ u, x < 2 ^ f)
include ht hu

/-- Where every unit fits, the loop has cut the stream into groups and fewer than t bits when the conversion ends. -/
theorem convertBits_eq_finishConvert :
    ∃ out acc bits, (∀ pad, convertBits f t pad u = finishConvert f t pad out acc bits) ∧ bits < t ∧
      (∀ y ∈ out, y < 2 ^ t) ∧ bitStream f u = bitStream t out ++ bitsMsb bits acc := by
  obtain ⟨hstream, hbits, hout⟩ := convertLoop_spec f t ht u hu 0 0 ht
  exact ⟨_, _, _, fun pad => if_neg (by rw [any_wide_eq_false f u hu]; exact Bool.false_ne_true), hbits, hout, hstream⟩

/-- With pad the output's stream is the input's and fewer than t zeros. -/
theorem convertBits_pad :
    ∃ v p, convertBits f t true u = .ok v ∧ (∀ y ∈ v, y < 2 ^ t) ∧ p < t ∧
      bitStream t v = bitStream f u ++ List.replicate p false := by
  obtain ⟨out, acc, bits, hconv, hbits, hout, hstream⟩ := convertBits_eq_finishConvert ht hu
  rw [hconv, hstream]
  exact finishConvert_pad f acc hbits hout

/-- Without pad the answer is v exactly where the input's stream is v's and a canonical zero padding
(42_repacker.md R182). -/
theorem convertBits_noPad_eq_ok_iff (v : List Nat) :
    convertBits f t false u = .ok v ↔
      (∀ y ∈ v, y < 2 ^ t) ∧ ∃ p, p < t ∧ p < f ∧ bitStream f u = bitStream t v ++ List.replicate p false := by
  obtain ⟨out, acc, bits, hconv, hbits, hout, hstream⟩ := convertBits_eq_finishConvert ht hu
  rw [hconv, finishConvert_noPad f acc out hbits]
  constructor
  · intro hok
    split at hok
    case isTrue hcanonical =>
      obtain ⟨hshort, hzero⟩ := hcanonical
      obtain rfl := Except.ok.inj hok
      exact ⟨hout, bits, hbits, hshort, hzero ▸ hstream⟩
    case isFalse => cases hok
  · rintro ⟨hv, p, hpt, hpf, hpadded⟩
    obtain ⟨rfl, hrest⟩ := bitStream_append_inj hout hv (by rwa [bitsMsb_length]) (by rwa [List.length_replicate])
      (hstream.symm.trans hpadded)
    obtain rfl : bits = p := by
      rw [← bitsMsb_length bits acc, hrest, List.length_replicate]
    exact if_pos ⟨hpf, hrest⟩

theorem convertBits_noPad_cases :
    (∃ v, convertBits f t false u = .ok v) ∨ convertBits f t false u = .error .padding := by
  obtain ⟨out, acc, bits, hconv, hbits, -, -⟩ := convertBits_eq_finishConvert ht hu
  rw [hconv, finishConvert_noPad f acc out hbits]
  split
  · exact .inl ⟨out, rfl⟩
  · exact .inr rfl

end

/-- Settles O40. -/
theorem convertBitsRepacksTheBitStream : Obligations.ConvertBitsRepacksTheBitStream := by
  intro f t u _ _ ht _
  exact ⟨convertBits_of_wide t, fun hu =>
    ⟨convertBits_pad ht hu, convertBits_noPad_eq_ok_iff ht hu, convertBits_noPad_cases ht hu⟩⟩

/-! ### The output's units and lengths -/

section
variable {f t : Nat} {u v : List Nat} (ht : 1 ≤ t)
include ht

theorem padded_stream (h : convertBits f t true u = .ok v) :
    (∀ y ∈ v, y < 2 ^ t) ∧ ∃ p, p < t ∧ bitStream t v = bitStream f u ++ List.replicate p false := by
  obtain ⟨v', p, hok, hfits, hp, hstream⟩ := convertBits_pad ht (fits_of_convertBits_ok h)
  obtain rfl := Except.ok.inj (hok.symm.trans h)
  exact ⟨hfits, p, hp, hstream⟩

theorem noPad_stream (h : convertBits f t false u = .ok v) :
    (∀ y ∈ v, y < 2 ^ t) ∧ ∃ p, p < t ∧ p < f ∧ bitStream f u = bitStream t v ++ List.replicate p false :=
  (convertBits_noPad_eq_ok_iff ht (fits_of_convertBits_ok h) v).mp h

theorem convertBits_ok_fits {pad : Bool} (h : convertBits f t pad u = .ok v) : ∀ y ∈ v, y < 2 ^ t := by
  cases pad with
  | true => exact (padded_stream ht h).1
  | false => exact (noPad_stream ht h).1

end

/-- Two streams that differ by p zeros at the end differ by p bits in length. -/
theorem units_mul_width_of_stream {f t p : Nat} {u v : List Nat}
    (h : bitStream t v = bitStream f u ++ List.replicate p false) : v.length * t = u.length * f + p := by
  have hlen := congrArg List.length h
  rwa [List.length_append, bitStream_length, bitStream_length, List.length_replicate] at hlen

/-- Settles O41, counting the bits of the two streams. -/
theorem convertBitsOutputLength : Obligations.ConvertBitsOutputLength := by
  intro f t u v _ _ ht _
  refine ⟨fun h => ?_, fun h => ?_⟩
  · obtain ⟨-, p, hp, hstream⟩ := padded_stream ht h
    have hbits := units_mul_width_of_stream hstream
    exact (Nat.div_eq_of_lt_le (by omega) (by rw [Nat.succ_mul]; omega)).symm
  · obtain ⟨-, p, hp, -, hstream⟩ := noPad_stream ht h
    have hbits := units_mul_width_of_stream hstream
    exact (Nat.div_eq_of_lt_le (by omega) (by rw [Nat.succ_mul]; omega)).symm

/-! ### The round trip -/

/-- A padded stream converts back to its units and a zero unit for each f whole bits of padding: what is left of the
padding is canonical. -/
theorem convertBits_back {f t p : Nat} {u v : List Nat} (hf : 1 ≤ f) (hu : ∀ x ∈ u, x < 2 ^ f)
    (hv : ∀ y ∈ v, y < 2 ^ t) (hp : p < t) (hstream : bitStream t v = bitStream f u ++ List.replicate p false) :
    convertBits t f false v = .ok (u ++ List.replicate (p / f) 0) := by
  rw [convertBits_noPad_eq_ok_iff hf hv]
  refine ⟨fun x hx => ?_, p % f, Nat.mod_lt p hf, Nat.lt_of_le_of_lt (Nat.mod_le p f) hp, ?_⟩
  · rcases List.mem_append.mp hx with hx | hx
    · exact hu x hx
    · rw [List.eq_of_mem_replicate hx]
      exact Nat.two_pow_pos f
  · rw [hstream, bitStream_append, bitStream_replicate_zero, List.append_assoc, List.replicate_append_replicate,
      Nat.div_add_mod']

/-- Settles O42, from the padding's length as the difference of the two streams'. -/
theorem repackRoundTrip : Obligations.RepackRoundTrip := by
  intro f t u v hf _ ht _ hu h
  obtain ⟨hv, p, hp, hstream⟩ := padded_stream ht h
  have hbits := units_mul_width_of_stream hstream
  have hback := convertBits_back hf hu hv hp hstream
  have hiff : convertBits t f false v = .ok u ↔ v.length * t < u.length * f + f := by
    calc convertBits t f false v = .ok u
      _ ↔ p / f = 0 := by simp [hback]
      _ ↔ p < f := Nat.div_eq_zero_iff_lt hf
      _ ↔ v.length * t < u.length * f + f := by omega
  refine ⟨?_, hiff, fun htf => hiff.mpr (by omega)⟩
  rwa [hbits, Nat.add_sub_cancel_left]

/-! ### CB_RUN -/

theorem exec_cbRun (f t : Nat) (pad : Bool) (s : State) : exec (.cbRun f t pad) s =
    .next (completeWith (writeOut s (settleOut (cbRunValue f t pad s))) (codeOf (settleOut (cbRunValue f t pad s)))) :=
  rfl

theorem isCbWidth_iff {w : Nat} : isCbWidth w = true ↔ 1 ≤ w ∧ w ≤ 8 := by
  simp only [isCbWidth, Bool.and_eq_true, decide_eq_true_eq]

theorem cbRunValue_of_badParam {f t : Nat} (pad : Bool) {s : State}
    (h : 256 < s.inLen.toNat ∨ f < 1 ∨ 8 < f ∨ t < 1 ∨ 8 < t) : cbRunValue f t pad s = .error .badParam := by
  unfold cbRunValue
  split
  case isTrue => rfl
  case isFalse hfits =>
    rw [inLenBad_eq_true] at hfits
    have hwidth : (!isCbWidth f || !isCbWidth t) = true := by
      rw [← Bool.not_and, Bool.not_eq_true', ← Bool.not_eq_true, Bool.and_eq_true, isCbWidth_iff, isCbWidth_iff]
      omega
    exact if_pos hwidth

theorem cbRunValue_of_fits {f t : Nat} (pad : Bool) {s : State} (hlen : s.inLen.toNat ≤ 256) (hf : isCbWidth f = true)
    (ht : isCbWidth t = true) :
    cbRunValue f t pad s = (convertBits f t pad (s.inOperand.map BitVec.toNat)).map unitBytes := by
  simp only [cbRunValue, inLenBad_eq_false.mpr hlen, hf, ht, inBytes_eq_inOperand, Bool.not_true, Bool.or_false,
    Bool.false_eq_true, if_false]

@[simp] theorem unitBytes_length (us : List Nat) : (unitBytes us).length = us.length := List.length_map _

/-- Units of at most 8 bits keep their values as bytes (20_memory.md R70). -/
theorem unitBytes_toNat {t : Nat} {us : List Nat} (ht : t ≤ 8) (h : ∀ y ∈ us, y < 2 ^ t) :
    (unitBytes us).map BitVec.toNat = us := by
  have hbyte : ∀ y ∈ us, (BitVec.ofNat 8 y).toNat = y := fun y hy =>
    Nat.mod_eq_of_lt (Nat.lt_of_lt_of_le (h y hy) (Nat.pow_le_pow_right (by decide) ht))
  calc (unitBytes us).map BitVec.toNat
    _ = us.map fun y => (BitVec.ofNat 8 y).toNat := List.map_map
    _ = us := (List.map_congr_left hbyte).trans (List.map_id us)

/-- Settles O43: CB_RUN's value, check by check, through the OUT rule. -/
theorem cbRunConvertsIn : Obligations.CbRunConvertsIn := by
  intro f t pad s
  obtain ⟨hnever, hacc, hresult, hmod, herror, hlong, hok⟩ := outCommand_cases s _ (cbRunValue f t pad s) rfl
  refine ⟨_, exec_cbRun f t pad s, hnever, hacc, hresult, hmod, fun hbad => ?_, fun hlen hf1 hf8 ht1 ht8 => ?_⟩
  · exact herror .badParam (cbRunValue_of_badParam pad hbad)
  · have hval := cbRunValue_of_fits pad hlen (isCbWidth_iff.mpr ⟨hf1, hf8⟩) (isCbWidth_iff.mpr ⟨ht1, ht8⟩)
    refine ⟨fun e he => ?_, fun v hv => ?_⟩
    · exact herror e (by rw [hval, he]; rfl)
    · have hbytes : cbRunValue f t pad s = .ok (unitBytes v) := by rw [hval, hv]; rfl
      refine ⟨fun hmany => ?_, fun hfew => ?_⟩
      · exact hlong _ hbytes (by rwa [unitBytes_length])
      · obtain ⟨hdone, hout⟩ := hok _ hbytes (by rwa [unitBytes_length])
        exact ⟨hdone, unitBytes v, hout, unitBytes_toNat ht8 (convertBits_ok_fits ht1 hv)⟩

end Sys2Proof.Machine
end

section
/-! PROOFS. SIZE_TABLE is fixed when the CAE is built: every step, and so every run, keeps it (43_packer.md R210,
92_eei_decisions.md D23). -/

namespace Sys2Proof.Machine

/-! ### Every step keeps SIZE_TABLE -/

theorem csrWrite_sizeTable (s : State) (off : Nat) (v : Word) : (csrWrite s off v).sizeTable = s.sizeTable := by
  rcases csrWrite_cases s off v with h | ⟨_, _, h⟩ | ⟨_, _, h⟩ | ⟨_, h⟩ | ⟨_, h⟩ | ⟨_, h⟩ | ⟨_, h⟩ | ⟨_, h⟩ | ⟨_, h⟩ <;>
    simp [h]

theorem regionWrite_sizeTable (s : State) (a : HostAddr) (n : Nat) (v : Word) :
    (regionWrite s a n v).sizeTable = s.sizeTable := by
  rcases regionWrite_cases s a n v with ⟨_, h⟩ | ⟨_, h⟩ | ⟨_, h⟩ <;> rw [h]
  exact csrWrite_sizeTable s _ v

theorem portAccess_sizeTable (s : State) (x : HostAccess) : (portAccess s x).sizeTable = s.sizeTable := by
  cases hrst : s.rst with
  | true => rw [portAccess_of_rst hrst]
  | false =>
    rw [portAccess_of_not_rst hrst]
    obtain ⟨r, h | ⟨h, _⟩ | ⟨a, n, v, _, _, _, h⟩⟩ := performAccess_cases s x <;> rw [h]
    · rfl
    · exact regionWrite_sizeTable s a n v

theorem engineTurn_sizeTable {s t : State} (h : engineTurn s = .next t) : t.sizeTable = s.sizeTable := by
  rcases engineTurn_cases s with ⟨_, hidle⟩ | ⟨_, _, hturn⟩
  · obtain rfl := Host.Outcome.next.inj (hidle.symm.trans h)
    rfl
  · obtain ⟨u, hu, _, hframe⟩ := completeCommand_completes s
    obtain rfl := Host.Outcome.next.inj (hu.symm.trans (hturn.symm.trans h))
    exact hframe.sizeTable

theorem step_sizeTable {s t : State} (h : step s = .next t) : t.sizeTable = s.sizeTable := by
  cases hp : s.pending with
  | nil => exact engineTurn_sizeTable ((step_of_nil hp).symm.trans h)
  | cons ev rest =>
    cases ev with
    | host x =>
      obtain rfl := Host.Outcome.next.inj ((step_of_host hp).symm.trans h)
      exact portAccess_sizeTable { s with pending := rest } x
    | engine => exact engineTurn_sizeTable (s := { s with pending := rest }) ((step_of_engine hp).symm.trans h)
    | resetAssert =>
      obtain rfl := Host.Outcome.next.inj ((step_of_resetAssert hp).symm.trans h)
      rfl
    | resetRelease =>
      obtain rfl := Host.Outcome.next.inj ((step_of_resetRelease hp).symm.trans h)
      rfl

/-! ### Runs -/

/-- A run that answers a state took a first step, and answers it from there. -/
theorem step_of_run_succ {k : Nat} {s t : State} (h : Host.Core.run Sys2Proof.core (k + 1) s = .next t) :
    ∃ u, step s = .next u ∧ Host.Core.run Sys2Proof.core k u = .next t := by
  cases hstep : step s with
  | next u => exact ⟨u, rfl, (run_succ hstep k).symm.trans h⟩
  | fault r | refused r =>
    simp only [Host.Core.run, show Sys2Proof.core.step s = _ from hstep] at h
    cases h

/-- What every step keeps, every run keeps. -/
theorem run_keeps {P : State → Prop} (hkeep : ∀ s t, P s → step s = .next t → P t) {k : Nat} {s t : State} (hs : P s)
    (hrun : Host.Core.run Sys2Proof.core k s = .next t) : P t := by
  induction k generalizing s with
  | zero =>
    obtain rfl := Host.Outcome.next.inj hrun
    exact hs
  | succ k ih =>
    obtain ⟨u, hstep, hrest⟩ := step_of_run_succ hrun
    exact ih (hkeep s u hs hstep) hrest

/-- Settles O27: every step keeps SIZE_TABLE. -/
theorem sizeTableNeverChanges : Obligations.SizeTableNeverChanges := by
  intro k s t hrun
  exact run_keeps (P := fun u => u.sizeTable = s.sizeTable) (fun _ _ hu hstep => (step_sizeTable hstep).trans hu) rfl
    hrun

end Sys2Proof.Machine
end

section
/-! PROOFS. The payload packer: Pack check by check, the version byte at the front of the packed symbols, and the
command PACK (43_packer.md R210 to R214). -/

namespace Sys2Proof.Machine

/-! ### Pack -/

/-- The units Pack repacks: the version byte, then the payload (43_packer.md R211, R212). -/
theorem versionByte_cons_toNat {ty : Nat} (c : Fin 8) (p : List Byte) (hty : ty < 8) :
    (versionByte ty c :: p).map BitVec.toNat = (ty * 8 + c.val) :: p.map BitVec.toNat := by
  rw [List.map_cons, versionByte_toNat ty c hty]

section
variable {st : Config.SizeTable} {p : List Byte} {ty : Nat}

theorem packPayload_of_invalidType (hty : 8 ≤ ty) : packPayload st p ty = .error .invalidType := if_pos hty

theorem packPayload_of_noClass (hty : ty < 8) (hclass : sizeClass st p.length = none) :
    packPayload st p ty = .error .unsupportedSize := by
  rw [packPayload, if_neg (by omega), hclass]

/-- Past its two checks Pack cannot fail: every unit it repacks is a byte (43_packer.md R212). -/
theorem packPayload_of_class {c : Fin 8} (hty : ty < 8) (hclass : sizeClass st p.length = some c) :
    ∃ v, convertBits 8 5 true ((ty * 8 + c.val) :: p.map BitVec.toNat) = .ok v ∧
      packPayload st p ty = .ok (unitSymbols v, versionByte ty c) := by
  have hbytes : ∀ x ∈ (versionByte ty c :: p).map BitVec.toNat, x < 2 ^ 8 :=
    List.forall_mem_map.mpr fun b _ => b.isLt
  obtain ⟨v, _, hv, -⟩ := convertBits_pad (t := 5) (by decide) hbytes
  refine ⟨v, versionByte_cons_toNat c p hty ▸ hv, ?_⟩
  rw [packPayload, if_neg (by omega), hclass]
  simp only [hv]

/-- Where Pack succeeds: the type and the length passed, and the symbols are the repacked units. -/
theorem packPayload_eq_ok {ds : List Symbol} {vb : Byte} (h : packPayload st p ty = .ok (ds, vb)) :
    ∃ c v, ty < 8 ∧ st[c] = some p.length ∧ vb = versionByte ty c ∧ ds = unitSymbols v ∧
      convertBits 8 5 true ((ty * 8 + c.val) :: p.map BitVec.toNat) = .ok v := by
  rcases Nat.lt_or_ge ty 8 with hty | hty
  · cases hclass : sizeClass st p.length with
    | none => cases (packPayload_of_noClass hty hclass).symm.trans h
    | some c =>
      obtain ⟨v, hv, hpack⟩ := packPayload_of_class hty hclass
      obtain ⟨rfl, rfl⟩ := Prod.mk.inj (Except.ok.inj (hpack.symm.trans h))
      exact ⟨c, v, hty, sizeClass_eq_some hclass, rfl, rfl, hv⟩
  · cases (packPayload_of_invalidType hty).symm.trans h

end

/-! ### The first two symbols -/

theorem bitStream_cons (w x : Nat) (u : List Nat) : bitStream w (x :: u) = bitsMsb w x ++ bitStream w u := rfl

/-- Numbers with the same low `w` bits are congruent. -/
theorem mod_eq_of_bitsMsb_eq {w x y : Nat} (h : bitsMsb w x = bitsMsb w y) : x % 2 ^ w = y % 2 ^ w := by
  apply Nat.eq_of_testBit_eq
  intro i
  rw [Nat.testBit_mod_two_pow, Nat.testBit_mod_two_pow]
  by_cases hi : i < w
  · rw [bitsMsb_inj w x y h i hi]
  · simp [hi]

/-- The first byte of a padded conversion to 5-bit units: its top five bits are the first unit, its low three bits the
top of the second. -/
theorem convertBits_first_byte {x : Nat} {u v : List Nat} (h : convertBits 8 5 true (x :: u) = .ok v) :
    ∃ a b rest, v = a :: b :: rest ∧ a = x / 8 ∧ b / 4 = x % 8 := by
  have hx : x < 2 ^ 8 := fits_of_convertBits_ok h x List.mem_cons_self
  obtain ⟨hfits, p, _, hstream⟩ := padded_stream (by decide) h
  have hbits := units_mul_width_of_stream hstream
  obtain ⟨a, b, rest, rfl⟩ : ∃ a b rest, v = a :: b :: rest := by
    match v with
    | [] | [_] => simp only [List.length_cons, List.length_nil] at hbits; omega
    | a :: b :: rest => exact ⟨a, b, rest, rfl⟩
  have ha : a < 2 ^ 5 := hfits a (by simp)
  have hb : b < 2 ^ 5 := hfits b (by simp)
  rw [bitStream_cons, bitStream_cons, bitStream_cons, show bitsMsb 8 x = _ from bitsMsb_add 5 3 x,
    show bitsMsb 5 b = _ from bitsMsb_add 3 2 b] at hstream
  simp only [List.append_assoc] at hstream
  obtain ⟨hfirst, hstream⟩ := List.append_inj hstream (by simp only [bitsMsb_length])
  obtain ⟨hsecond, -⟩ := List.append_inj hstream (by simp only [bitsMsb_length])
  have hfirst := mod_eq_of_bitsMsb_eq hfirst
  have hsecond := mod_eq_of_bitsMsb_eq hsecond
  rw [Nat.shiftRight_eq_div_pow] at hfirst hsecond
  exact ⟨a, b, rest, rfl, by omega, by omega⟩

/-! ### The lengths -/

@[simp] theorem unitSymbols_length (us : List Nat) : (unitSymbols us).length = us.length := List.length_map _

/-- Pack's symbols: five bits each for the version byte and the payload (42_repacker.md R181, 43_packer.md R213). -/
theorem packed_length {x : Nat} {p : List Byte} {v : List Nat}
    (h : convertBits 8 5 true (x :: p.map BitVec.toNat) = .ok v) : v.length = ((p.length + 1) * 8 + 4) / 5 := by
  have hlen := (convertBitsOutputLength 8 5 _ v (by decide) (by decide) (by decide) (by decide)).1 h
  rwa [List.length_cons, List.length_map] at hlen

/-- The payload lengths of the default SIZE_TABLE with the packed lengths of the formula (43_packer.md R213). -/
theorem defaultSizeTable_packedLengths (c : Fin 8) :
    ∃ n, Config.defaultSizeTable[c] = some n ∧
      (n, ((n + 1) * 8 + 4) / 5) ∈
        [(20, 34), (24, 40), (28, 47), (32, 53), (40, 66), (48, 79), (56, 92), (64, 104)] := by
  fin_cases c <;> exact ⟨_, rfl, by decide⟩

/-- Settles O48: the first two units of the repacked stream hold the version byte's eight bits. -/
theorem packedSymbolsBeginWithTheVersion : Obligations.PackedSymbolsBeginWithTheVersion := by
  intro st p ty ds vb hpack
  obtain ⟨c, v, hty, hclass, rfl, rfl, hv⟩ := packPayload_eq_ok hpack
  have hc := c.isLt
  have hlen : (unitSymbols v).length = ((p.length + 1) * 8 + 4) / 5 := (unitSymbols_length v).trans (packed_length hv)
  obtain ⟨a, b, rest, rfl, ha, hb⟩ := convertBits_first_byte hv
  have hb5 : b < 2 ^ 5 := convertBits_ok_fits (by decide) hv b (by simp)
  have hfirst : ((unitSymbols (a :: b :: rest)).getD 0 0).toNat = a := Nat.mod_eq_of_lt (by omega)
  have hsecond : ((unitSymbols (a :: b :: rest)).getD 1 0).toNat = b := Nat.mod_eq_of_lt hb5
  rw [hlen, hfirst, hsecond, versionByte_toNat ty c hty]
  refine ⟨rfl, by omega, by omega, ⟨c, hclass, by omega, by omega⟩, ?_⟩
  rintro rfl
  obtain ⟨n, hn, hmem⟩ := defaultSizeTable_packedLengths c
  obtain rfl : n = p.length := Option.some.inj (hn.symm.trans hclass)
  exact hmem

/-! ### PACK -/

theorem packValue_of_long (ty : Nat) {s : State} (h : 256 < s.inLen.toNat) : packValue ty s = .error .badParam :=
  if_pos (inLenBad_eq_true.mpr h)

theorem packValue_of_fits (ty : Nat) {s : State} (h : s.inLen.toNat ≤ 256) :
    packValue ty s = packPayload s.sizeTable s.inOperand ty := by
  rw [packValue, inLenBad_eq_false.mpr h, inBytes_eq_inOperand]
  rfl

theorem inOperand_length (s : State) : s.inOperand.length = s.inLen.toNat := by
  rw [← inBytes_eq_inOperand, inBytes_length]

/-- Symbols stored in bytes are the units they came from (20_memory.md R70). -/
theorem symbolBytes_toNat {v : List Nat} (h : ∀ y ∈ v, y < 2 ^ 5) :
    ((unitSymbols v).map symbolByte).map BitVec.toNat = v := by
  have hsame : BitVec.toNat ∘ symbolByte = BitVec.toNat := funext symbolByte_toNat
  rw [List.map_map, hsame, unitSymbols_toNat v h]

/-- RESULT for a version byte, field by field (10_state.md R30). -/
theorem resultWord_versionByte_toNat {ty : Nat} (c : Fin 8) (hty : ty < 8) :
    (resultWord (versionByte ty c)).toNat = (ty * 8 + c.val) + ty * 2 ^ 8 + c.val * 2 ^ 12 := by
  have all : ∀ t c : Fin 8,
      (resultWord (versionByte t c)).toNat = (t.val * 8 + c.val) + t.val * 2 ^ 8 + c.val * 2 ^ 12 := by decide
  exact all ⟨ty, hty⟩ c

/-- Settles O47: PACK's value, check by check, through the OUT rule and the RESULT rule. -/
theorem packPacksThePayload : Obligations.PackPacksThePayload := by
  intro ty s hvalid
  obtain ⟨hnever, hacc, hmod, herror, hlong, hok⟩ :=
    resultCommand_cases s s (packValue ty s) (fun ds => ds.map symbolByte) _ (.refl s) rfl
  refine ⟨_, rfl, hnever, hacc, hmod, fun hbad => ?_, fun hlen hty => ?_, fun hlen hty hnone => ?_,
    fun hlen hty c hc => ?_⟩
  · exact herror _ (packValue_of_long ty hbad) nofun
  · exact herror _ ((packValue_of_fits ty hlen).trans (packPayload_of_invalidType hty)) nofun
  · rw [← inOperand_length] at hnone
    exact herror _ ((packValue_of_fits ty hlen).trans (packPayload_of_noClass hty (sizeClass_eq_none hnone))) nofun
  · rw [← inOperand_length] at hc
    obtain ⟨v, hv, hpack⟩ := packPayload_of_class hty (sizeClass_of_entry hvalid hc)
    have hval := (packValue_of_fits ty hlen).trans hpack
    have hcount : ((unitSymbols v).map symbolByte).length = v.length := by rw [List.length_map, unitSymbols_length]
    refine ⟨v, hv, fun hmany => hlong _ _ hval (hcount ▸ hmany), fun hfew => ?_⟩
    obtain ⟨hdone, hout, hresult⟩ := hok _ _ hval (hcount ▸ hfew)
    have hbytes := symbolBytes_toNat (convertBits_ok_fits (by decide) hv)
    exact ⟨hdone, ⟨_, hout, hbytes⟩, hresult ▸ resultWord_versionByte_toNat c hty⟩

end Sys2Proof.Machine
end

section
/-! PROOFS. The checksum assembler: PolyMod of a sequence that ends in its own checksum digits, the digits on natural
numbers, and the command CHECKSUM (44_checksum.md R230 to R234). -/

namespace Sys2Proof.Machine

/-! ### The digits, fed to an empty accumulator, rebuild the value -/

/-- PolyStep's shift drops the bits its mask takes away (41_polymod.md R151). -/
theorem masked_shiftLeft (c : Acc) : (c &&& 0x07ffffffff) <<< 5 = c <<< 5 := by
  have hmask : ∀ i < 35, (0x07ffffffff : Acc).getLsbD i = true := by decide
  refine BitVec.eq_of_getLsbD_eq fun i hi => ?_
  rw [BitVec.getLsbD_shiftLeft, BitVec.getLsbD_shiftLeft, BitVec.getLsbD_and]
  by_cases h : i < 5
  · simp only [h, decide_true, Bool.not_true, Bool.and_false, Bool.false_and]
  · rw [hmask (i - 5) (by omega), Bool.and_true]

/-- An accumulator of at most 35 bits takes the symbol in from below, and no generator: PolyStep shifts. -/
theorem polyStep_of_top_zero {c : Acc} (h : ∀ i, 35 ≤ i → c.getLsbD i = false) (d : Symbol) :
    polyStep c d = c <<< 5 ^^^ d.setWidth 40 := by
  rw [polyStep_eq, masked_shiftLeft, h 35 (by decide), h 36 (by decide), h 37 (by decide), h 38 (by decide),
    h 39 (by decide)]
  simp

/-- With the digits above bit 5 (k + 1) in the accumulator, PolyStep appends digit k from below. -/
theorem polyStep_ushiftRight (m : Acc) (k : Nat) :
    polyStep (m >>> (5 * (k + 1))) (m.extractLsb' (5 * k) 5) = m >>> (5 * k) := by
  have htop : ∀ i, 35 ≤ i → (m >>> (5 * (k + 1))).getLsbD i = false := fun i hi => by
    rw [BitVec.getLsbD_ushiftRight]
    exact BitVec.getLsbD_of_ge _ _ (by omega)
  rw [polyStep_of_top_zero htop]
  ext i hi
  by_cases h : i < 5
  · simp [h]
  · simp [h, show 5 * (k + 1) + (i - 5) = 5 * k + i by omega]

/-- After j digits the accumulator holds the top 5 j bits of the value. -/
theorem polyFold_leading_digits (m : Acc) (j : Nat) (hj : j ≤ 8) :
    polyFold 0 ((List.range j).map fun i => m.extractLsb' (5 * (7 - i)) 5) = m >>> (5 * (8 - j)) := by
  induction j with
  | zero => exact (BitVec.ushiftRight_eq_zero (by decide)).symm
  | succ j ih =>
    rw [List.range_succ, List.map_append, polyFold_append, ih (by omega), show 8 - j = 7 - j + 1 by omega,
      show 8 - (j + 1) = 7 - j by omega]
    exact polyStep_ushiftRight m (7 - j)

/-- The eight digits rebuild their value in an accumulator that starts at 0. -/
theorem polyFold_zero_digitsOf (m : Acc) : polyFold 0 (digitsOf m) = m :=
  (polyFold_leading_digits m 8 (Nat.le_refl 8)).trans (BitVec.ushiftRight_zero m)

/-! ### Validity -/

/-- Symbols are XORed onto as many zero symbols: the fold splits into the fold over zeros and the symbols' own. -/
theorem polyFold_eq_zeros_xor (c : Acc) (ds : List Symbol) :
    polyFold c ds = polyFold c (List.replicate ds.length 0) ^^^ polyFold 0 ds := by
  have hxor := polyFold_xor ds (List.replicate ds.length 0) (by simp) 0 c
  rw [zipWith_xor_zeros, show 0 ^^^ c = c from BitVec.zero_xor] at hxor
  rw [hxor, BitVec.xor_comm]

/-- The digits of the value over eight zeros, put in place of the zeros, make PolyMod 0. -/
theorem polyMod_append_digitsOf (xs : List Symbol) :
    polyMod (xs ++ digitsOf (polyMod (xs ++ List.replicate 8 0))) = 0 := by
  set m := polyMod (xs ++ List.replicate 8 0) with hm
  calc polyMod (xs ++ digitsOf m)
      = polyFold (polyFold 1 xs) (List.replicate 8 0) ^^^ m ^^^ 1 := by
        rw [polyMod, polyFold_append, polyFold_eq_zeros_xor, polyFold_zero_digitsOf, digitsOf_length]
    _ = m ^^^ m := by
        rw [hm, polyMod, polyFold_append]
        ac_rfl
    _ = 0 := BitVec.xor_self

/-- Settles O50: PolyMod is linear, and the digits alone carry their value. -/
theorem checksumDigitsValidate : Obligations.ChecksumDigitsValidate :=
  fun q ds => polyMod_append_digitsOf (expandPrefix q ++ ds)

/-! ### The value and its digits on natural numbers -/

/-- Expand's symbols as numbers (44_checksum.md R230). -/
theorem expandPrefix_toNat (q : List Byte) :
    (expandPrefix q).map BitVec.toNat = q.map (fun b => b.toNat % 32) ++ [0] := by
  rw [expandPrefix, List.map_append, List.map_map]
  exact congrArg (· ++ [0]) (List.map_congr_left fun b _ => BitVec.toNat_setWidth 5 b)

/-- ChecksumDigits' value m on natural numbers (44_checksum.md R231). -/
theorem checksumValue_toNat (q : List Byte) (ds : List Symbol) :
    (checksumValue q ds).toNat =
      polyModNat (q.map (fun b => b.toNat % 32) ++ [0] ++ ds.map BitVec.toNat ++ List.replicate 8 0) := by
  rw [checksumValue, polyMod_toNat, List.map_append, List.map_append, expandPrefix_toNat, List.map_replicate]
  rfl

/-- The digits by shift are the digits by division (44_checksum.md R231). -/
theorem digitsOf_toNat (m : Acc) : (digitsOf m).map BitVec.toNat = digitsNat m.toNat := by
  rw [digitsOf, List.map_map]
  exact List.map_congr_left fun i _ => by
    rw [Function.comp_apply, BitVec.extractLsb'_toNat, Nat.shiftRight_eq_div_pow]

/-- Symbols keep their values as bytes (20_memory.md R70). -/
theorem map_symbolByte_toNat (ds : List Symbol) : (ds.map symbolByte).map BitVec.toNat = ds.map BitVec.toNat := by
  rw [List.map_map]
  exact List.map_congr_left fun d _ => symbolByte_toNat d

/-! ### CHECKSUM -/

theorem checksumCommand_of_badLength {s : State} (h : 256 < s.inLen.toNat ∨ 64 < s.prefixLen.toNat) :
    checksumCommand s = .error .badParam :=
  if_pos (by rwa [Bool.or_eq_true, inLenBad_eq_true, prefixLenBad_eq_true])

theorem checksumCommand_of_fits {s : State} (hin : s.inLen.toNat ≤ 256) (hprefix : s.prefixLen.toNat ≤ 64) :
    checksumCommand s = (readSymbols s.inOperand).map (checksumValue s.prefixOperand) := by
  rw [checksumCommand, inLenBad_eq_false.mpr hin, prefixLenBad_eq_false.mpr hprefix, inBytes_eq_inOperand,
    prefixBytes_eq_prefixOperand]
  rfl

theorem exec_checksum (s : State) : exec .checksum s =
    .next (completeWith
      (writeOut (writeMod s (valueOf (checksumCommand s)))
        (settleOut ((checksumCommand s).map fun m => (digitsOf m).map symbolByte)))
      (codeOf (settleOut ((checksumCommand s).map fun m => (digitsOf m).map symbolByte)))) := rfl

/-- CHECKSUM by its value: a failure leaves OUT zero and MOD 0, a value leaves its digits in OUT and itself in MOD. -/
theorem exec_checksum_cases {s t : State} (h : exec .checksum s = .next t) :
    (∀ e, checksumCommand s = .error e → CompletedWith t e ∧ OutHolds t [] ∧ t.mod = 0) ∧
    (∀ m, checksumCommand s = .ok m →
      CompletedWith t .ok ∧ OutHolds t ((digitsOf m).map symbolByte) ∧ t.mod = m) := by
  have ht := (Host.Outcome.next.inj ((exec_checksum s).symm.trans h)).symm
  obtain ⟨-, -, -, hmod, herror, -, hok⟩ := outCommand_cases _ t _ ht
  refine ⟨fun e hval => ?_, fun m hval => ?_⟩
  · obtain ⟨hdone, hout⟩ := herror e (by rw [hval]; rfl)
    exact ⟨hdone, hout, by rw [hmod, hval]; rfl⟩
  · obtain ⟨hdone, hout⟩ := hok ((digitsOf m).map symbolByte) (by rw [hval]; rfl) (by simp)
    exact ⟨hdone, hout, by rw [hmod, hval]; rfl⟩

/-- Settles O49: CHECKSUM's value, check by check, then its reading on natural numbers. -/
theorem checksumWritesItsDigits : Obligations.ChecksumWritesItsDigits := by
  intro s
  have hexec := exec_checksum s
  obtain ⟨herror, hok⟩ := exec_checksum_cases hexec
  refine ⟨_, hexec, exec_neverWritten hexec, exec_pmAcc_unchanged hexec rfl, exec_result_unchanged hexec rfl,
    fun hlong => ?_, fun hin hprefix hbad => ?_, fun hin hprefix hgood => ?_⟩
  · exact herror _ (checksumCommand_of_badLength hlong)
  · exact herror _ (by rw [checksumCommand_of_fits hin hprefix, readSymbols_error hbad]; rfl)
  · obtain ⟨hdone, hout, hmod⟩ := hok _ (by rw [checksumCommand_of_fits hin hprefix, readSymbols_ok hgood]; rfl)
    rw [hmod]
    refine ⟨hdone, ?_, _, hout, (map_symbolByte_toNat _).trans (digitsOf_toNat _)⟩
    rw [checksumValue_toNat, map_setWidth_toNat hgood]

end Sys2Proof.Machine
end

section
/-! PROOFS. The base32 alphabet: Unmap against Map, and the commands B32_MAP and B32_UNMAP (45_base32.md R250 to
R255). -/

namespace Sys2Proof.Machine

/-! ### Map, by the written-out codes -/

theorem alphabet_toNat : alphabet.map BitVec.toNat = alphabetCodes := by decide

theorem mapSymbol_toNat (k : Symbol) : (mapSymbol k).toNat = alphabetCodes.getD k.toNat 0 := by
  rw [← alphabet_toNat]
  exact (List.getD_map alphabet 0x00 BitVec.toNat).symm

theorem alphabet_length : alphabet.length = 2 ^ 5 := rfl

theorem symbol_lt_alphabet_length (k : Symbol) : k.toNat < alphabet.length := k.isLt

theorem mapSymbol_eq_getElem (k : Symbol) : mapSymbol k = alphabet[k.toNat]'(symbol_lt_alphabet_length k) :=
  List.getD_eq_getElem alphabet 0x00 (symbol_lt_alphabet_length k)

/-- The character of a byte that holds a symbol (20_memory.md R70). -/
theorem mapSymbol_setWidth {b : Byte} (h : b.toNat < 32) :
    mapSymbol (b.setWidth 5) = BitVec.ofNat 8 (alphabetCodes.getD b.toNat 0) := by
  have hsymbol : (b.setWidth 5 : Symbol).toNat = b.toNat := (BitVec.toNat_setWidth 5 b).trans (Nat.mod_eq_of_lt h)
  rw [alphabetCodes_getD, mapSymbol, hsymbol]

/-! ### The place of a byte in the alphabet -/

theorem placeOf_of_mem {b : Byte} {bs : List Byte} (h : b ∈ bs) (n : Nat) :
    placeOf b n bs = some (n + bs.idxOf b) := by
  induction bs generalizing n with
  | nil => cases h
  | cons x rest ih =>
    rw [placeOf]
    split
    case isTrue heq => rw [heq, List.idxOf_cons_self, Nat.add_zero]
    case isFalse hne =>
      have hrest : b ∈ rest := (List.mem_cons.mp h).resolve_left (Ne.symm hne)
      rw [ih hrest, List.idxOf_cons_ne rest hne, Nat.succ_eq_add_one, Nat.add_assoc, Nat.add_comm 1]

theorem placeOf_of_not_mem {b : Byte} {bs : List Byte} (h : b ∉ bs) (n : Nat) : placeOf b n bs = none := by
  induction bs generalizing n with
  | nil => rfl
  | cons x rest ih =>
    obtain ⟨hne, hrest⟩ := not_or.mp (mt List.mem_cons.mpr h)
    rw [placeOf, if_neg (Ne.symm hne), ih hrest]

/-- The characters are distinct, so the place of a character is its symbol. -/
theorem alphabetPlace_mapSymbol (k : Symbol) : alphabetPlace (mapSymbol k) = some k := by
  have hnodup : alphabet.Nodup := by decide
  rw [mapSymbol_eq_getElem, alphabetPlace, placeOf_of_mem (List.getElem_mem _), hnodup.idxOf_getElem, Nat.zero_add]
  simp

theorem mapSymbol_of_alphabetPlace {b : Byte} {k : Symbol} (h : alphabetPlace b = some k) : mapSymbol k = b := by
  by_cases hmem : b ∈ alphabet
  · obtain ⟨i, hi, rfl⟩ := List.getElem_of_mem hmem
    have hchar : mapSymbol (BitVec.ofNat 5 i) = alphabet[i] := by
      rw [mapSymbol, BitVec.toNat_ofNat, ← alphabet_length, Nat.mod_eq_of_lt hi, List.getD_eq_getElem _ _ hi]
    rw [← hchar, alphabetPlace_mapSymbol] at h
    rw [← hchar, Option.some.inj h]
  · rw [alphabetPlace, placeOf_of_not_mem hmem] at h
    cases h

theorem alphabetPlace_eq_some {b : Byte} {k : Symbol} : alphabetPlace b = some k ↔ mapSymbol k = b :=
  ⟨mapSymbol_of_alphabetPlace, fun h => h ▸ alphabetPlace_mapSymbol k⟩

/-! ### Unmap, by the fold bit -/

theorem isUpper_iff {b : Byte} : isUpper b = true ↔ 0x41 ≤ b.toNat ∧ b.toNat ≤ 0x5A := by
  simp only [isUpper, Bool.and_eq_true, decide_eq_true_eq]

/-- No uppercase letter is a character of the alphabet, so folding never competes with the alphabet itself. -/
theorem alphabetPlace_of_isUpper {b : Byte} (h : isUpper b = true) : alphabetPlace b = none := by
  have hlower : ∀ x ∈ alphabet, isUpper x = false := by decide
  have hmem : b ∉ alphabet := fun hb => Bool.eq_false_iff.mp (hlower b hb) h
  rw [alphabetPlace, placeOf_of_not_mem hmem]
  rfl

theorem unmapByte_mapSymbol (k : Symbol) (u : Bool) : unmapByte u (mapSymbol k) = some k := by
  rw [unmapByte, alphabetPlace_mapSymbol]

theorem unmapByte_false (b : Byte) : unmapByte false b = alphabetPlace b := by
  rw [unmapByte]
  cases alphabetPlace b <;> rfl

theorem unmapByte_true_of_isUpper {b : Byte} (h : isUpper b = true) :
    unmapByte true b = alphabetPlace (b ||| 0x20) := by
  rw [unmapByte, alphabetPlace_of_isUpper h, h]
  rfl

theorem unmapByte_true_of_not_isUpper {b : Byte} (h : isUpper b = false) : unmapByte true b = alphabetPlace b := by
  rw [unmapByte, h]
  cases alphabetPlace b <;> rfl

/-- With the fold bit an uppercase letter reads as its lowercase form, every other byte as itself (45_base32.md
R252). -/
theorem unmapByte_true_eq_some {b : Byte} {k : Symbol} : unmapByte true b = some k ↔
    mapSymbol k = b ∨ (0x41 ≤ b.toNat ∧ b.toNat ≤ 0x5A ∧ mapSymbol k = b ||| 0x20) := by
  rw [← and_assoc, ← isUpper_iff, ← alphabetPlace_eq_some, ← alphabetPlace_eq_some]
  cases hupper : isUpper b with
  | true => simp [unmapByte_true_of_isUpper hupper, alphabetPlace_of_isUpper hupper]
  | false => simp [unmapByte_true_of_not_isUpper hupper]

/-- Settles O46, from the place of a byte in the alphabet. -/
theorem unmapInvertsMap : Obligations.UnmapInvertsMap :=
  ⟨alphabet_toNat, mapSymbol_toNat, unmapByte_mapSymbol,
    fun b _ => unmapByte_false b ▸ alphabetPlace_eq_some, fun _ _ => unmapByte_true_eq_some⟩

/-! ### B32_MAP -/

theorem b32MapValue_of_long {s : State} (h : 256 < s.inLen.toNat) : b32MapValue s = .error .badParam :=
  if_pos (inLenBad_eq_true.mpr h)

theorem b32MapValue_of_fits {s : State} (h : s.inLen.toNat ≤ 256) :
    b32MapValue s = (readSymbols s.inOperand).map (fun ds => ds.map mapSymbol) := by
  rw [b32MapValue, inLenBad_eq_false.mpr h, inBytes_eq_inOperand]
  rfl

theorem exec_b32Map (s : State) : exec .b32Map s =
    .next (completeWith (writeOut s (settleOut (b32MapValue s))) (codeOf (settleOut (b32MapValue s)))) := rfl

/-- Settles O44: B32_MAP's value, check by check, through the OUT rule. -/
theorem b32MapWritesTheCharacters : Obligations.B32MapWritesTheCharacters := by
  intro s
  obtain ⟨hnever, hacc, hresult, hmod, herror, -, hok⟩ := outCommand_cases s _ (b32MapValue s) rfl
  refine ⟨_, exec_b32Map s, hnever, hacc, hresult, hmod, fun hlong => ?_, fun hfits hbad => ?_,
    fun hfits hgood => hok _ ?_ ?_⟩
  · exact herror _ (b32MapValue_of_long hlong)
  · exact herror _ (by rw [b32MapValue_of_fits hfits, readSymbols_error hbad]; rfl)
  · rw [b32MapValue_of_fits hfits, readSymbols_ok hgood, Except.map, List.map_map]
    exact congrArg Except.ok (List.map_congr_left fun b hb => mapSymbol_setWidth (hgood b hb))
  · rwa [List.length_map, inOperand_length]

/-! ### B32_UNMAP -/

theorem b32UnmapValue_of_long {s : State} (h : 256 < s.inLen.toNat) : b32UnmapValue s = .error .badParam :=
  if_pos (inLenBad_eq_true.mpr h)

theorem b32UnmapValue_of_invalid {s : State} (hlen : s.inLen.toNat ≤ 256)
    (h : ∃ b ∈ s.inOperand, unmapByte s.ucfSnap b = none) : b32UnmapValue s = .error .invalidCharacter := by
  rw [b32UnmapValue, inLenBad_eq_false.mpr hlen, inBytes_eq_inOperand, unmapAll_eq_none h]
  rfl

/-- A sequence all of whose bytes unmap, unmapped byte by byte. -/
theorem unmapAll_of_valid {u : Bool} {bs : List Byte} (h : ∀ b ∈ bs, unmapByte u b ≠ none) :
    unmapAll u bs = some (bs.map fun b => (unmapByte u b).getD 0) := by
  rw [unmapAll_eq_some, List.map_map]
  refine List.map_congr_left fun b hb => ?_
  obtain ⟨k, hk⟩ := Option.ne_none_iff_exists'.mp (h b hb)
  simp [hk]

theorem b32UnmapValue_of_valid {s : State} (hlen : s.inLen.toNat ≤ 256)
    (h : ∀ b ∈ s.inOperand, unmapByte s.ucfSnap b ≠ none) :
    b32UnmapValue s = .ok ((s.inOperand.map fun b => (unmapByte s.ucfSnap b).getD 0).map symbolByte) := by
  rw [b32UnmapValue, inLenBad_eq_false.mpr hlen, inBytes_eq_inOperand, unmapAll_of_valid h]
  rfl

theorem exec_b32Unmap (s : State) : exec .b32Unmap s =
    .next (completeWith (writeOut s (settleOut (b32UnmapValue s))) (codeOf (settleOut (b32UnmapValue s)))) := rfl

/-- Settles O45: B32_UNMAP's value, check by check, through the OUT rule. -/
theorem b32UnmapWritesTheSymbols : Obligations.B32UnmapWritesTheSymbols := by
  intro s
  obtain ⟨hnever, hacc, hresult, hmod, herror, -, hok⟩ := outCommand_cases s _ (b32UnmapValue s) rfl
  refine ⟨_, exec_b32Unmap s, hnever, hacc, hresult, hmod, fun hlong => ?_, fun hfits hbad => ?_,
    fun hfits hgood => ?_⟩
  · exact herror _ (b32UnmapValue_of_long hlong)
  · exact herror _ (b32UnmapValue_of_invalid hfits hbad)
  · obtain ⟨hdone, hout⟩ := hok _ (b32UnmapValue_of_valid hfits hgood)
      (by rwa [List.length_map, List.length_map, inOperand_length])
    exact ⟨hdone, _, hout, (map_symbolByte_toNat _).trans List.map_map⟩

end Sys2Proof.Machine
end

section
/-! PROOFS. PolyMod tells apart two sequences that differ in one symbol: PolyStep is injective in the accumulator and in
the symbol (41_polymod.md R151, 46_codec.md R279). -/

namespace Sys2Proof.Machine

/-! ### PolyStep is injective -/

/-- Among its low five bits GEN[i] has bit i alone, so with symbol 0 the step's low five bits are c0 (41_polymod.md
R150). -/
theorem polyStep_zeroSymbol_low (c : Acc) {i : Nat} (hi : i < 5) : (polyStep c 0).getLsbD i = c.getLsbD (35 + i) := by
  have hgen (p : Bool) (g : Acc) : (if p then g else 0).getLsbD i = (p && g.getLsbD i) := by cases p <;> simp
  rw [polyStep_eq, masked_shiftLeft]
  simp only [BitVec.getLsbD_xor, BitVec.getLsbD_shiftLeft, hgen]
  interval_cases i <;> simp

/-- A step that gives 0 came from 0: c0 is 0, so no generator was applied and the shift lost nothing. -/
theorem eq_zero_of_polyStep_zeroSymbol {c : Acc} (h : polyStep c 0 = 0) : c = 0 := by
  have htop : ∀ i, 35 ≤ i → c.getLsbD i = false := fun i hi => by
    by_cases hlt : i < 40
    · have hlow := polyStep_zeroSymbol_low c (i := i - 35) (by omega)
      rw [h, Nat.add_sub_cancel' hi] at hlow
      exact hlow.symm.trans BitVec.getLsbD_zero
    · exact BitVec.getLsbD_of_ge c i (by omega)
  rw [polyStep_of_top_zero htop] at h
  refine BitVec.eq_of_getLsbD_eq fun i hi => ?_
  rcases Nat.lt_or_ge i 35 with hlt | hge
  · have hbit := congrArg (fun x => x.getLsbD (i + 5)) h
    simpa [show i + 5 < 40 by omega, BitVec.getLsbD_eq_getElem, hi] using hbit
  · exact (htop i hge).trans BitVec.getLsbD_zero.symm

theorem polyStep_accumulator_injective (d : Symbol) : Function.Injective fun c => polyStep c d := by
  intro c c' (h : polyStep c d = polyStep c' d)
  have hzero : polyStep (c ^^^ c') 0 = 0 :=
    calc polyStep (c ^^^ c') 0 = polyStep (c ^^^ c') (d ^^^ d) := by rw [BitVec.xor_self]; rfl
      _ = polyStep c' d ^^^ polyStep c' d := by rw [polyStep_xor, h]
      _ = 0 := BitVec.xor_self
  exact BitVec.xor_eq_zero_iff.mp (eq_zero_of_polyStep_zeroSymbol hzero)

theorem polyStep_symbol_injective (c : Acc) : Function.Injective (polyStep c) := by
  intro d e h
  have hzero : (d ^^^ e).setWidth 40 = (0 : Acc) :=
    calc (d ^^^ e).setWidth 40 = polyStep (c ^^^ c) (d ^^^ e) := by rw [BitVec.xor_self]; exact (polyStep_zero _).symm
      _ = polyStep c e ^^^ polyStep c e := by rw [polyStep_xor, h]
      _ = 0 := BitVec.xor_self
  have hnat := congrArg BitVec.toNat hzero
  rw [BitVec.toNat_setWidth_of_le (by decide)] at hnat
  exact BitVec.xor_eq_zero_iff.mp (BitVec.eq_of_toNat_eq hnat)

theorem polyFold_accumulator_injective (ds : List Symbol) : Function.Injective fun c => polyFold c ds := by
  induction ds with
  | nil => exact fun _ _ h => h
  | cons d ds ih => exact ih.comp (polyStep_accumulator_injective d)

/-- Settles O39: the symbols before give one accumulator, the changed symbol two, and the symbols after keep them
apart. -/
theorem oneChangedSymbolChangesPolyMod : Obligations.OneChangedSymbolChangesPolyMod := by
  intro before after d e hne h
  have hfold : polyFold (polyStep (polyFold 1 before) d) after = polyFold (polyStep (polyFold 1 before) e) after := by
    rw [polyMod, polyMod, polyFold_append, polyFold_append] at h
    exact (BitVec.xor_left_inj 1).mp h
  exact hne (polyStep_symbol_injective _ (polyFold_accumulator_injective after hfold))

end Sys2Proof.Machine
end

section
/-! PROOFS. The completion that ENCODE and DECODE share, as a function of the outcome of Encode or Decode, and that
outcome as a function of the operands (46_codec.md R272, R277, R280; 40_command.md R124 to R126). -/

namespace Sys2Proof.Machine

/-! ### The completion of an outcome -/

/-- What OUT gets of an outcome, past the OVERFLOW check (40_command.md R124). -/
def CodecOutcome.settled (c : CodecOutcome) : Except ErrCode (List Byte) := settleOut (c.value.map Prod.fst)

/-- ENCODE and DECODE complete alike, each with its outcome in OUT, RESULT and MOD (46_codec.md R272, R277). -/
def codecCompletion (s : State) (c : CodecOutcome) : State :=
  completeWith (writeResult (writeOut (writeMod s c.polyValue) c.settled) (codeOf c.settled) (versionOf c.value))
    (codeOf c.settled)

theorem exec_encode (ty : Nat) (s : State) :
    exec (.encode ty) s = .next (codecCompletion s (encodeCommand ty s)) := rfl

theorem exec_decode (s : State) : exec .decode s = .next (codecCompletion s (decodeCommand s)) := rfl

section
variable (s : State) (c : CodecOutcome)

theorem codecCompletion_mod : (codecCompletion s c).mod = c.polyValue.getD 0 := rfl

theorem codecCompletion_outHolds : OutHolds (codecCompletion s c) (outBytesOf c.settled) :=
  (settled_holds (writeMod s c.polyValue) (c.value.map Prod.fst)).congr rfl rfl

theorem codecCompletion_completed : CompletedWith (codecCompletion s c) (codeOf c.settled) := completeWith_completed _ _

end

section
variable (s : State) {c : CodecOutcome}

/-- What a completion shows follows from its settled outcome. -/
theorem codecCompletion_of_settled {r : Except ErrCode (List Byte)} (h : c.settled = r) :
    CompletedWith (codecCompletion s c) (codeOf r) ∧ OutHolds (codecCompletion s c) (outBytesOf r) ∧
      (codecCompletion s c).result = if codeOf r = .ok then resultWord (versionOf c.value) else 0 :=
  h ▸ ⟨codecCompletion_completed s c, codecCompletion_outHolds s c, rfl⟩

theorem settled_of_error {e : ErrCode} (h : c.value = .error e) : c.settled = .error e := by
  rw [CodecOutcome.settled, h]
  rfl

theorem settled_of_ok {a : List Byte} {vb : Byte} (h : c.value = .ok (a, vb)) : c.settled = settleOut (.ok a) := by
  rw [CodecOutcome.settled, h]
  rfl

/-- An error leaves OUT zero and RESULT 0. -/
theorem codecCompletion_of_error {e : ErrCode} (h : c.value = .error e) :
    CompletedWith (codecCompletion s c) e ∧ OutHolds (codecCompletion s c) [] ∧ (codecCompletion s c).result = 0 := by
  obtain ⟨hdone, hout, hresult⟩ := codecCompletion_of_settled s (settled_of_error h)
  rw [h, versionOf_error, resultWord_zero, ite_self] at hresult
  exact ⟨hdone, hout, hresult⟩

/-- A string longer than OUT is OVERFLOW (40_command.md R130). -/
theorem codecCompletion_of_long {a : List Byte} {vb : Byte} (h : c.value = .ok (a, vb)) (hlong : 256 < a.length) :
    CompletedWith (codecCompletion s c) .overflow ∧ OutHolds (codecCompletion s c) [] ∧
      (codecCompletion s c).result = 0 :=
  codecCompletion_of_settled s (r := .error .overflow)
    ((settled_of_ok h).trans (settleOut_ok_of_long hlong))

theorem codecCompletion_of_fits {a : List Byte} {vb : Byte} (h : c.value = .ok (a, vb)) (hfits : a.length ≤ 256) :
    CompletedWith (codecCompletion s c) .ok ∧ OutHolds (codecCompletion s c) a ∧
      (codecCompletion s c).result = resultWord vb := by
  obtain ⟨hdone, hout, hresult⟩ :=
    codecCompletion_of_settled s ((settled_of_ok h).trans (settleOut_ok_of_fits hfits))
  rw [codeOf_ok, if_pos rfl, h, versionOf_ok] at hresult
  exact ⟨hdone, hout, hresult⟩

/-- ERR = OK comes from a string that fits OUT, if no error of the outcome is the code OK. -/
theorem codecCompletion_eq_ok (hcode : c.value ≠ .error .ok) (h : (codecCompletion s c).status.err = .ok) :
    ∃ a vb, c.value = .ok (a, vb) ∧ a.length ≤ 256 := by
  cases hval : c.value with
  | error e =>
    obtain ⟨hdone, -⟩ := codecCompletion_of_error s hval
    exact absurd (hval.trans (congrArg Except.error (hdone.err.symm.trans h))) hcode
  | ok x =>
    obtain ⟨a, vb⟩ := x
    by_contra hnot
    have hlong : 256 < a.length := Nat.lt_of_not_le fun hfits => hnot ⟨a, vb, rfl, hfits⟩
    obtain ⟨hdone, -⟩ := codecCompletion_of_long s hval hlong
    cases hdone.err.symm.trans h

end

/-- A result in OUT is what OUT[0..OUT_LEN) reads (10_state.md R33). -/
theorem OutHolds.outResult_eq {t : State} {bs : List Byte} (h : OutHolds t bs) : t.outResult = bs := by
  apply List.ext_getElem (by simp [State.outResult, h.outLen])
  intro i _ hi
  have hbyte : t.outByte i = bs[i] := (h.bytes i hi).trans (List.getD_eq_getElem bs 0 hi)
  simpa only [State.outResult, List.getElem_map, List.getElem_range] using hbyte

/-! ### The outcome, by the operands -/

theorem prefixOperand_length (s : State) : s.prefixOperand.length = s.prefixLen.toNat := by
  rw [← prefixBytes_eq_prefixOperand, prefixBytes_length]

theorem lengthBad_iff (s : State) :
    (inLenBad s || prefixLenBad s) = true ↔ 256 < s.inOperand.length ∨ 64 < s.prefixOperand.length := by
  rw [Bool.or_eq_true, inLenBad_eq_true, prefixLenBad_eq_true, inOperand_length, prefixOperand_length]

/-- ENCODE's outcome is a function of IN, PREFIX, TYPE and SIZE_TABLE (46_codec.md R280). -/
theorem encodeCommand_eq (ty : Nat) (s : State) : encodeCommand ty s =
    if 256 < s.inOperand.length ∨ 64 < s.prefixOperand.length then ⟨.error .badParam, none⟩
    else encodeAddress s.sizeTable s.prefixOperand s.inOperand ty := by
  simp only [encodeCommand, lengthBad_iff, prefixBytes_eq_prefixOperand, inBytes_eq_inOperand]

/-- DECODE's outcome is a function of IN, PREFIX, ucf_snap and SIZE_TABLE (46_codec.md R280). -/
theorem decodeCommand_eq (s : State) : decodeCommand s =
    if 256 < s.inOperand.length ∨ 64 < s.prefixOperand.length then ⟨.error .badParam, none⟩
    else decodeAddress s.sizeTable s.inOperand s.prefixOperand s.ucfSnap := by
  simp only [decodeCommand, lengthBad_iff, prefixBytes_eq_prefixOperand, inBytes_eq_inOperand]

section
variable {s : State}

theorem encodeCommand_of_badLength (ty : Nat) (h : 256 < s.inLen.toNat ∨ 64 < s.prefixLen.toNat) :
    encodeCommand ty s = ⟨.error .badParam, none⟩ := by
  rw [encodeCommand_eq, inOperand_length, prefixOperand_length, if_pos h]

theorem encodeCommand_of_fits (ty : Nat) (hin : s.inLen.toNat ≤ 256) (hprefix : s.prefixLen.toNat ≤ 64) :
    encodeCommand ty s = encodeAddress s.sizeTable s.prefixOperand s.inOperand ty := by
  rw [encodeCommand_eq, inOperand_length, prefixOperand_length, if_neg (by omega)]

theorem decodeCommand_of_badLength (h : 256 < s.inLen.toNat ∨ 64 < s.prefixLen.toNat) :
    decodeCommand s = ⟨.error .badParam, none⟩ := by
  rw [decodeCommand_eq, inOperand_length, prefixOperand_length, if_pos h]

theorem decodeCommand_of_fits (hin : s.inLen.toNat ≤ 256) (hprefix : s.prefixLen.toNat ≤ 64) :
    decodeCommand s = decodeAddress s.sizeTable s.inOperand s.prefixOperand s.ucfSnap := by
  rw [decodeCommand_eq, inOperand_length, prefixOperand_length, if_neg (by omega)]

end

/-- A command that reads both lengths and completes with OK found both in range. -/
theorem lengths_of_ok {i : Instr} {s t : State} (h : exec i s = .next t) (hin : readsIn i = true)
    (hprefix : readsPrefix i = true) (hok : t.status.err = .ok) : s.inLen.toNat ≤ 256 ∧ s.prefixLen.toNat ≤ 64 := by
  by_contra hbad
  have hlen : lengthFails i s = true := lengthFails_iff.mpr (by simp only [hin, hprefix, true_and]; omega)
  cases (exec_of_lengthFails h hlen).symm.trans hok

/-- Completions of one outcome show the same results, whatever the states they start from. -/
theorem codecCompletion_outByte (s s' : State) (c : CodecOutcome) {i : Nat} (hi : i < 256) :
    (codecCompletion s' c).outByte i = (codecCompletion s c).outByte i := by
  have hout := codecCompletion_outHolds s c
  have hout' := codecCompletion_outHolds s' c
  rcases Nat.lt_or_ge i (outBytesOf c.settled).length with hlt | hge
  · exact (hout'.bytes i hlt).trans (hout.bytes i hlt).symm
  · exact (hout'.tail i hge hi).trans (hout.tail i hge hi).symm

/-- Settles O58: equal operands give equal outcomes, and an outcome fixes what its completion shows. -/
theorem codecResultsDependOnOperandsAlone : Obligations.CodecResultsDependOnOperandsAlone := by
  intro s s' hin hprefix htable
  refine ⟨fun ty => ?_, fun hfold => ?_⟩
  · have houtcome : encodeCommand ty s' = encodeCommand ty s := by
      rw [encodeCommand_eq, encodeCommand_eq, hin, hprefix, htable]
    refine ⟨_, _, exec_encode ty s, exec_encode ty s', ?_⟩
    rw [houtcome]
    exact ⟨rfl, rfl, rfl, rfl, fun i hi => codecCompletion_outByte s s' _ hi⟩
  · have houtcome : decodeCommand s' = decodeCommand s := by
      rw [decodeCommand_eq, decodeCommand_eq, hin, hprefix, htable, hfold]
    refine ⟨_, _, exec_decode s, exec_decode s', ?_⟩
    rw [houtcome]
    exact ⟨rfl, rfl, rfl, rfl, fun i hi => codecCompletion_outByte s s' _ hi⟩

end Sys2Proof.Machine
end

section
/-! PROOFS. The address string: Encode check by check, its characters and its length, and the command ENCODE
(46_codec.md R270 to R272, R281). -/

namespace Sys2Proof.Machine

/-! ### The address string -/

/-- The string of a prefix and a payload's symbols: the prefix, ':', the symbols' and the checksum digits' characters
(46_codec.md R270). -/
def addressString (q : List Byte) (ds : List Symbol) : List Byte :=
  q ++ colon :: (ds ++ digitsOf (checksumValue q ds)).map mapSymbol

section
variable (q : List Byte) (ds : List Symbol)

theorem addressString_length : (addressString q ds).length = q.length + 1 + ds.length + 8 := by
  simp only [addressString, List.length_append, List.length_cons, List.length_map, digitsOf_length]
  omega

theorem addressString_getD_colon : (addressString q ds).getD q.length 0 = colon := by
  rw [addressString, List.getD_append_right _ _ _ _ (Nat.le_refl _), Nat.sub_self, List.getD_cons_zero]

theorem mapSymbol_mem_alphabetCodes (k : Symbol) : (mapSymbol k).toNat ∈ alphabetCodes := by
  rw [mem_alphabetCodes, mapSymbol_eq_getElem]
  exact List.getElem_mem _

/-- Behind the ':' every byte is a character of the alphabet. -/
theorem addressString_getD_mem {i : Nat} (hlow : q.length + 1 ≤ i) (hi : i < (addressString q ds).length) :
    ((addressString q ds).getD i 0).toNat ∈ alphabetCodes := by
  obtain ⟨j, rfl⟩ := Nat.exists_eq_add_of_le hlow
  rw [addressString_length] at hi
  have hj : j < ((ds ++ digitsOf (checksumValue q ds)).map mapSymbol).length := by simp; omega
  rw [addressString, List.getD_append_right _ _ _ _ (by omega), show q.length + 1 + j - q.length = j + 1 by omega,
    List.getD_cons_succ, List.getD_eq_getElem _ _ hj, List.getElem_map]
  exact mapSymbol_mem_alphabetCodes _

/-- The string by the written-out codes of the alphabet, the digits by division (45_base32.md R250, 44_checksum.md
R231). -/
theorem addressString_eq_codes : addressString q ds = q ++ [0x3A] ++
    (ds.map BitVec.toNat ++ digitsNat (checksumValue q ds).toNat).map
      (fun k => BitVec.ofNat 8 (alphabetCodes.getD k 0)) := by
  rw [← digitsOf_toNat, ← List.map_append, List.map_map, List.append_assoc]
  have hchars := List.map_congr_left (l := ds ++ digitsOf (checksumValue q ds)) (f := mapSymbol)
    fun d _ => (alphabetCodes_getD d.toNat).symm
  exact congrArg (fun cs => q ++ colon :: cs) hchars

end

/-! ### Encode -/

section
variable {st : Config.SizeTable} {p : List Byte} {ty : Nat} (q : List Byte)

/-- Encode fails as Pack does, before it computes a PolyMod value (46_codec.md R270). -/
theorem encodeAddress_of_error {e : ErrCode} (h : packPayload st p ty = .error e) :
    encodeAddress st q p ty = ⟨.error e, none⟩ := by
  rw [encodeAddress, h]

theorem encodeAddress_of_ok {ds : List Symbol} {vb : Byte} (h : packPayload st p ty = .ok (ds, vb)) :
    encodeAddress st q p ty =
      ⟨.ok (addressString q ds, vb), some (checksumValue q ds)⟩ := by
  rw [encodeAddress, h]
  simp only [addressString, List.append_assoc, List.singleton_append]

variable {q} {a : List Byte} {vb : Byte} (h : (encodeAddress st q p ty).value = .ok (a, vb))
include h

/-- Where Encode succeeds: Pack did, and the string is the prefix, ':' and the characters. -/
theorem encodeAddress_eq_ok : ∃ ds, packPayload st p ty = .ok (ds, vb) ∧ a = addressString q ds := by
  cases hpack : packPayload st p ty with
  | error e => cases (congrArg CodecOutcome.value (encodeAddress_of_error q hpack)).symm.trans h
  | ok x =>
    obtain ⟨ds, vb'⟩ := x
    have hvalue := (congrArg CodecOutcome.value (encodeAddress_of_ok q hpack)).symm.trans h
    obtain ⟨rfl, rfl⟩ := Prod.mk.inj (Except.ok.inj hvalue)
    exact ⟨ds, rfl, rfl⟩

theorem encodeAddress_length : a.length = q.length + 1 + ((p.length + 1) * 8 + 4) / 5 + 8 := by
  obtain ⟨ds, hpack, rfl⟩ := encodeAddress_eq_ok h
  obtain ⟨hlen, -⟩ := packedSymbolsBeginWithTheVersion st p ty ds vb hpack
  rw [addressString_length, hlen]

end

/-- Pack's errors are INVALID_TYPE and UNSUPPORTED_SIZE (43_packer.md R212). -/
theorem packPayload_error {st : Config.SizeTable} {p : List Byte} {ty : Nat} {e : ErrCode}
    (h : packPayload st p ty = .error e) : e = .invalidType ∨ e = .unsupportedSize := by
  rcases Nat.lt_or_ge ty 8 with hty | hty
  · cases hclass : sizeClass st p.length with
    | none => exact .inr (Except.error.inj (h.symm.trans (packPayload_of_noClass hty hclass)))
    | some c =>
      obtain ⟨v, -, hpack⟩ := packPayload_of_class hty hclass
      cases hpack.symm.trans h
  · exact .inl (Except.error.inj (h.symm.trans (packPayload_of_invalidType hty)))

/-- The longest payload of the default SIZE_TABLE has 64 bytes (43_packer.md R210). -/
theorem defaultSizeTable_le (c : Fin 8) {n : Nat} (h : Config.defaultSizeTable[c] = some n) : n ≤ 64 := by
  have all : ∀ c : Fin 8, (Config.defaultSizeTable[c]).getD 0 ≤ 64 := by decide
  simpa [h] using all c

/-- Settles O52: the prefix, ':', Pack's symbols and eight digits. -/
theorem encodedAddressLength : Obligations.EncodedAddressLength := by
  intro st q p ty a vb h
  have hlen := encodeAddress_length h
  refine ⟨hlen, fun hp => ?_, fun hp => ?_, fun hp => ?_, ?_⟩
  iterate 3 rw [hlen, hp]
  rintro rfl hq
  obtain ⟨ds, hpack, -⟩ := encodeAddress_eq_ok h
  obtain ⟨c, -, -, hclass, -⟩ := packPayload_eq_ok hpack
  have hp := defaultSizeTable_le c hclass
  omega

/-! ### ENCODE -/

/-- A successful ENCODE: both lengths are in range, Encode succeeds on the operands, and its string is in OUT. -/
theorem exec_encode_ok {ty : Nat} {s t : State} (h : exec (.encode ty) s = .next t) (hok : t.status.err = .ok) :
    ∃ a vb, (encodeAddress s.sizeTable s.prefixOperand s.inOperand ty).value = .ok (a, vb) ∧ a.length ≤ 256 ∧
      OutHolds t a ∧ t.result = resultWord vb := by
  obtain ⟨hin, hprefix⟩ := lengths_of_ok h rfl rfl hok
  obtain rfl := Host.Outcome.next.inj h
  have houtcome := encodeCommand_of_fits ty hin hprefix
  have hcode : (encodeCommand ty s).value ≠ .error .ok := by
    rw [houtcome]
    cases hpack : packPayload s.sizeTable s.inOperand ty with
    | error e =>
      rw [encodeAddress_of_error _ hpack]
      rcases packPayload_error hpack with rfl | rfl <;> nofun
    | ok x =>
      rw [encodeAddress_of_ok _ hpack]
      nofun
  obtain ⟨a, vb, hval, hfits⟩ := codecCompletion_eq_ok s hcode hok
  obtain ⟨-, hout, hresult⟩ := codecCompletion_of_fits s hval hfits
  exact ⟨a, vb, houtcome ▸ hval, hfits, hout, hresult⟩

/-- Settles O53: behind the prefix the string is ':' and characters of symbols. -/
theorem encodedPayloadStaysInTheAlphabet : Obligations.EncodedPayloadStaysInTheAlphabet := by
  intro ty s t h hok
  obtain ⟨a, vb, hval, -, hout, -⟩ := exec_encode_ok h hok
  obtain ⟨ds, -, rfl⟩ := encodeAddress_eq_ok hval
  have hq := prefixOperand_length s
  refine ⟨?_, fun i hlow hhigh => ?_⟩
  · have hbyte := hout.bytes s.prefixOperand.length (by rw [addressString_length]; omega)
    rwa [addressString_getD_colon, hq] at hbyte
  · have hlt := hout.outLen ▸ hhigh
    have hbyte : t.outByte i = _ := hout.bytes i hlt
    rw [hbyte]
    exact addressString_getD_mem _ _ (hq.symm ▸ hlow) hlt

/-- Settles O51: ENCODE's outcome, check by check, then its reading on natural numbers. -/
theorem encodeWritesTheAddress : Obligations.EncodeWritesTheAddress := by
  intro ty s hvalid
  have hexec := exec_encode ty s
  have hfailed {e : ErrCode} (hval : encodeCommand ty s = ⟨.error e, none⟩) :
      CompletedWith (codecCompletion s (encodeCommand ty s)) e ∧
        OutHolds (codecCompletion s (encodeCommand ty s)) [] ∧
        (codecCompletion s (encodeCommand ty s)).result = 0 ∧ (codecCompletion s (encodeCommand ty s)).mod = 0 := by
    obtain ⟨hdone, hout, hresult⟩ := codecCompletion_of_error s (congrArg CodecOutcome.value hval)
    exact ⟨hdone, hout, hresult, by rw [codecCompletion_mod, hval]; rfl⟩
  refine ⟨_, hexec, exec_neverWritten hexec, exec_pmAcc_unchanged hexec rfl, fun hbad => ?_, fun hin hprefix hty => ?_,
    fun hin hprefix hty hnone => ?_, fun hin hprefix hty c hc => ?_⟩
  · exact hfailed (encodeCommand_of_badLength ty hbad)
  · exact hfailed ((encodeCommand_of_fits ty hin hprefix).trans
      (encodeAddress_of_error _ (packPayload_of_invalidType hty)))
  · rw [← inOperand_length] at hnone
    exact hfailed ((encodeCommand_of_fits ty hin hprefix).trans
      (encodeAddress_of_error _ (packPayload_of_noClass hty (sizeClass_eq_none hnone))))
  · rw [← inOperand_length] at hc
    obtain ⟨v, hv, hpack⟩ := packPayload_of_class hty (sizeClass_of_entry hvalid hc)
    have hunits := unitSymbols_toNat v (convertBits_ok_fits (by decide) hv)
    have houtcome := (encodeCommand_of_fits ty hin hprefix).trans (encodeAddress_of_ok s.prefixOperand hpack)
    have hval := congrArg CodecOutcome.value houtcome
    have hlen : (addressString s.prefixOperand (unitSymbols v)).length = s.prefixLen.toNat + 1 + v.length + 8 := by
      rw [addressString_length, prefixOperand_length, unitSymbols_length]
    have hmod : (codecCompletion s (encodeCommand ty s)).mod = checksumValue s.prefixOperand (unitSymbols v) := by
      rw [codecCompletion_mod, houtcome]
      rfl
    refine ⟨v, hv, ?_, fun hlong => codecCompletion_of_long s hval (hlen ▸ hlong), fun hfits => ?_⟩
    · rw [hmod, checksumValue_toNat, hunits]
    · obtain ⟨hdone, hout, hresult⟩ := codecCompletion_of_fits s hval (hlen ▸ hfits)
      rw [addressString_eq_codes, hunits, ← hmod] at hout
      exact ⟨hdone, hout, hresult ▸ resultWord_versionByte_toNat c hty⟩

end Sys2Proof.Machine
end

section
/-! PROOFS. Decode step by step, what its success and its errors say, and the command DECODE (46_codec.md R273 to R277,
R282, R283). -/

namespace Sys2Proof.Machine

/-! ### The steps of Decode -/

section
variable {st : Config.SizeTable} {q t dq : List Byte} {u : Bool}

/-- Step 2 (46_codec.md R273). -/
theorem decodeAddress_of_badPrefix (ht : (0x3A : Byte) ∉ t) (h : q = [] ∨ ∃ b ∈ q, ¬ AsciiAlnum b) :
    decodeAddress st (q ++ 0x3A :: t) dq u = ⟨.error .invalidCharacter, none⟩ := by
  simp only [decodeAddress, resolvePrefix, splitLastColon_some q ht, checkPrefix_error h]

/-- Step 3 (46_codec.md R273). -/
theorem decodeAddress_of_badData (ht : (0x3A : Byte) ∉ t) (hq : q ≠ []) (halnum : ∀ b ∈ q, AsciiAlnum b)
    (h : ∃ b ∈ t, unmapByte u b = none) :
    decodeAddress st (q ++ 0x3A :: t) dq u = ⟨.error .invalidCharacter, none⟩ := by
  simp only [decodeAddress, resolvePrefix, splitLastColon_some q ht, checkPrefix_ok hq halnum, unmapAll_eq_none h]

/-- Without ':' and without a default prefix there is no prefix (46_codec.md R274). -/
theorem decodeAddress_of_noPrefix (ht : (0x3A : Byte) ∉ t) :
    decodeAddress st t [] u = ⟨.error .invalidCharacter, none⟩ := by
  simp only [decodeAddress, resolvePrefix, splitLastColon_none ht, List.length_nil, Nat.lt_irrefl, if_false]

/-- Without ':' the default prefix stands before the whole address (46_codec.md R274). -/
theorem decodeAddress_of_defaultPrefix (ht : (0x3A : Byte) ∉ t) (hdq : dq ≠ []) (dq' : List Byte) :
    decodeAddress st t dq u = decodeAddress st (dq ++ 0x3A :: t) dq' u := by
  simp only [decodeAddress, resolvePrefix, splitLastColon_none ht, splitLastColon_some dq ht,
    List.length_pos_iff.mpr hdq, if_true]

variable {ds : List Symbol}

/-- Step 4 (46_codec.md R273). -/
theorem decodeSymbols_of_short (h : ds.length < 9) : decodeSymbols st q ds = ⟨.error .invalidLength, none⟩ := if_pos h

/-- Step 5 (46_codec.md R273). -/
theorem decodeSymbols_of_mismatch (hlen : 9 ≤ ds.length) (h : polyMod (expandPrefix q ++ ds) ≠ 0) :
    decodeSymbols st q ds = ⟨.error .checksumMismatch, some (polyMod (expandPrefix q ++ ds))⟩ := by
  rw [decodeSymbols, if_neg (by omega)]
  exact if_pos h

/-- Past step 5 only the repack and the version byte remain (46_codec.md R273). -/
theorem decodeSymbols_of_valid (hlen : 9 ≤ ds.length) (h : polyMod (expandPrefix q ++ ds) = 0) :
    decodeSymbols st q ds = ⟨unpackSymbols st ds, some 0⟩ := by
  simp [decodeSymbols, Nat.not_lt.mpr hlen, h]

end

section
variable {st : Config.SizeTable} {ds : List Symbol}

/-- Step 6 (46_codec.md R273). -/
theorem unpackSymbols_of_error {e : ErrCode}
    (h : convertBits 5 8 false ((ds.take (ds.length - 8)).map BitVec.toNat) = .error e) :
    unpackSymbols st ds = .error .invalidLength := by
  rw [unpackSymbols, h]

theorem unpackSymbols_of_ok {us : List Nat}
    (h : convertBits 5 8 false ((ds.take (ds.length - 8)).map BitVec.toNat) = .ok us) :
    unpackSymbols st ds = splitVersion st (unitBytes us) := by
  rw [unpackSymbols, h]

variable {vb : Byte} {payload : List Byte}

/-- Step 7, bits 7 and 6 of the version byte (46_codec.md R273). -/
theorem splitVersion_of_reserved (h : 64 ≤ vb.toNat) : splitVersion st (vb :: payload) = .error .invalidType :=
  if_pos ((versionByte_reserved vb).mpr h)

/-- Step 7, the size class of the version byte (46_codec.md R273, R276). -/
theorem splitVersion_of_type (h : vb.toNat < 64) {c : Fin 8} (hc : c.val = vb.toNat % 8) :
    splitVersion st (vb :: payload) =
      if st[c] = some payload.length then .ok (payload, vb) else .error .invalidLength := by
  have hreserved : ¬ vb.extractLsb' 6 2 ≠ 0 := fun hne => absurd ((versionByte_reserved vb).mp hne) (by omega)
  have hclass : (vb.extractLsb' 0 3).toFin = c := Fin.ext ((versionByte_class vb).trans hc.symm)
  subst hclass
  rw [splitVersion, if_neg hreserved]

/-- The symbols before the checksum digits hold whole bytes and fewer than five zero bits (42_repacker.md R182). -/
theorem repacked_stream {us : List Nat}
    (h : convertBits 5 8 false ((ds.take (ds.length - 8)).map BitVec.toNat) = .ok us) :
    ∃ p < 5, (ds.length - 8) * 5 = us.length * 8 + p ∧
      bitStream 5 ((ds.take (ds.length - 8)).map BitVec.toNat) = bitStream 8 us ++ List.replicate p false := by
  obtain ⟨-, p, -, hp, hstream⟩ := noPad_stream (by decide) h
  have hbits := units_mul_width_of_stream hstream
  rw [List.length_map, List.length_take, Nat.min_eq_left (Nat.sub_le _ _)] at hbits
  exact ⟨p, hp, hbits, hstream⟩

/-- Past step 4 the repack gives a version byte: nine symbols hold one before the digits, and its five bits would be no
padding. -/
theorem repacked_ne_nil {us : List Nat} (hlen : 9 ≤ ds.length)
    (h : convertBits 5 8 false ((ds.take (ds.length - 8)).map BitVec.toNat) = .ok us) :
    ∃ vb payload, unitBytes us = vb :: payload := by
  obtain ⟨p, hp, hbits, -⟩ := repacked_stream h
  apply List.exists_cons_of_ne_nil
  rw [← List.length_pos_iff, unitBytes_length]
  omega

end

/-- Settles O55: the steps one by one; the prefix in lowercase has the low five bits of the prefix. -/
theorem decodeStepsInOrder : Obligations.DecodeStepsInOrder := by
  intro st q t dq u ht
  refine ⟨decodeAddress_of_badPrefix ht, fun hq halnum => ⟨decodeAddress_of_badData ht hq halnum, fun ds hds => ?_⟩,
    fun hdq => hdq ▸ decodeAddress_of_noPrefix ht, fun hdq => decodeAddress_of_defaultPrefix ht hdq []⟩
  rw [decodeAddress_split st q t dq u ht hq halnum ds hds]
  refine ⟨decodeSymbols_of_short, fun hlen m hm => ?_⟩
  rw [← expandPrefix_lower] at hm
  refine ⟨fun hne => ?_, fun hzero => ?_⟩
  · rw [hm] at hne ⊢
    exact decodeSymbols_of_mismatch hlen hne
  · rw [decodeSymbols_of_valid hlen (hm.symm.trans hzero)]
    refine ⟨fun e he => by rw [unpackSymbols_of_error he], fun us hus => ?_⟩
    obtain ⟨vb, payload, hbytes⟩ := repacked_ne_nil hlen hus
    rw [unpackSymbols_of_ok hus, hbytes]
    refine ⟨vb, payload, hbytes, fun hhigh => by rw [splitVersion_of_reserved hhigh], fun hlow c hc => ?_⟩
    rw [splitVersion_of_type hlow hc]
    exact ⟨fun hne => by rw [if_neg hne], fun heq => by rw [if_pos heq]⟩

/-! ### Success and errors -/

section
variable {st : Config.SizeTable}

theorem splitVersion_eq_ok {bytes p : List Byte} {vb : Byte} (h : splitVersion st bytes = .ok (p, vb)) :
    bytes = vb :: p := by
  cases bytes with
  | nil => cases h
  | cons b rest =>
    rw [splitVersion] at h
    split at h
    · cases h
    · split at h
      · obtain ⟨rfl, rfl⟩ := Prod.mk.inj (Except.ok.inj h)
        rfl
      · cases h

theorem unpackSymbols_eq_ok {ds : List Symbol} {p : List Byte} {vb : Byte} (h : unpackSymbols st ds = .ok (p, vb)) :
    p.length ≤ ds.length := by
  cases hconv : convertBits 5 8 false ((ds.take (ds.length - 8)).map BitVec.toNat) with
  | error e => cases (unpackSymbols_of_error hconv).symm.trans h
  | ok us =>
    have hbytes := congrArg List.length (splitVersion_eq_ok ((unpackSymbols_of_ok hconv).symm.trans h))
    obtain ⟨r, hr, hbits, -⟩ := repacked_stream hconv
    rw [unitBytes_length, List.length_cons] at hbytes
    omega

/-- Where steps 4 to 7 succeed, the checksum did and computed 0. -/
theorem decodeSymbols_eq_ok {q : List Byte} {ds : List Symbol} {p : List Byte} {vb : Byte}
    (h : (decodeSymbols st q ds).value = .ok (p, vb)) :
    9 ≤ ds.length ∧ polyMod (expandPrefix q ++ ds) = 0 ∧ unpackSymbols st ds = .ok (p, vb) := by
  rcases Nat.lt_or_ge ds.length 9 with hshort | hlen
  · rw [decodeSymbols_of_short hshort] at h
    cases h
  · by_cases hzero : polyMod (expandPrefix q ++ ds) = 0
    · rw [decodeSymbols_of_valid hlen hzero] at h
      exact ⟨hlen, hzero, h⟩
    · rw [decodeSymbols_of_mismatch hlen hzero] at h
      cases h

/-- Steps 1 to 3 passed: steps 4 to 7 remain. -/
theorem decodeAddress_of_symbols {a dq q d q' : List Byte} {u : Bool} {ds : List Symbol}
    (hsplit : resolvePrefix a dq = .ok (q, d)) (hcheck : checkPrefix q = .ok q') (hdata : unmapAll u d = some ds) :
    decodeAddress st a dq u = decodeSymbols st q' ds := by
  simp only [decodeAddress, hsplit, hcheck, hdata]

/-- Decode gives bytes only past its checksum (46_codec.md R283). -/
theorem decodeAddress_eq_ok {a dq p : List Byte} {u : Bool} {vb : Byte}
    (h : (decodeAddress st a dq u).value = .ok (p, vb)) :
    ∃ q d q' ds, resolvePrefix a dq = .ok (q, d) ∧ checkPrefix q = .ok q' ∧ unmapAll u d = some ds ∧ 9 ≤ ds.length ∧
      polyMod (expandPrefix q' ++ ds) = 0 ∧ unpackSymbols st ds = .ok (p, vb) := by
  cases hsplit : resolvePrefix a dq with
  | error e => simp only [decodeAddress, hsplit] at h; cases h
  | ok x =>
    obtain ⟨q, d⟩ := x
    cases hcheck : checkPrefix q with
    | error e => simp only [decodeAddress, hsplit, hcheck] at h; cases h
    | ok q' =>
      cases hdata : unmapAll u d with
      | none => simp only [decodeAddress, hsplit, hcheck, hdata] at h; cases h
      | some ds =>
        rw [decodeAddress_of_symbols hsplit hcheck hdata] at h
        exact ⟨q, d, q', ds, rfl, hcheck, hdata, decodeSymbols_eq_ok h⟩

/-- Decode that gives bytes computed the PolyMod value 0. -/
theorem decodeAddress_polyValue {a dq p : List Byte} {u : Bool} {vb : Byte}
    (h : (decodeAddress st a dq u).value = .ok (p, vb)) : decodeAddress st a dq u = ⟨.ok (p, vb), some 0⟩ := by
  obtain ⟨q, d, q', ds, hsplit, hcheck, hdata, hlen, hzero, hunpack⟩ := decodeAddress_eq_ok h
  rw [decodeAddress_of_symbols hsplit hcheck hdata, decodeSymbols_of_valid hlen hzero, hunpack]

/-- The data part is a part of the address. -/
theorem resolvePrefix_length {a dq q d : List Byte} (h : resolvePrefix a dq = .ok (q, d)) : d.length ≤ a.length := by
  rw [resolvePrefix] at h
  split at h
  case h_1 q' d' hsplit =>
    obtain ⟨rfl, rfl⟩ := Prod.mk.inj (Except.ok.inj h)
    obtain ⟨rfl, -⟩ := splitLastColon_inv hsplit
    rw [List.length_append, List.length_cons]
    omega
  case h_2 =>
    split at h
    · obtain ⟨rfl, rfl⟩ := Prod.mk.inj (Except.ok.inj h)
      exact Nat.le_refl _
    · cases h

theorem unmapAll_length {u : Bool} {d : List Byte} {ds : List Symbol} (h : unmapAll u d = some ds) :
    ds.length = d.length := by
  have hlen := congrArg List.length (unmapAll_eq_some.mp h)
  rwa [List.length_map, List.length_map, eq_comm] at hlen

/-- A decoded payload is never longer than its address, so it fits OUT (46_codec.md R277). -/
theorem decodeAddress_payload_length {a dq p : List Byte} {u : Bool} {vb : Byte}
    (h : (decodeAddress st a dq u).value = .ok (p, vb)) : p.length ≤ a.length := by
  obtain ⟨q, d, q', ds, hsplit, -, hdata, -, -, hunpack⟩ := decodeAddress_eq_ok h
  calc p.length ≤ ds.length := unpackSymbols_eq_ok hunpack
    _ = d.length := unmapAll_length hdata
    _ ≤ a.length := resolvePrefix_length hsplit

end

/-! ### The codes of Decode's errors are not OK -/

section
variable (st : Config.SizeTable)

theorem resolvePrefix_ne_errorOk (a dq : List Byte) : resolvePrefix a dq ≠ .error .ok := by
  unfold resolvePrefix
  split
  · nofun
  · split <;> nofun

theorem checkPrefix_ne_errorOk (q : List Byte) : checkPrefix q ≠ .error .ok := by
  unfold checkPrefix
  split
  · nofun
  · split <;> nofun

theorem splitVersion_ne_errorOk (bytes : List Byte) : splitVersion st bytes ≠ .error .ok := by
  cases bytes with
  | nil => nofun
  | cons vb payload =>
    rw [splitVersion]
    split
    · nofun
    · split <;> nofun

theorem unpackSymbols_ne_errorOk (ds : List Symbol) : unpackSymbols st ds ≠ .error .ok := by
  cases hconv : convertBits 5 8 false ((ds.take (ds.length - 8)).map BitVec.toNat) with
  | error e => rw [unpackSymbols_of_error hconv]; nofun
  | ok us => rw [unpackSymbols_of_ok hconv]; exact splitVersion_ne_errorOk st _

theorem decodeSymbols_ne_errorOk (q : List Byte) (ds : List Symbol) : (decodeSymbols st q ds).value ≠ .error .ok := by
  rcases Nat.lt_or_ge ds.length 9 with hshort | hlen
  · rw [decodeSymbols_of_short hshort]
    nofun
  · by_cases hzero : polyMod (expandPrefix q ++ ds) = 0
    · rw [decodeSymbols_of_valid hlen hzero]
      exact unpackSymbols_ne_errorOk st ds
    · rw [decodeSymbols_of_mismatch hlen hzero]
      nofun

theorem decodeAddress_ne_errorOk (a dq : List Byte) (u : Bool) : (decodeAddress st a dq u).value ≠ .error .ok := by
  unfold decodeAddress
  split
  case h_1 e hsplit => exact fun h => resolvePrefix_ne_errorOk a dq (hsplit.trans (congrArg _ (Except.error.inj h)))
  case h_2 q d _ =>
    split
    case h_1 e hcheck => exact fun h => checkPrefix_ne_errorOk q (hcheck.trans (congrArg _ (Except.error.inj h)))
    case h_2 q' _ =>
      split
      · nofun
      · exact decodeSymbols_ne_errorOk st q' _

end

/-! ### DECODE -/

section
variable {s t : State}

/-- Where the lengths are in range DECODE completes with what Decode answers on its operands. -/
theorem exec_decode_of_fits (hin : s.inLen.toNat ≤ 256) (hprefix : s.prefixLen.toNat ≤ 64) : exec .decode s =
    .next (codecCompletion s (decodeAddress s.sizeTable s.inOperand s.prefixOperand s.ucfSnap)) := by
  rw [exec_decode, decodeCommand_of_fits hin hprefix]

/-- A payload that Decode answers fits OUT, so DECODE completes with it: OVERFLOW cannot occur (46_codec.md R277). -/
theorem exec_decode_of_value {p : List Byte} {vb : Byte} (hin : s.inLen.toNat ≤ 256) (hprefix : s.prefixLen.toNat ≤ 64)
    (hval : (decodeAddress s.sizeTable s.inOperand s.prefixOperand s.ucfSnap).value = .ok (p, vb)) :
    ∃ t, exec .decode s = .next t ∧ CompletedWith t .ok ∧ OutHolds t p ∧ t.result = resultWord vb ∧ t.mod = 0 := by
  have hlen := decodeAddress_payload_length hval
  rw [inOperand_length] at hlen
  obtain ⟨hdone, hout, hresult⟩ := codecCompletion_of_fits s hval (hlen.trans hin)
  refine ⟨_, exec_decode_of_fits hin hprefix, hdone, hout, hresult, ?_⟩
  rw [codecCompletion_mod, decodeAddress_polyValue hval]
  rfl

/-- A successful DECODE: both lengths are in range, and Decode succeeds on the operands. -/
theorem exec_decode_ok (h : exec .decode s = .next t) (hok : t.status.err = .ok) :
    s.inLen.toNat ≤ 256 ∧ s.prefixLen.toNat ≤ 64 ∧
      ∃ p vb, (decodeAddress s.sizeTable s.inOperand s.prefixOperand s.ucfSnap).value = .ok (p, vb) := by
  obtain ⟨hin, hprefix⟩ := lengths_of_ok h rfl rfl hok
  obtain rfl := Host.Outcome.next.inj ((exec_decode_of_fits hin hprefix).symm.trans h)
  obtain ⟨p, vb, hval, -⟩ := codecCompletion_eq_ok s (decodeAddress_ne_errorOk _ _ _ _) hok
  exact ⟨hin, hprefix, p, vb, hval⟩

end

/-- Settles O54. -/
theorem decodeWritesThePayload : Obligations.DecodeWritesThePayload := by
  intro s
  have hexec := exec_decode s
  refine ⟨_, hexec, exec_neverWritten hexec, exec_pmAcc_unchanged hexec rfl, fun hbad => ?_, fun hin hprefix => ?_⟩
  · rw [decodeCommand_of_badLength hbad]
    obtain ⟨hdone, hout, hresult⟩ := codecCompletion_of_error s (c := ⟨.error .badParam, none⟩) rfl
    exact ⟨hdone, hout, hresult, rfl⟩
  · rw [decodeCommand_of_fits hin hprefix]
    refine ⟨rfl, fun e he => codecCompletion_of_error s he, fun p vb hval => ?_⟩
    obtain ⟨t, ht, hdone, hout, hresult, hmod⟩ := exec_decode_of_value hin hprefix hval
    obtain rfl := Host.Outcome.next.inj (ht.symm.trans (exec_decode_of_fits hin hprefix))
    have hreserved := decodeAddress_version s.sizeTable s.inOperand s.prefixOperand s.ucfSnap
    rw [hval, versionOf_ok] at hreserved
    exact ⟨hdone, hout, hresult, hmod, hreserved⟩

/-- Settles O60: a nonempty OUT or ERR = OK comes from a payload of Decode. -/
theorem noPayloadWithoutAValidChecksum : Obligations.NoPayloadWithoutAValidChecksum := by
  intro s t h hshown
  have hok : t.status.err = .ok := by
    by_contra hfail
    obtain ⟨bs, -, hout, hempty⟩ := exec_outHolds h rfl
    have hlen : t.outLen = 0 := BitVec.eq_of_toNat_eq (by rw [hout.outLen, hempty hfail]; rfl)
    exact hshown.elim hfail fun hne => hne hlen
  obtain ⟨hin, hprefix, p, vb, hval⟩ := exec_decode_ok h hok
  obtain ⟨t', ht', -, -, -, hmod⟩ := exec_decode_of_value hin hprefix hval
  obtain rfl := Host.Outcome.next.inj (ht'.symm.trans h)
  obtain ⟨q, d, q', ds, hsplit, hcheck, hdata, hlen, hzero, -⟩ := decodeAddress_eq_ok hval
  exact ⟨hmod, q, d, q', ds, hsplit, hcheck, hdata, hlen, hzero⟩

/-! ### Padding -/

/-- Zeros at the end of a stream are zeros in the low bits of its last unit. -/
theorem last_low_bits_of_stream {w p x : Nat} {us : List Nat} {bits : List Bool} (hp : p ≤ w)
    (h : bitStream w (us ++ [x]) = bits ++ List.replicate p false) : x % 2 ^ p = 0 := by
  have hlast : bitsMsb w x = bitsMsb (w - p) (x >>> p) ++ bitsMsb p x := by
    rw [← bitsMsb_add, Nat.sub_add_cancel hp]
  rw [bitStream_append, bitStream_singleton, hlast, ← List.append_assoc, ← bitsMsb_zero] at h
  obtain ⟨-, hlow⟩ := List.append_inj' h (by rw [bitsMsb_length, bitsMsb_length])
  exact (mod_eq_of_bitsMsb_eq hlow).trans (Nat.zero_mod _)

/-- The symbols before the checksum digits end in the symbol that holds the padding. -/
theorem payloadSymbols_eq_append {ds : List Symbol} (hlen : 9 ≤ ds.length) :
    ∃ us, (ds.take (ds.length - 8)).map BitVec.toNat = us ++ [(ds.getD (ds.length - 9) 0).toNat] := by
  refine ⟨(ds.take (ds.length - 9)).map BitVec.toNat, ?_⟩
  have hlt : ds.length - 9 < ds.length := by omega
  rw [show ds.length - 8 = ds.length - 9 + 1 by omega, List.take_succ_eq_append_getElem hlt, List.map_append,
    List.getD_eq_getElem _ _ hlt]
  rfl

/-- A repack that succeeds found canonical padding: fewer than five bits, all zero (42_repacker.md R182). -/
theorem repacked_padding {ds : List Symbol} {us : List Nat} (hlen : 9 ≤ ds.length)
    (h : convertBits 5 8 false ((ds.take (ds.length - 8)).map BitVec.toNat) = .ok us) :
    5 * (ds.length - 8) % 8 < 5 ∧ (ds.getD (ds.length - 9) 0).toNat % 2 ^ (5 * (ds.length - 8) % 8) = 0 := by
  obtain ⟨p, hp, hbits, hstream⟩ := repacked_stream h
  obtain ⟨init, hinit⟩ := payloadSymbols_eq_append hlen
  obtain rfl : 5 * (ds.length - 8) % 8 = p := by omega
  rw [hinit] at hstream
  exact ⟨hp, last_low_bits_of_stream (Nat.le_of_lt hp) hstream⟩

/-- Settles O59: the repack fails, since its success would make the padding canonical. -/
theorem nonCanonicalPaddingIsRejected : Obligations.NonCanonicalPaddingIsRejected := by
  intro s q d q' ds hin hprefix hsplit hcheck hdata hlen hzero hpadding
  have hunpack : unpackSymbols s.sizeTable ds = .error .invalidLength := by
    cases hconv : convertBits 5 8 false ((ds.take (ds.length - 8)).map BitVec.toNat) with
    | error e => exact unpackSymbols_of_error hconv
    | ok us =>
      obtain ⟨hshort, hlow⟩ := repacked_padding hlen hconv
      exact absurd hpadding (not_or.mpr ⟨Nat.not_le.mpr hshort, not_not.mpr hlow⟩)
  have houtcome : decodeAddress s.sizeTable s.inOperand s.prefixOperand s.ucfSnap =
      ⟨.error .invalidLength, some 0⟩ := by
    rw [decodeAddress_of_symbols hsplit hcheck hdata, decodeSymbols_of_valid hlen hzero, hunpack]
  have hexec := exec_decode_of_fits hin hprefix
  rw [houtcome] at hexec
  obtain ⟨hdone, hout, hresult⟩ := codecCompletion_of_error s (c := ⟨.error .invalidLength, some 0⟩) rfl
  exact ⟨_, hexec, hdone, hout, hresult, rfl⟩

end Sys2Proof.Machine
end

section
/-! PROOFS. The round trip: Decode of the string that Encode makes (46_codec.md R278). -/

namespace Sys2Proof.Machine

/-! ### Decode inverts Encode -/

/-- Bytes kept as units are the same bytes (20_memory.md R70). -/
theorem unitBytes_map_toNat (bs : List Byte) : unitBytes (bs.map BitVec.toNat) = bs := by
  have hbyte : ∀ b ∈ bs, BitVec.ofNat 8 b.toNat = b := fun b _ => by rw [BitVec.ofNat_toNat, BitVec.setWidth_eq]
  rw [unitBytes, List.map_map]
  exact (List.map_congr_left hbyte).trans (List.map_id bs)

/-- Steps 6 and 7 undo Pack, whatever eight digits stand behind its symbols (42_repacker.md R185 for 8 and 5 bits). -/
theorem unpackSymbols_packPayload {st : Config.SizeTable} {p : List Byte} {ty : Nat} {ds es : List Symbol} {vb : Byte}
    (hpack : packPayload st p ty = .ok (ds, vb)) (hes : es.length = 8) :
    unpackSymbols st (ds ++ es) = .ok (p, vb) := by
  obtain ⟨c, v, hty, hclass, rfl, rfl, hv⟩ := packPayload_eq_ok hpack
  obtain ⟨-, -, hinverse⟩ :=
    repackRoundTrip 8 5 _ v (by decide) (by decide) (by decide) (by decide) (fits_of_convertBits_ok hv) hv
  have hback : convertBits 5 8 false v = .ok ((versionByte ty c :: p).map BitVec.toNat) := by
    rw [versionByte_cons_toNat c p hty]
    exact hinverse (by decide)
  have hpayload : ((unitSymbols v ++ es).take ((unitSymbols v ++ es).length - 8)).map BitVec.toNat = v := by
    rw [List.length_append, hes, Nat.add_sub_cancel, List.take_left']
    · exact unitSymbols_toNat v (convertBits_ok_fits (by decide) hv)
    · rfl
  have hc := c.isLt
  have hvb := versionByte_toNat ty c hty
  rw [unpackSymbols_of_ok (hpayload.symm ▸ hback), unitBytes_map_toNat,
    splitVersion_of_type (by omega) (c := c) (by omega), if_pos hclass]

/-- No character of the alphabet is ':'. -/
theorem colon_not_mem_map_mapSymbol (ds : List Symbol) : (0x3A : Byte) ∉ ds.map mapSymbol := by
  rw [List.mem_map]
  rintro ⟨k, -, hk⟩
  have hmem := mapSymbol_mem_alphabetCodes k
  rw [hk] at hmem
  exact absurd hmem (by decide)

theorem map_unmapByte_map_mapSymbol (u : Bool) (ds : List Symbol) :
    (ds.map mapSymbol).map (unmapByte u) = ds.map some := by
  rw [List.map_map]
  exact List.map_congr_left fun k _ => unmapByte_mapSymbol k u

/-- Decode of Encode's string gives back the payload and the version byte (46_codec.md R278). -/
theorem decodeAddress_encodeAddress {st : Config.SizeTable} {q p a : List Byte} {ty : Nat} {vb : Byte} (hq : q ≠ [])
    (halnum : ∀ b ∈ q, AsciiAlnum b) (h : (encodeAddress st q p ty).value = .ok (a, vb)) (dq : List Byte) (u : Bool) :
    decodeAddress st a dq u = ⟨.ok (p, vb), some 0⟩ := by
  obtain ⟨ds, hpack, rfl⟩ := encodeAddress_eq_ok h
  obtain ⟨hlen, -⟩ := packedSymbolsBeginWithTheVersion st p ty ds vb hpack
  have hnine : 9 ≤ (ds ++ digitsOf (checksumValue q ds)).length := by
    rw [List.length_append, digitsOf_length, hlen]
    omega
  have hzero : polyMod (expandPrefix (q.map lowerByte) ++ (ds ++ digitsOf (checksumValue q ds))) = 0 := by
    rw [expandPrefix_lower, ← List.append_assoc]
    exact checksumDigitsValidate q ds
  calc decodeAddress st (addressString q ds) dq u
      = decodeSymbols st (q.map lowerByte) (ds ++ digitsOf (checksumValue q ds)) :=
        decodeAddress_split st q _ dq u (colon_not_mem_map_mapSymbol _) hq halnum _ (map_unmapByte_map_mapSymbol u _)
    _ = ⟨.ok (p, vb), some 0⟩ := by
        rw [decodeSymbols_of_valid hnine hzero, unpackSymbols_packPayload hpack (digitsOf_length _)]

/-! ### DECODE of ENCODE's OUT -/

/-- RESULT.TYPE of a version byte is its type (10_state.md R30, 43_packer.md R211). -/
theorem resultWord_versionByte_type {ty : Nat} (c : Fin 8) (hty : ty < 8) :
    ((resultWord (versionByte ty c)).extractLsb' 8 3).toNat = ty := by
  have all : ∀ t c : Fin 8, ((resultWord (versionByte t c)).extractLsb' 8 3).toNat = t.val := by decide
  exact all ⟨ty, hty⟩ c

/-- Settles O56: ENCODE's OUT is Encode's string, and Decode inverts it. -/
theorem decodeInvertsEncode : Obligations.DecodeInvertsEncode := by
  intro ty s t s' hpos _ halnum _ hty _ h hok htable hoperand hprefix
  obtain ⟨a, vb, hval, hfits, hout, hresult⟩ := exec_encode_ok h hok
  obtain ⟨ds, hpack, -⟩ := encodeAddress_eq_ok hval
  obtain ⟨c, v, -, -, rfl, -, -⟩ := packPayload_eq_ok hpack
  have ha : s'.inOperand = a := hoperand.trans hout.outResult_eq
  have hin : s'.inLen.toNat ≤ 256 := by rwa [← inOperand_length, ha]
  have hq : s.prefixOperand ≠ [] := List.ne_nil_of_length_pos (by rwa [prefixOperand_length])
  have hback := decodeAddress_encodeAddress hq halnum hval s'.prefixOperand s'.ucfSnap
  rw [← ha, ← htable] at hback
  obtain ⟨t', ht', hdone, hout', hresult', hmod⟩ := exec_decode_of_value hin hprefix (congrArg CodecOutcome.value hback)
  exact ⟨t', ht', hdone, hout', hresult' ▸ resultWord_versionByte_type c hty, hresult'.trans hresult.symm, hmod⟩

end Sys2Proof.Machine
end

section
/-! PROOFS. Checksum sensitivity: a valid address with one byte replaced (46_codec.md R279, 90_conflicts.md C2). -/

namespace Sys2Proof.Machine

/-! ### The parts of a valid address -/

/-- Prefix, data part and data symbols that pass steps 1 to 5 of Decode (46_codec.md R273). -/
structure ValidParts (u : Bool) (q t : List Byte) (ds : List Symbol) : Prop where
  /-- The prefix is not empty. -/
  nonempty : q ≠ []
  /-- The prefix is alphanumeric. -/
  alnum : ∀ b ∈ q, AsciiAlnum b
  /-- The ':' before the data part is the last one. -/
  noColon : (0x3A : Byte) ∉ t
  /-- The data part reads as the symbols. -/
  symbols : t.map (unmapByte u) = ds.map some
  /-- There are symbols beside the eight checksum digits. -/
  enough : 9 ≤ ds.length
  /-- The checksum is valid. -/
  checksum : polyMod (q.map (fun b => b.setWidth 5) ++ [0] ++ ds) = 0

section
variable {st : Config.SizeTable} {u : Bool} {q t : List Byte} {ds : List Symbol}

theorem decodeAddress_of_validParts (h : ValidParts u q t ds) (dq : List Byte) :
    decodeAddress st (q ++ 0x3A :: t) dq u = ⟨unpackSymbols st ds, some 0⟩ := by
  rw [decodeAddress_split st q t dq u h.noColon h.nonempty h.alnum ds h.symbols]
  exact decodeSymbols_of_valid h.enough (expandPrefix_lower q ▸ h.checksum)

/-- Parts that pass steps 1 to 4 and not step 5. -/
theorem decodeAddress_of_mismatch {dq : List Byte} (hq : q ≠ []) (halnum : ∀ b ∈ q, AsciiAlnum b)
    (ht : (0x3A : Byte) ∉ t) (hds : t.map (unmapByte u) = ds.map some) (hlen : 9 ≤ ds.length)
    (hne : polyMod (q.map (fun b => b.setWidth 5) ++ [0] ++ ds) ≠ 0) :
    (decodeAddress st (q ++ 0x3A :: t) dq u).value = .error .checksumMismatch := by
  rw [← expandPrefix_lower] at hne
  rw [decodeAddress_split st q t dq u ht hq halnum ds hds, decodeSymbols_of_mismatch hlen hne]

/-- A prefix that passes step 2 (46_codec.md R273, R274). -/
theorem checkPrefix_eq_ok {q' : List Byte} (h : checkPrefix q = .ok q') :
    q ≠ [] ∧ (∀ b ∈ q, AsciiAlnum b) ∧ q' = q.map lowerByte := by
  by_cases hbad : q = [] ∨ ∃ b ∈ q, ¬ AsciiAlnum b
  · cases (checkPrefix_error hbad).symm.trans h
  · push Not at hbad
    obtain ⟨hq, halnum⟩ := hbad
    exact ⟨hq, halnum, Except.ok.inj (h.symm.trans (checkPrefix_ok hq halnum))⟩

/-- An accepted address has valid parts. -/
theorem validParts_of_decodeAddress {dq p : List Byte} {vb : Byte} (ht : (0x3A : Byte) ∉ t)
    (h : (decodeAddress st (q ++ 0x3A :: t) dq u).value = .ok (p, vb)) :
    ∃ ds, ValidParts u q t ds ∧ unpackSymbols st ds = .ok (p, vb) := by
  obtain ⟨q₁, t₁, q', ds, hsplit, hcheck, hdata, hlen, hzero, hunpack⟩ := decodeAddress_eq_ok h
  rw [resolvePrefix, splitLastColon_some q ht] at hsplit
  obtain ⟨rfl, rfl⟩ := Prod.mk.inj (Except.ok.inj hsplit)
  obtain ⟨hq, halnum, rfl⟩ := checkPrefix_eq_ok hcheck
  rw [expandPrefix_lower] at hzero
  exact ⟨ds, ⟨hq, halnum, ht, unmapAll_eq_some.mp hdata, hlen, hzero⟩, hunpack⟩

end

/-- An address with a ':' splits at its last one. -/
theorem exists_last_colon {a : List Byte} (h : (0x3A : Byte) ∈ a) :
    ∃ q t, a = q ++ 0x3A :: t ∧ (0x3A : Byte) ∉ t := by
  obtain ⟨xs, ys, hsplit, hxs⟩ := List.eq_append_cons_of_mem (List.mem_reverse.mpr h)
  refine ⟨ys.reverse, xs.reverse, ?_, by rwa [List.mem_reverse]⟩
  rw [← List.reverse_reverse a, hsplit]
  simp

/-! ### One changed byte -/

/-- Bytes have one symbol in Expand where their low five bits agree (44_checksum.md R230). -/
theorem setWidth_symbol_eq_iff (b b' : Byte) :
    (b'.setWidth 5 : Symbol) = b.setWidth 5 ↔ b'.toNat % 32 = b.toNat % 32 := by
  rw [← BitVec.toNat_inj, BitVec.toNat_setWidth, BitVec.toNat_setWidth]

theorem colon_not_mem_append_cons {x y : List Byte} {b : Byte} :
    (0x3A : Byte) ∉ x ++ b :: y ↔ (0x3A : Byte) ∉ x ∧ b ≠ 0x3A ∧ (0x3A : Byte) ∉ y := by
  simp only [List.mem_append, List.mem_cons, not_or, ne_comm (a := b), ne_eq]

/-- One byte of the prefix is one symbol before the data symbols. -/
theorem expanded_append_cons (x y : List Byte) (b : Byte) (ds : List Symbol) :
    (x ++ b :: y).map (fun b => (b.setWidth 5 : Symbol)) ++ [0] ++ ds =
      x.map (fun b => b.setWidth 5) ++ b.setWidth 5 :: (y.map (fun b => b.setWidth 5) ++ [0] ++ ds) := by
  simp

theorem colon_not_alnum : ¬ AsciiAlnum 0x3A := by
  rw [← isAlnum_iff]
  decide

theorem unmapByte_colon (u : Bool) : unmapByte u 0x3A = none := by cases u <;> decide

section
variable {st : Config.SizeTable} {u : Bool} {b b' : Byte} {dq p : List Byte} {vb : Byte}

/-- A byte of the prefix replaced: one that is no letter or digit fails step 2, one with other low five bits changes the
expanded prefix and so the checksum, any other leaves the symbols (46_codec.md R279). -/
theorem decodeAddress_changed_prefix {x y t : List Byte} (ht : (0x3A : Byte) ∉ t)
    (h : (decodeAddress st ((x ++ b :: y) ++ 0x3A :: t) dq u).value = .ok (p, vb)) :
    (¬ AsciiAlnum b' →
      (decodeAddress st ((x ++ b' :: y) ++ 0x3A :: t) dq u).value = .error .invalidCharacter) ∧
    (AsciiAlnum b' → b'.toNat % 32 ≠ b.toNat % 32 →
      (decodeAddress st ((x ++ b' :: y) ++ 0x3A :: t) dq u).value = .error .checksumMismatch) ∧
    (AsciiAlnum b' → b'.toNat % 32 = b.toNat % 32 →
      (decodeAddress st ((x ++ b' :: y) ++ 0x3A :: t) dq u).value = .ok (p, vb)) := by
  obtain ⟨ds, hparts, hunpack⟩ := validParts_of_decodeAddress ht h
  have hq : x ++ b' :: y ≠ [] := by simp
  have halnum (hb' : AsciiAlnum b') : ∀ c ∈ x ++ b' :: y, AsciiAlnum c := fun c hc => by
    rcases List.mem_append.mp hc with hx | hy
    · exact hparts.alnum c (by simp [hx])
    · rcases List.mem_cons.mp hy with rfl | hy
      · exact hb'
      · exact hparts.alnum c (by simp [hy])
  have hchecksum := hparts.checksum
  rw [expanded_append_cons] at hchecksum
  refine ⟨fun hb' => ?_, fun hb' hne => ?_, fun hb' heq => ?_⟩
  · rw [decodeAddress_of_badPrefix ht (.inr ⟨b', by simp, hb'⟩)]
  · refine decodeAddress_of_mismatch hq (halnum hb') ht hparts.symbols hparts.enough ?_
    rw [expanded_append_cons, ← hchecksum]
    exact oneChangedSymbolChangesPolyMod _ _ _ _ (mt (setWidth_symbol_eq_iff b b').mp hne)
  · have hparts' : ValidParts u (x ++ b' :: y) t ds :=
      { hparts with
        nonempty := hq
        alnum := halnum hb'
        checksum := by rw [expanded_append_cons, (setWidth_symbol_eq_iff b b').mpr heq, hchecksum] }
    rw [decodeAddress_of_validParts hparts', hunpack]

/-- A byte of the data part replaced: one outside the alphabet fails step 3, or step 2 where it is a new last ':'; one
with another symbol changes the checksum; one with the same symbol leaves the symbols (46_codec.md R279). -/
theorem decodeAddress_changed_data {q x y : List Byte} (ht : (0x3A : Byte) ∉ x ++ b :: y)
    (h : (decodeAddress st (q ++ 0x3A :: (x ++ b :: y)) dq u).value = .ok (p, vb)) :
    (unmapByte u b' = none →
      (decodeAddress st (q ++ 0x3A :: (x ++ b' :: y)) dq u).value = .error .invalidCharacter) ∧
    (unmapByte u b' ≠ none → unmapByte u b' ≠ unmapByte u b →
      (decodeAddress st (q ++ 0x3A :: (x ++ b' :: y)) dq u).value = .error .checksumMismatch) ∧
    (unmapByte u b' = unmapByte u b →
      (decodeAddress st (q ++ 0x3A :: (x ++ b' :: y)) dq u).value = .ok (p, vb)) := by
  obtain ⟨ds, hparts, hunpack⟩ := validParts_of_decodeAddress ht h
  obtain ⟨hx, -, hy⟩ := colon_not_mem_append_cons.mp ht
  have hsymbols := hparts.symbols
  rw [List.map_append, List.map_cons, eq_comm] at hsymbols
  obtain ⟨dx, dr, rfl, hdx, hdr⟩ := List.map_eq_append_iff.mp hsymbols
  obtain ⟨d, dy, rfl, hd, hdy⟩ := List.map_eq_cons_iff.mp hdr
  have hlen := hparts.enough
  simp only [List.length_append, List.length_cons] at hlen
  have hread {e : Symbol} (he : unmapByte u b' = some e) :
      (x ++ b' :: y).map (unmapByte u) = (dx ++ e :: dy).map some := by
    simp only [List.map_append, List.map_cons, hdx, hdy, he]
  have hcolon {e : Symbol} (he : unmapByte u b' = some e) : (0x3A : Byte) ∉ x ++ b' :: y := by
    refine colon_not_mem_append_cons.mpr ⟨hx, fun heq => ?_, hy⟩
    rw [heq, unmapByte_colon] at he
    cases he
  refine ⟨fun hnone => ?_, fun hsome hne => ?_, fun heq => ?_⟩
  · by_cases hb' : b' = 0x3A
    · have hsplit : q ++ 0x3A :: (x ++ b' :: y) = (q ++ 0x3A :: x) ++ 0x3A :: y := by simp [hb']
      rw [hsplit, decodeAddress_of_badPrefix hy (.inr ⟨0x3A, by simp, colon_not_alnum⟩)]
    · rw [decodeAddress_of_badData (colon_not_mem_append_cons.mpr ⟨hx, hb', hy⟩) hparts.nonempty hparts.alnum
        ⟨b', by simp, hnone⟩]
  · obtain ⟨e, he⟩ := Option.ne_none_iff_exists'.mp hsome
    have hde : e ≠ d := fun hed => hne (by rw [he, ← hd, hed])
    refine decodeAddress_of_mismatch hparts.nonempty hparts.alnum (hcolon he) (hread he) (by simpa using hlen) ?_
    rw [← hparts.checksum, ← List.append_assoc, ← List.append_assoc]
    exact oneChangedSymbolChangesPolyMod _ _ _ _ hde
  · have he := heq.trans hd.symm
    have hparts' : ValidParts u q (x ++ b' :: y) (dx ++ d :: dy) :=
      { hparts with noColon := hcolon he, symbols := hread he }
    rw [decodeAddress_of_validParts hparts', hunpack]

/-- The same for a byte behind the last ':', and for one of an address without ':': Decode reads it behind its default
PREFIX, and there a new ':' is left out (log 29). -/
theorem decodeAddress_changed_behind_colon {x y : List Byte} (hy : (0x3A : Byte) ∉ y) (hb : b ≠ 0x3A)
    (hx : (0x3A : Byte) ∈ x ∨ b' ≠ 0x3A) (h : (decodeAddress st (x ++ b :: y) dq u).value = .ok (p, vb)) :
    (unmapByte u b' = none → (decodeAddress st (x ++ b' :: y) dq u).value = .error .invalidCharacter) ∧
    (unmapByte u b' ≠ none → unmapByte u b' ≠ unmapByte u b →
      (decodeAddress st (x ++ b' :: y) dq u).value = .error .checksumMismatch) ∧
    (unmapByte u b' = unmapByte u b → (decodeAddress st (x ++ b' :: y) dq u).value = .ok (p, vb)) := by
  by_cases hcolon : (0x3A : Byte) ∈ x
  · obtain ⟨x₁, x₂, rfl, hx₂⟩ := exists_last_colon hcolon
    have hsplit (c : Byte) : (x₁ ++ 0x3A :: x₂) ++ c :: y = x₁ ++ 0x3A :: (x₂ ++ c :: y) := by simp
    rw [hsplit] at h ⊢
    exact decodeAddress_changed_data (colon_not_mem_append_cons.mpr ⟨hx₂, hb, hy⟩) h
  · have hold : (0x3A : Byte) ∉ x ++ b :: y := colon_not_mem_append_cons.mpr ⟨hcolon, hb, hy⟩
    have hnew : (0x3A : Byte) ∉ x ++ b' :: y := colon_not_mem_append_cons.mpr ⟨hcolon, hx.resolve_left hcolon, hy⟩
    have hdq : dq ≠ [] := by
      rintro rfl
      rw [decodeAddress_of_noPrefix hold] at h
      cases h
    rw [decodeAddress_of_defaultPrefix hold hdq dq] at h
    rw [decodeAddress_of_defaultPrefix hnew hdq dq]
    exact decodeAddress_changed_data hold h

end

/-! ### DECODE of the changed address -/

/-- DECODE of a second address of the same length, beside a successful one: its results are fixed by what Decode answers
on it. -/
theorem exec_decode_beside {s t s' : State} {p : List Byte} {vb : Byte} (h : exec .decode s = .next t)
    (hin : s.inLen.toNat ≤ 256) (hprefix : s.prefixLen.toNat ≤ 64)
    (hval : (decodeAddress s.sizeTable s.inOperand s.prefixOperand s.ucfSnap).value = .ok (p, vb))
    (hlen : s'.inOperand.length = s.inOperand.length) (hdq : s'.prefixOperand = s.prefixOperand)
    (hfold : s'.ucfSnap = s.ucfSnap) (htable : s'.sizeTable = s.sizeTable) :
    ∃ t', exec .decode s' = .next t' ∧
      (∀ e, (decodeAddress s.sizeTable s'.inOperand s.prefixOperand s.ucfSnap).value = .error e →
        CompletedWith t' e ∧ OutHolds t' []) ∧
      ((decodeAddress s.sizeTable s'.inOperand s.prefixOperand s.ucfSnap).value = .ok (p, vb) →
        CompletedWith t' .ok ∧ t'.outResult = t.outResult ∧ t'.result = t.result) := by
  have hin' : s'.inLen.toNat ≤ 256 := by rwa [← inOperand_length, hlen, inOperand_length]
  have hprefix' : s'.prefixLen.toNat ≤ 64 := by rwa [← prefixOperand_length, hdq, prefixOperand_length]
  have hexec' := exec_decode_of_fits hin' hprefix'
  rw [htable, hdq, hfold] at hexec'
  refine ⟨_, hexec', fun e he => ?_, fun hval' => ?_⟩
  · obtain ⟨hdone, hout, -⟩ := codecCompletion_of_error s' he
    exact ⟨hdone, hout⟩
  · have hfits : p.length ≤ 256 := (decodeAddress_payload_length hval).trans (by rwa [inOperand_length])
    obtain ⟨hdone', hout', hresult'⟩ := codecCompletion_of_fits s' hval' hfits
    obtain ⟨u, hu, -, hout, hresult, -⟩ := exec_decode_of_value hin hprefix hval
    obtain rfl := Host.Outcome.next.inj (hu.symm.trans h)
    exact ⟨hdone', hout'.outResult_eq.trans hout.outResult_eq.symm, hresult'.trans hresult.symm⟩

/-- Settles O57: the changed byte stands in the prefix, in the data part behind a ':', or in an address without one,
which Decode reads behind its default prefix. -/
theorem oneChangedByteNeverDecodesToOtherData : Obligations.OneChangedByteNeverDecodesToOtherData := by
  intro s t s' x y b b' h hok ha ha' _ hdq hfold htable
  obtain ⟨hin, hprefix, p, vb, hval⟩ := exec_decode_ok h hok
  obtain ⟨t', hexec', herror, hsame⟩ :=
    exec_decode_beside h hin hprefix hval (by simp [ha, ha']) hdq hfold htable
  rw [ha] at hval
  rw [ha'] at herror hsame
  refine ⟨fun hcolon => ?_, fun hcolon hb hx => ?_⟩
  · obtain ⟨y₁, y₂, rfl, hy₂⟩ := exists_last_colon hcolon
    have hsplit (c : Byte) : x ++ c :: (y₁ ++ 0x3A :: y₂) = (x ++ c :: y₁) ++ 0x3A :: y₂ := by simp
    rw [hsplit] at hval herror hsame
    obtain ⟨hinvalid, hother, hkept⟩ := decodeAddress_changed_prefix (b' := b') hy₂ hval
    exact ⟨t', hexec', fun hb' => herror _ (hinvalid hb'), fun hb' hne => herror _ (hother hb' hne),
      fun hb' heq => hsame (hkept hb' heq)⟩
  · obtain ⟨hinvalid, hother, hkept⟩ := decodeAddress_changed_behind_colon hcolon hb hx hval
    exact ⟨t', hexec', fun hnone => herror _ (hinvalid hnone), fun hsome hne => herror _ (hother hsome hne),
      fun heq => hsame (hkept heq)⟩

end Sys2Proof.Machine
end

section
/-! PROOFS. No step faults: the CAE has no trap (60_exceptions.md R315). -/

namespace Sys2Proof.Machine

/-- The engine's turn answers a next state: the state it found, or the completion's. -/
theorem engineTurn_answers (s : State) : ∃ t, engineTurn s = .next t := by
  rcases engineTurn_cases s with ⟨_, hidle⟩ | ⟨_, _, hturn⟩
  · exact ⟨s, hidle⟩
  · obtain ⟨t, ht, -⟩ := completeCommand_completes s
    exact ⟨t, hturn.trans ht⟩

/-- Settles O9: by the head of the schedule; only an engine's turn could answer anything but a next state. -/
theorem everyStepAnswersNext : Obligations.EveryStepAnswersNext := by
  intro s
  cases hp : s.pending with
  | nil => exact step_of_nil hp ▸ engineTurn_answers s
  | cons ev rest =>
    cases ev with
    | host x => exact ⟨_, step_of_host hp⟩
    | engine => exact step_of_engine hp ▸ engineTurn_answers { s with pending := rest }
    | resetAssert => exact ⟨_, step_of_resetAssert hp⟩
    | resetRelease => exact ⟨_, step_of_resetRelease hp⟩

end Sys2Proof.Machine
end

section
/-! PROOFS. The codes each command completes with (60_exceptions.md R312): the errors of the functions a command calls,
then the command. -/

namespace Sys2Proof.Machine

/-! ### The errors of ConvertBits, Pack and Decode -/

/-- ConvertBits fails SYMBOL_RANGE or PADDING (42_repacker.md R182, R183). -/
theorem convertBits_error_code {f t : Nat} {pad : Bool} {u : List Nat} {e : ErrCode} (ht : 1 ≤ t)
    (h : convertBits f t pad u = .error e) : e = .symbolRange ∨ e = .padding := by
  by_cases hwide : ∃ x ∈ u, 2 ^ f ≤ x
  · exact .inl (Except.error.inj (h.symm.trans (convertBits_of_wide t hwide pad)))
  · have hfits : ∀ x ∈ u, x < 2 ^ f := by simpa using hwide
    cases pad with
    | true =>
      obtain ⟨v, _, hv, -⟩ := convertBits_pad ht hfits
      cases hv.symm.trans h
    | false =>
      rcases convertBits_noPad_cases ht hfits with ⟨v, hv⟩ | hpadding
      · cases hv.symm.trans h
      · exact .inr (Except.error.inj (h.symm.trans hpadding))

/-- PACK's errors before the OVERFLOW check (43_packer.md R214). -/
theorem packValue_error_code {ty : Nat} {s : State} {e : ErrCode} (h : packValue ty s = .error e) :
    e = .badParam ∨ e = .invalidType ∨ e = .unsupportedSize := by
  rcases Nat.lt_or_ge 256 s.inLen.toNat with hlong | hfits
  · exact .inl (Except.error.inj (h.symm.trans (packValue_of_long ty hlong)))
  · exact .inr (packPayload_error ((packValue_of_fits ty hfits).symm.trans h))

/-- Encode fails as Pack does (46_codec.md R270). -/
theorem packPayload_of_encodeAddress_error {st : Config.SizeTable} {q p : List Byte} {ty : Nat} {e : ErrCode}
    (h : (encodeAddress st q p ty).value = .error e) : packPayload st p ty = .error e := by
  cases hpack : packPayload st p ty with
  | error e' =>
    rw [encodeAddress_of_error q hpack] at h
    exact congrArg Except.error (Except.error.inj h)
  | ok x =>
    rw [encodeAddress_of_ok q hpack] at h
    cases h

/-- ENCODE's errors before the OVERFLOW check (46_codec.md R272). -/
theorem encodeCommand_error_code {ty : Nat} {s : State} {e : ErrCode} (h : (encodeCommand ty s).value = .error e) :
    e = .badParam ∨ e = .invalidType ∨ e = .unsupportedSize := by
  by_cases hbad : 256 < s.inLen.toNat ∨ 64 < s.prefixLen.toNat
  · rw [encodeCommand_of_badLength ty hbad] at h
    exact .inl (Except.error.inj h).symm
  · rw [encodeCommand_of_fits ty (by omega) (by omega)] at h
    exact .inr (packPayload_error (packPayload_of_encodeAddress_error h))

/-- Step 1 of Decode (46_codec.md R273, R274). -/
theorem resolvePrefix_error_code {a dq : List Byte} {e : ErrCode} (h : resolvePrefix a dq = .error e) :
    e = .invalidCharacter := by
  unfold resolvePrefix at h
  split at h
  · cases h
  · split at h
    · cases h
    · exact (Except.error.inj h).symm

/-- Step 2 of Decode (46_codec.md R273). -/
theorem checkPrefix_error_code {q : List Byte} {e : ErrCode} (h : checkPrefix q = .error e) : e = .invalidCharacter := by
  by_cases hbad : q = [] ∨ ∃ b ∈ q, ¬ AsciiAlnum b
  · exact Except.error.inj (h.symm.trans (checkPrefix_error hbad))
  · push Not at hbad
    obtain ⟨hq, halnum⟩ := hbad
    cases (checkPrefix_ok hq halnum).symm.trans h

section
variable {st : Config.SizeTable} {e : ErrCode}

/-- Step 7 of Decode (46_codec.md R273). -/
theorem splitVersion_error_code {bytes : List Byte} (h : splitVersion st bytes = .error e) :
    e = .invalidLength ∨ e = .invalidType := by
  cases bytes with
  | nil => exact .inl (Except.error.inj h).symm
  | cons vb payload =>
    rw [splitVersion] at h
    split at h
    · exact .inr (Except.error.inj h).symm
    · split at h
      · cases h
      · exact .inl (Except.error.inj h).symm

/-- Steps 6 and 7 of Decode: a failed repack is INVALID_LENGTH (46_codec.md R273). -/
theorem unpackSymbols_error_code {ds : List Symbol} (h : unpackSymbols st ds = .error e) :
    e = .invalidLength ∨ e = .invalidType := by
  cases hconv : convertBits 5 8 false ((ds.take (ds.length - 8)).map BitVec.toNat) with
  | error e' => exact .inl (Except.error.inj (h.symm.trans (unpackSymbols_of_error hconv)))
  | ok us => exact splitVersion_error_code ((unpackSymbols_of_ok hconv).symm.trans h)

/-- Steps 4 to 7 of Decode (46_codec.md R273). -/
theorem decodeSymbols_error_code {q : List Byte} {ds : List Symbol} (h : (decodeSymbols st q ds).value = .error e) :
    e = .checksumMismatch ∨ e = .invalidLength ∨ e = .invalidType := by
  rcases Nat.lt_or_ge ds.length 9 with hshort | hlen
  · rw [decodeSymbols_of_short hshort] at h
    exact .inr (.inl (Except.error.inj h).symm)
  · by_cases hzero : polyMod (expandPrefix q ++ ds) = 0
    · rw [decodeSymbols_of_valid hlen hzero] at h
      exact .inr (unpackSymbols_error_code h)
    · rw [decodeSymbols_of_mismatch hlen hzero] at h
      exact .inl (Except.error.inj h).symm

/-- Decode's errors: steps 1 to 3 fail INVALID_CHARACTER, the later steps as above (46_codec.md R273). -/
theorem decodeAddress_error_code {a dq : List Byte} {u : Bool} (h : (decodeAddress st a dq u).value = .error e) :
    e = .invalidCharacter ∨ e = .checksumMismatch ∨ e = .invalidLength ∨ e = .invalidType := by
  unfold decodeAddress at h
  split at h
  case h_1 e' hsplit => exact .inl (Except.error.inj h ▸ resolvePrefix_error_code hsplit)
  case h_2 q d _ =>
    split at h
    case h_1 e' hcheck => exact .inl (Except.error.inj h ▸ checkPrefix_error_code hcheck)
    case h_2 q' _ =>
      split at h
      · exact .inl (Except.error.inj h).symm
      · exact .inr (decodeSymbols_error_code h)

end

/-! ### The codes of the commands -/

/-- Past the OVERFLOW check a value's code is OK, OVERFLOW or the value's own error (40_command.md R122, R130). -/
theorem codeOf_settleOut_map_cases {α : Type} (p : Except ErrCode α) (f : α → List Byte) :
    codeOf (settleOut (p.map f)) = .ok ∨ codeOf (settleOut (p.map f)) = .overflow ∨
      p = .error (codeOf (settleOut (p.map f))) := by
  cases p with
  | error e => exact .inr (.inr rfl)
  | ok x =>
    rcases Nat.lt_or_ge 256 (f x).length with hlong | hfits
    · exact .inr (.inl (congrArg codeOf (settleOut_ok_of_long hlong)))
    · exact .inl (congrArg codeOf (settleOut_ok_of_fits hfits))

section
variable {s t : State}

/-- The codes of a command that checks its lengths (`bad`: one is out of range) and then reads IN as symbols
(40_command.md R123, 20_memory.md R70). -/
theorem code_of_symbolInput {bad : Prop} (hbad : bad → CompletedWith t .badParam)
    (hwide : ¬ bad → (∃ b ∈ s.inOperand, 32 ≤ b.toNat) → CompletedWith t .symbolRange)
    (hgood : ¬ bad → (∀ b ∈ s.inOperand, b.toNat < 32) → CompletedWith t .ok) :
    t.status.err ∈ [ErrCode.ok, .symbolRange, .badParam] := by
  by_cases hlen : bad
  · simp [(hbad hlen).err]
  · rcases readSymbols_cases s.inOperand with ⟨hsym, _⟩ | ⟨hout, _⟩
    · simp [(hgood hlen hsym).err]
    · simp [(hwide hlen hout).err]

theorem exec_pmRun_code (h : exec .pmRun s = .next t) : t.status.err ∈ possibleCodes .pmRun := by
  obtain ⟨t', ht', -, -, -, -, hlong, hwide, hgood⟩ := pmRunStepsOverInAllOrNothing s
  obtain rfl := Host.Outcome.next.inj (ht'.symm.trans h)
  exact code_of_symbolInput (fun hbad => (hlong hbad).1) (fun hlen hout => (hwide (Nat.le_of_not_lt hlen) hout).1)
    fun hlen hsym => (hgood (Nat.le_of_not_lt hlen) hsym).1

theorem exec_cbRun_code {f g : Nat} {pad : Bool} (h : exec (.cbRun f g pad) s = .next t) :
    t.status.err ∈ possibleCodes (.cbRun f g pad) := by
  obtain ⟨t', ht', -, -, -, -, hbad, hconverts⟩ := cbRunConvertsIn f g pad s
  obtain rfl := Host.Outcome.next.inj (ht'.symm.trans h)
  by_cases hparam : 256 < s.inLen.toNat ∨ f < 1 ∨ 8 < f ∨ g < 1 ∨ 8 < g
  · simp [possibleCodes, (hbad hparam).1.err]
  · obtain ⟨herror, hok⟩ := hconverts (by omega) (by omega) (by omega) (by omega) (by omega)
    cases hconv : convertBits f g pad (s.inOperand.map BitVec.toNat) with
    | error e =>
      rw [(herror e hconv).1.err]
      rcases convertBits_error_code (by omega) hconv with rfl | rfl <;> simp [possibleCodes]
    | ok v =>
      obtain ⟨hlong, hfits⟩ := hok v hconv
      rcases Nat.lt_or_ge 256 v.length with hlen | hlen
      · simp [possibleCodes, (hlong hlen).1.err]
      · simp [possibleCodes, (hfits hlen).1.err]

theorem exec_b32Map_code (h : exec .b32Map s = .next t) : t.status.err ∈ possibleCodes .b32Map := by
  obtain ⟨t', ht', -, -, -, -, hlong, hwide, hgood⟩ := b32MapWritesTheCharacters s
  obtain rfl := Host.Outcome.next.inj (ht'.symm.trans h)
  exact code_of_symbolInput (fun hbad => (hlong hbad).1) (fun hlen hout => (hwide (Nat.le_of_not_lt hlen) hout).1)
    fun hlen hsym => (hgood (Nat.le_of_not_lt hlen) hsym).1

theorem exec_b32Unmap_code (h : exec .b32Unmap s = .next t) : t.status.err ∈ possibleCodes .b32Unmap := by
  obtain ⟨t', ht', -, -, -, -, hlong, hinvalid, hgood⟩ := b32UnmapWritesTheSymbols s
  obtain rfl := Host.Outcome.next.inj (ht'.symm.trans h)
  rcases Nat.lt_or_ge 256 s.inLen.toNat with hlen | hlen
  · simp [possibleCodes, (hlong hlen).1.err]
  · by_cases hbad : ∃ b ∈ s.inOperand, unmapByte s.ucfSnap b = none
    · simp [possibleCodes, (hinvalid hlen hbad).1.err]
    · simp [possibleCodes, (hgood hlen fun b hb hnone => hbad ⟨b, hb, hnone⟩).1.err]

theorem exec_pack_code {ty : Nat} (h : exec (.pack ty) s = .next t) : t.status.err ∈ possibleCodes (.pack ty) := by
  obtain rfl := Host.Outcome.next.inj h
  rcases codeOf_settleOut_map_cases (packValue ty s) (fun x => x.1.map symbolByte) with hok | hlong | herror
  · simp [possibleCodes, hok]
  · simp [possibleCodes, hlong]
  · rcases packValue_error_code herror with hcode | hcode | hcode <;> simp [possibleCodes, hcode]

theorem exec_checksum_code (h : exec .checksum s = .next t) : t.status.err ∈ possibleCodes .checksum := by
  obtain ⟨t', ht', -, -, -, hbad, hwide, hgood⟩ := checksumWritesItsDigits s
  obtain rfl := Host.Outcome.next.inj (ht'.symm.trans h)
  exact code_of_symbolInput (fun hlen => (hbad hlen).1) (fun hlen hout => (hwide (by omega) (by omega) hout).1)
    fun hlen hsym => (hgood (by omega) (by omega) hsym).1

theorem exec_encode_code {ty : Nat} (h : exec (.encode ty) s = .next t) :
    t.status.err ∈ possibleCodes (.encode ty) := by
  obtain rfl := Host.Outcome.next.inj ((exec_encode ty s).symm.trans h)
  rw [(codecCompletion_completed s (encodeCommand ty s)).err, CodecOutcome.settled]
  rcases codeOf_settleOut_map_cases (encodeCommand ty s).value Prod.fst with hok | hlong | herror
  · simp [possibleCodes, hok]
  · simp [possibleCodes, hlong]
  · rcases encodeCommand_error_code herror with hcode | hcode | hcode <;> simp [possibleCodes, hcode]

theorem exec_decode_code (h : exec .decode s = .next t) : t.status.err ∈ possibleCodes .decode := by
  obtain ⟨t', ht', -, -, hbad, hdecodes⟩ := decodeWritesThePayload s
  obtain rfl := Host.Outcome.next.inj (ht'.symm.trans h)
  by_cases hlen : 256 < s.inLen.toNat ∨ 64 < s.prefixLen.toNat
  · simp [possibleCodes, (hbad hlen).1.err]
  · obtain ⟨-, herror, hok⟩ := hdecodes (by omega) (by omega)
    cases hval : (decodeAddress s.sizeTable s.inOperand s.prefixOperand s.ucfSnap).value with
    | error e =>
      rw [(herror e hval).1.err]
      rcases decodeAddress_error_code hval with rfl | rfl | rfl | rfl <;> simp [possibleCodes]
    | ok x => simp [possibleCodes, (hok x.1 x.2 hval).1.err]

end

/-- Settles O30: command by command; an illegal word's completion is `completeIllegal`. -/
theorem commandsCompleteWithTheirCodes : Obligations.CommandsCompleteWithTheirCodes := by
  refine ⟨fun i s t h => ?_, fun s t e herr h => ?_⟩
  · cases i with
    | nop | pmInit | pmStep => simp [possibleCodes, exec_of_not_readsIn h rfl]
    | pmRun => exact exec_pmRun_code h
    | cbRun => exact exec_cbRun_code h
    | b32Map => exact exec_b32Map_code h
    | b32Unmap => exact exec_b32Unmap_code h
    | pack => exact exec_pack_code h
    | checksum => exact exec_checksum_code h
    | encode => exact exec_encode_code h
    | decode => exact exec_decode_code h
  · have hrun := completeCommand_of_illegal (legalWord_eq_false_iff.mpr ⟨e, herr⟩)
    obtain rfl := Host.Outcome.next.inj (hrun.symm.trans h)
    rfl

end Sys2Proof.Machine
end

section
/-! PROOFS. The interrupt line, event by event (60_exceptions.md R313; 70_reset_and_hazards.md R340). -/

namespace Sys2Proof.Machine

/-! ### When irq is asserted -/

theorem irq_eq_true_iff (s : State) : s.irq = true ↔ s.status.done = true ∧ s.ctrl.ie = true :=
  Bool.and_eq_true_iff

theorem irq_of_done {s : State} (h : s.status.done = true) : s.irq = s.ctrl.ie := by simp [State.irq, h]

theorem irq_of_not_done {s : State} (h : s.status.done = false) : s.irq = false := by simp [State.irq, h]

theorem irq_of_enabled {s : State} (h : s.ctrl.ie = true) : s.irq = s.status.done := by simp [State.irq, h]

theorem irq_of_not_enabled {s : State} (h : s.ctrl.ie = false) : s.irq = false := by simp [State.irq, h]

/-- irq follows DONE and IE alone. -/
theorem irq_congr {s t : State} (hdone : t.status.done = s.status.done) (hie : t.ctrl.ie = s.ctrl.ie) :
    t.irq = s.irq := by
  rw [State.irq, State.irq, hdone, hie]

/-! ### The engine's turn -/

/-- A completion sets DONE and leaves CTRL (40_command.md R122, R128). -/
theorem completeCommand_irq {s t : State} (h : completeCommand s = .next t) : t.irq = s.ctrl.ie := by
  obtain ⟨u, hu, hcompleted, hframe⟩ := completeCommand_completes s
  obtain rfl := Host.Outcome.next.inj (hu.symm.trans h)
  rw [irq_of_done hcompleted.done, hframe.ctrl]

theorem engineTurn_irq {s t : State} (h : engineTurn s = .next t) :
    (s.status.busy = true ∧ s.rst = false → t.irq = s.ctrl.ie) ∧
    (s.status.busy = false ∨ s.rst = true → t.irq = s.irq) := by
  rcases engineTurn_cases s with ⟨hoff, hidle⟩ | ⟨hbusy, hrst, hturn⟩
  · obtain rfl := Host.Outcome.next.inj (hidle.symm.trans h)
    refine ⟨fun ⟨hbusy, hrst⟩ => ?_, fun _ => rfl⟩
    simp [hbusy, hrst] at hoff
  · refine ⟨fun _ => completeCommand_irq (hturn.symm.trans h), fun hoff => ?_⟩
    simp [hbusy, hrst] at hoff

/-! ### Writes of STATUS, CTRL and CMD -/

section
variable {s t : State} {v : Word} {rest : List Event} (hrst : s.rst = false) (h : step s = .next t)
include hrst h

/-- The W1C rule: a 1 in bit 1 clears DONE, a 0 leaves it (10_state.md R25). -/
theorem statusWrite_irq (hp : s.pending = .host (.write 0x008 4 v) :: rest) :
    (v.getLsbD 1 = true → t.irq = false) ∧ (v.getLsbD 1 = false → t.irq = s.irq) := by
  obtain rfl := Host.Outcome.next.inj ((step_writeStatus hrst hp).symm.trans h)
  have hdone : (s.afterStatusWrite v rest).status.done = (s.status.done && !v.getLsbD 1) := rfl
  refine ⟨fun hclear => irq_of_not_done ?_, fun hkeep => irq_congr ?_ rfl⟩
  · rw [hdone, hclear, Bool.not_true, Bool.and_false]
  · rw [hdone, hkeep, Bool.not_false, Bool.and_true]

/-- A CTRL write is a soft reset where SRST is 1, else it stores IE (10_state.md R24, 70_reset_and_hazards.md R341). -/
theorem ctrlWrite_irq (hp : s.pending = .host (.write 0x004 4 v) :: rest) :
    (v.getLsbD 2 = true → t.irq = false) ∧ (v.getLsbD 0 = false → t.irq = false) ∧
    (v.getLsbD 0 = true → v.getLsbD 2 = false → t.irq = s.status.done) := by
  cases hsrst : v.getLsbD 2 with
  | true =>
    obtain rfl := Host.Outcome.next.inj ((step_softReset hrst hsrst hp).symm.trans h)
    exact ⟨fun _ => irq_of_not_done rfl, fun _ => irq_of_not_done rfl, nofun⟩
  | false =>
    have hwrite := step_writeReg (r := .ctrl) rfl hrst hp (busyRefuses_of_open s rfl)
    rw [writeReg, writeCtrl_of_not_srst _ hsrst] at hwrite
    obtain rfl := Host.Outcome.next.inj (hwrite.symm.trans h)
    exact ⟨nofun, fun hie => irq_of_not_enabled hie, fun hie _ => irq_of_enabled hie⟩

/-- A CMD write is accepted, which clears DONE, or refused, which marks BVIOL alone (40_command.md R120, 20_memory.md
R67). -/
theorem cmdWrite_irq (hp : s.pending = .host (.write 0x00C 4 v) :: rest) :
    (s.status.busy = false → t.irq = false) ∧ (s.status.busy = true → t.irq = s.irq) := by
  obtain ⟨haccept, hrefuse⟩ := cmdWriteAcceptsEveryWord s v rest hrst hp
  refine ⟨fun hidle => ?_, fun hbusy => ?_⟩
  · obtain rfl := Host.Outcome.next.inj ((haccept hidle).symm.trans h)
    exact irq_of_not_done rfl
  · obtain rfl := Host.Outcome.next.inj ((hrefuse hbusy).symm.trans h)
    rfl

end

/-! ### Every other access -/

/-- Of the registers only CTRL, STATUS and CMD, written, change DONE or IE (20_memory.md R62). -/
theorem csrWrite_irq_of_other (s : State) {off : Nat} (v : Word)
    (hoff : off ≠ 0x004 ∧ off ≠ 0x008 ∧ off ≠ 0x00C) : (csrWrite s off v).irq = s.irq := by
  obtain ⟨hctrl, hstatus, hcmd⟩ := hoff
  rcases csrWrite_cases s off v with
    hw | ⟨ho, _⟩ | ⟨ho, _⟩ | ⟨ho, _⟩ | ⟨ho, _⟩ | ⟨_, hw⟩ | ⟨_, hw⟩ | ⟨_, hw⟩ | ⟨_, hw⟩
  · rw [hw]
  · exact absurd ho hctrl
  · exact absurd ho hctrl
  · exact absurd ho hstatus
  · exact absurd ho hcmd
  all_goals rw [hw]; rfl

theorem regionWrite_irq_of_other (s : State) {a : HostAddr} (n : Nat) (v : Word)
    (ha : a ≠ 0x004 ∧ a ≠ 0x008 ∧ a ≠ 0x00C) : (regionWrite s a n v).irq = s.irq := by
  rcases regionWrite_cases s a n v with ⟨_, hw⟩ | ⟨_, hw⟩ | ⟨_, hw⟩ <;> rw [hw]
  · exact csrWrite_irq_of_other s v (by simpa [← BitVec.toNat_inj] using ha)
  · rfl

/-- An access other than a 32-bit write of CTRL, STATUS or CMD: a write that passes the checks below 0x100 has 32 bits,
so it goes to another register. -/
theorem performAccess_irq_of_other (s : State) {x : HostAccess}
    (hx : ∀ v, x ≠ .write 0x004 4 v ∧ x ≠ .write 0x008 4 v ∧ x ≠ .write 0x00C 4 v) :
    (performAccess s x).irq = s.irq := by
  obtain ⟨r, hw | ⟨hw, _⟩ | ⟨a, n, v, rfl, hbus, _, hw⟩⟩ := performAccess_cases s x <;> rw [hw]
  · rfl
  · rfl
  · obtain ⟨_, _, _, hword⟩ := passes_checks hbus
    have hother (b : HostAddr) (hb : b.toNat < 0x100) (hne : ∀ w, HostAccess.write a n v ≠ .write b 4 w) : a ≠ b := by
      rintro rfl
      exact hne v (by rw [hword hb])
    exact regionWrite_irq_of_other s n v ⟨hother _ (by decide) fun w => (hx w).1,
      hother _ (by decide) fun w => (hx w).2.1, hother _ (by decide) fun w => (hx w).2.2⟩

/-- The same at the port: while rst is asserted no access has an effect (70_reset_and_hazards.md R340; log 7). -/
theorem portAccess_irq_of_other (s : State) {x : HostAccess}
    (hx : s.rst = true ∨ ∀ v, x ≠ .write 0x004 4 v ∧ x ≠ .write 0x008 4 v ∧ x ≠ .write 0x00C 4 v) :
    (portAccess s x).irq = s.irq := by
  cases hrst : s.rst with
  | true =>
    rw [portAccess_of_rst hrst]
    rfl
  | false =>
    rw [portAccess_of_not_rst hrst]
    exact performAccess_irq_of_other s (hx.resolve_left (by simp [hrst]))

/-- Settles O22: event by event. -/
theorem interruptFollowsDoneAndEnable : Obligations.InterruptFollowsDoneAndEnable := by
  refine ⟨irq_eq_true_iff, fun s t => completeCommand_irq, fun s t hp h => ?_, fun s t rest hp h => ?_,
    fun s t a v rest hrst hp h => ?_, fun s t x rest hp h hother => ?_⟩
  · rcases hp with hp | ⟨rest, hp⟩
    · exact engineTurn_irq ((step_of_nil hp).symm.trans h)
    · exact engineTurn_irq (s := { s with pending := rest }) ((step_of_engine hp).symm.trans h)
  · rcases hp with hp | hp
    · obtain rfl := Host.Outcome.next.inj ((step_of_resetAssert hp).symm.trans h)
      exact irq_of_not_done rfl
    · obtain rfl := Host.Outcome.next.inj ((step_of_resetRelease hp).symm.trans h)
      exact irq_of_not_done rfl
  · refine ⟨?_, ?_, ?_, ?_, ?_, ?_, ?_⟩ <;> rintro rfl
    · exact (statusWrite_irq hrst h hp).1
    · exact (statusWrite_irq hrst h hp).2
    · exact (ctrlWrite_irq hrst h hp).2.1
    · exact (ctrlWrite_irq hrst h hp).1
    · exact (ctrlWrite_irq hrst h hp).2.2
    · exact (cmdWrite_irq hrst h hp).1
    · exact (cmdWrite_irq hrst h hp).2
  · obtain rfl := Host.Outcome.next.inj ((step_of_host hp).symm.trans h)
    exact portAccess_irq_of_other { s with pending := rest } hother

end Sys2Proof.Machine
end

section
/-! PROOFS. What an event leaves of the reset level and of the schedule, and the machine while rst is asserted
(70_reset_and_hazards.md R340; log 7). -/

namespace Sys2Proof.Machine

/-! ### The reset level and the schedule -/

/-- A register write leaves rst and the schedule, a soft reset too. -/
theorem csrWrite_rst_pending (s : State) (off : Nat) (v : Word) :
    (csrWrite s off v).rst = s.rst ∧ (csrWrite s off v).pending = s.pending := by
  rcases csrWrite_cases s off v with h | ⟨_, _, h⟩ | ⟨_, _, h⟩ | ⟨_, h⟩ | ⟨_, h⟩ | ⟨_, h⟩ | ⟨_, h⟩ | ⟨_, h⟩ | ⟨_, h⟩ <;>
    simp [h]

theorem regionWrite_rst_pending (s : State) (a : HostAddr) (n : Nat) (v : Word) :
    (regionWrite s a n v).rst = s.rst ∧ (regionWrite s a n v).pending = s.pending := by
  rcases regionWrite_cases s a n v with ⟨_, h⟩ | ⟨_, h⟩ | ⟨_, h⟩ <;> rw [h]
  · exact csrWrite_rst_pending s _ v
  · exact ⟨rfl, rfl⟩
  · exact ⟨rfl, rfl⟩

theorem performAccess_rst_pending (s : State) (x : HostAccess) :
    (performAccess s x).rst = s.rst ∧ (performAccess s x).pending = s.pending := by
  obtain ⟨r, h | ⟨h, _⟩ | ⟨a, n, v, _, _, _, h⟩⟩ := performAccess_cases s x <;> rw [h]
  · exact ⟨rfl, rfl⟩
  · exact ⟨rfl, rfl⟩
  · exact regionWrite_rst_pending s a n v

theorem portAccess_pending (s : State) (x : HostAccess) : (portAccess s x).pending = s.pending := by
  cases hrst : s.rst with
  | true => rw [portAccess_of_rst hrst]
  | false =>
    rw [portAccess_of_not_rst hrst]
    exact (performAccess_rst_pending s x).2

theorem engineTurn_pending {s t : State} (h : engineTurn s = .next t) : t.pending = s.pending := by
  rcases engineTurn_cases s with ⟨_, hidle⟩ | ⟨_, _, hturn⟩
  · obtain rfl := Host.Outcome.next.inj (hidle.symm.trans h)
    rfl
  · obtain ⟨u, hu, _, hframe⟩ := completeCommand_completes s
    obtain rfl := Host.Outcome.next.inj (hu.symm.trans (hturn.symm.trans h))
    exact hframe.pending

/-- A step uses up the head of the schedule and adds nothing to it (log 1). -/
theorem step_pending {s t : State} (h : step s = .next t) : t.pending = s.pending.tail := by
  cases hp : s.pending with
  | nil => exact (engineTurn_pending ((step_of_nil hp).symm.trans h)).trans hp
  | cons ev rest =>
    cases ev with
    | host x =>
      obtain rfl := Host.Outcome.next.inj ((step_of_host hp).symm.trans h)
      exact portAccess_pending { s with pending := rest } x
    | engine => exact engineTurn_pending (s := { s with pending := rest }) ((step_of_engine hp).symm.trans h)
    | resetAssert =>
      obtain rfl := Host.Outcome.next.inj ((step_of_resetAssert hp).symm.trans h)
      rfl
    | resetRelease =>
      obtain rfl := Host.Outcome.next.inj ((step_of_resetRelease hp).symm.trans h)
      rfl

/-! ### While rst is asserted -/

theorem assertReset_isResetState (s : State) : IsResetState (assertReset s) :=
  reset_isResetState.withRest _ _ _ _

/-- The engine's step is not enabled while rst is asserted (70_reset_and_hazards.md R340). -/
theorem engineTurn_of_rst {s : State} (h : s.rst = true) : engineTurn s = .next s := by
  rcases engineTurn_cases s with ⟨_, hidle⟩ | ⟨_, hrst, _⟩
  · exact hidle
  · exact not_held hrst h

/-- Settles O21: event by event. -/
theorem assertedResetHoldsTheMachine : Obligations.AssertedResetHoldsTheMachine := by
  refine ⟨fun s rest hp => ?_, fun s x rest hrst hp => ?_, fun s rest hrst hp => ?_, fun s hrst hp => ?_⟩
  · have hreset := assertReset_isResetState { s with pending := rest }
    exact ⟨_, step_of_resetAssert hp, rfl, hreset, hreset.irq, rfl⟩
  · rw [step_of_host hp, portAccess_of_rst (s := { s with pending := rest }) hrst]
  · rw [step_of_engine hp, engineTurn_of_rst (s := { s with pending := rest }) hrst]
  · rw [step_of_nil hp, engineTurn_of_rst hrst]

end Sys2Proof.Machine
end

section
/-! PROOFS. Every accepted command completes unless a reset aborts it (70_reset_and_hazards.md R350, 40_command.md
R122; log 2). -/

namespace Sys2Proof.Machine

/-- While rst is asserted no command is in flight: the part of `Inv` (its `heldInReset`) that liveness needs. -/
def State.IdleInReset (s : State) : Prop := s.rst = true → s.status.busy = false

/-- The engine's turn completes the command in flight, or finds none: rst alone could keep it from its step. -/
theorem engineTurn_idle {s t : State} (hs : s.IdleInReset) (h : engineTurn s = .next t) : t.status.busy = false := by
  rcases engineTurn_cases s with ⟨hoff, hidle⟩ | ⟨_, _, hturn⟩
  · obtain rfl := Host.Outcome.next.inj (hidle.symm.trans h)
    exact hoff.elim id hs
  · obtain ⟨u, hu, hcompleted, _⟩ := completeCommand_completes s
    obtain rfl := Host.Outcome.next.inj (hu.symm.trans (hturn.symm.trans h))
    exact hcompleted.idle

/-- An access does not assert rst, and has no effect on STATUS while rst is asserted. -/
theorem portAccess_idleInReset {s : State} (hs : s.IdleInReset) (x : HostAccess) : (portAccess s x).IdleInReset := by
  cases hrst : s.rst with
  | true =>
    rw [portAccess_of_rst hrst]
    exact hs
  | false =>
    rw [portAccess_of_not_rst hrst]
    exact not_held ((performAccess_rst_pending s x).1.trans hrst)

theorem step_idleInReset {s t : State} (hs : s.IdleInReset) (h : step s = .next t) : t.IdleInReset := by
  cases hp : s.pending with
  | nil => exact fun _ => engineTurn_idle hs ((step_of_nil hp).symm.trans h)
  | cons ev rest =>
    have hrest : State.IdleInReset { s with pending := rest } := hs
    cases ev with
    | host x =>
      obtain rfl := Host.Outcome.next.inj ((step_of_host hp).symm.trans h)
      exact portAccess_idleInReset hrest x
    | engine => exact fun _ => engineTurn_idle hrest ((step_of_engine hp).symm.trans h)
    | resetAssert =>
      obtain rfl := Host.Outcome.next.inj ((step_of_resetAssert hp).symm.trans h)
      exact fun _ => rfl
    | resetRelease =>
      obtain rfl := Host.Outcome.next.inj ((step_of_resetRelease hp).symm.trans h)
      exact fun _ => rfl

/-- By the length of the schedule: each step takes one event off it, and the last is the engine's turn. -/
theorem run_ends_idle {evs : List Event} {s : State} (hs : s.IdleInReset) (hp : s.pending = evs) :
    ∃ t, Host.Core.run Sys2Proof.core (evs.length + 1) s = .next t ∧ t.status.busy = false ∧ t.pending = [] := by
  induction evs generalizing s with
  | nil =>
    obtain ⟨t, hturn⟩ := engineTurn_answers s
    have hstep : step s = .next t := (step_of_nil hp).trans hturn
    exact ⟨t, run_succ hstep 0, engineTurn_idle hs hturn, (engineTurn_pending hturn).trans hp⟩
  | cons ev rest ih =>
    obtain ⟨u, hstep⟩ := everyStepAnswersNext s
    have hrest : u.pending = rest := (step_pending hstep).trans (congrArg List.tail hp)
    obtain ⟨t, hrun, hdone⟩ := ih (step_idleInReset hs hstep) hrest
    exact ⟨t, (run_succ hstep _).trans hrun, hdone⟩

/-- Settles O10. -/
theorem everyScheduleEndsIdle : Obligations.EveryScheduleEndsIdle := fun _ hs => run_ends_idle hs rfl

end Sys2Proof.Machine
end

section
/-! PROOFS. The busy window: the accesses between acceptance and completion leave all that the command in flight reads
and writes (70_reset_and_hazards.md R344, 20_memory.md R67). -/

namespace Sys2Proof.Machine

/-! ### What an access in the busy window leaves -/

/-- `t` comes after `s` in one busy window: the same command is in flight, and only CTRL, STATUS short of BUSY and OP,
the schedule and the last response may have changed. -/
structure SameBusyWindow (s t : State) : Prop where
  /-- The fields that no access in the window reaches. -/
  held : t = s.withPortFields t
  /-- The command is in flight. -/
  busy : t.status.busy = true
  /-- OP is the opcode of its word. -/
  op : t.status.op = s.status.op

namespace SameBusyWindow

variable {s t u : State}

theorem refl (hbusy : s.status.busy = true) : SameBusyWindow s s := ⟨rfl, hbusy, rfl⟩

theorem trans (h : SameBusyWindow s t) (h' : SameBusyWindow t u) : SameBusyWindow s u where
  held := h'.held.trans (congrArg (State.withPortFields · u) h.held :)
  busy := h'.busy
  op := h'.op.trans h.op

theorem withSchedule (h : SameBusyWindow s t) (evs : List Event) (resp : Option Response) :
    SameBusyWindow s { t with pending := evs, resp := resp } :=
  { h with held := congrArg (fun w : State => { w with pending := evs, resp := resp }) h.held }

theorem rst (h : SameBusyWindow s t) : t.rst = s.rst := (congrArg State.rst h.held :)

end SameBusyWindow

section
variable {s : State} (hbusy : s.status.busy = true)
include hbusy

/-- Of the registers open while BUSY = 1 a write changes CTRL, or clears bits of STATUS (20_memory.md R67). -/
theorem csrWrite_sameBusyWindow {off : Nat} {v : Word} (hopen : off = 0x000 ∨ off = 0x004 ∨ off = 0x008)
    (hsoft : off = 0x004 → v.getLsbD 2 = false) : SameBusyWindow s (csrWrite s off v) := by
  rcases csrWrite_cases s off v with
    hw | ⟨ho, hsrst, _⟩ | ⟨_, _, hw⟩ | ⟨_, hw⟩ | ⟨ho, _⟩ | ⟨ho, _⟩ | ⟨ho, _⟩ | ⟨ho, _⟩ | ⟨ho, _⟩
  · rw [hw]
    exact .refl hbusy
  · exact absurd hsrst (Bool.eq_false_iff.mp (hsoft ho))
  · rw [hw]
    exact ⟨rfl, hbusy, rfl⟩
  · rw [hw]
    exact ⟨rfl, hbusy, rfl⟩
  all_goals omega

/-- An access stays in the busy window unless it is a soft reset: it raises BusError, is refused, or goes to ID, CTRL or
STATUS (20_memory.md R66, R67). -/
theorem performAccess_sameBusyWindow {x : HostAccess} (hx : isSoftReset x = false) :
    SameBusyWindow s (performAccess s x) := by
  obtain ⟨r, hw | ⟨hw, _⟩ | ⟨a, n, v, rfl, hbus, hpass, hw⟩⟩ := performAccess_cases s x <;> rw [hw]
  · exact ⟨rfl, hbusy, rfl⟩
  · exact ⟨rfl, hbusy, rfl⟩
  · have hopen := open_of_busy_of_not_refused hbusy hpass
    have hoff : a.toNat = 0x000 ∨ a.toNat = 0x004 ∨ a.toNat = 0x008 := by
      simpa [← BitVec.toNat_inj] using hopen
    have hbelow : a.toNat < prefixBase := by simp only [prefixBase]; omega
    obtain ⟨_, _, _, hword⟩ := passes_checks hbus
    have hsoft : a.toNat = 0x004 → v.getLsbD 2 = false := fun ha => by
      obtain rfl : a = 0x004 := BitVec.eq_of_toNat_eq ha
      simpa [isSoftReset, hword hbelow] using hx
    have hreg : regionWrite s a n v = csrWrite s a.toNat v := if_pos hbelow
    have hwindow := csrWrite_sameBusyWindow hbusy hoff hsoft
    rw [hreg]
    exact hwindow.withSchedule _ _

end

/-! ### A run through the window -/

/-- The step that performs an access other than a soft reset stays in the window. -/
theorem step_sameBusyWindow {s : State} {x : HostAccess} {rest : List Event} (hrst : s.rst = false)
    (hbusy : s.status.busy = true) (hx : isSoftReset x = false) (hp : s.pending = .host x :: rest) :
    ∃ t, step s = .next t ∧ SameBusyWindow s t ∧ t.pending = rest := by
  have hpop := (SameBusyWindow.refl hbusy).withSchedule rest s.resp
  have haccess := performAccess_sameBusyWindow (s := { s with pending := rest }) hbusy hx
  exact ⟨_, step_performs hrst hp, hpop.trans haccess, (performAccess_rst_pending _ x).2⟩

/-- The accesses at the head of the schedule, performed one after another, stay in the window. -/
theorem run_accesses {xs : List HostAccess} {rest : List Event} {s : State} (hxs : ∀ x ∈ xs, isSoftReset x = false)
    (hrst : s.rst = false) (hbusy : s.status.busy = true) (hp : s.pending = xs.map Event.host ++ rest) :
    ∃ t, SameBusyWindow s t ∧ t.pending = rest ∧
      ∀ k, Host.Core.run Sys2Proof.core (xs.length + k) s = Host.Core.run Sys2Proof.core k t := by
  induction xs generalizing s with
  | nil => exact ⟨s, .refl hbusy, hp, fun k => by rw [List.length_nil, Nat.zero_add]⟩
  | cons x xs ih =>
    obtain ⟨hx, hxs⟩ := List.forall_mem_cons.mp hxs
    obtain ⟨u, hstep, hfirst, hpu⟩ := step_sameBusyWindow hrst hbusy hx hp
    obtain ⟨t, hlater, hpt, hrun⟩ := ih hxs (hfirst.rst.trans hrst) hfirst.busy hpu
    refine ⟨t, hfirst.trans hlater, hpt, fun k => ?_⟩
    rw [List.length_cons, Nat.add_right_comm, run_succ hstep, hrun]

/-- Settles O24: the command in flight reads none of the fields an access of the window may change, so it completes as
it does at once, over the window's STATUS. -/
theorem busyWindowAccessesDoNotChangeTheResult : Obligations.BusyWindowAccessesDoNotChangeTheResult := by
  intro s xs hrst hbusy hxs
  obtain ⟨u, hu, _, hframe⟩ := completeCommand_completes { s with pending := [] }
  have honce : step { s with pending := [.engine] } = .next u :=
    (step_completes (s := { s with pending := [.engine] }) hrst hbusy rfl).trans hu
  obtain ⟨w, hwindow, hpw, hrun⟩ :=
    run_accesses (s := { s with pending := xs.map Event.host ++ [.engine] }) hxs hrst hbusy rfl
  have hheld := (hwindow.withSchedule [] w.resp).held
  have hlast : step w = .next (completeWith (u.withPortFields { w with pending := [] }) u.status.err) := by
    rw [step_completes (hwindow.rst.trans hrst) hwindow.busy hpw, hheld]
    exact completeCommand_withPortFields hu { w with pending := [] }
  exact ⟨_, u, (hrun 1).trans (run_succ hlast 0), run_succ honce 0, rfl, rfl, hwindow.op.trans hframe.op.symm, rfl, rfl,
    rfl, rfl, rfl, rfl, rfl, rfl, rfl⟩

end Sys2Proof.Machine
end
